-- ==== Sys2Proof/Word.lean ====
section
/-! DEFINITION. Word.lean: the widths the spec gives to values (00_scope.md R7, R9). -/

namespace Sys2Proof

/-- One host register or command word: 32 bits (R7 `XLEN`, R9). -/
abbrev Word := BitVec 32

/-- One byte, 8 bits (R9). -/
abbrev Byte := BitVec 8

/-- A DeviceAddress in its flat encoding, 64 bits (R7, R26). -/
abbrev RomCode := BitVec 64

/-- A 9-byte MemoryImage laid out flat, byte `k` in bits `8k+7 : 8k` (R7, R27). -/
abbrev Image := BitVec 72

end Sys2Proof
end

