-- ==== Sys2Proof/Syntax.lean ====
section
/-! DEFINITION. Syntax.lean: the 22 operations of 30_encoding.md Table 2 (R103), the formats of R101, the
host's register names of 10_state.md Table 1, the assembler line of R108, the host lines of R110 and the
pseudo-instructions of R111. -/

namespace Sys2Proof

/-- One operation, with its operands at the widths of R102: one constructor per row of
spec/opcode_table.json. -/
inductive Instr where
  /-- RESET (R112). -/
  | reset
  /-- WRITE_BIT (R116). -/
  | writeBit (b : Bool)
  /-- READ_BIT (R118). -/
  | readBit
  /-- WRITE_BYTE (R120). -/
  | writeByte (byte : Byte)
  /-- READ_BYTE (R122). -/
  | readByte
  /-- WAIT_LEVEL (R124): the level and the timeout `T` in microseconds. -/
  | waitLevel (level : Bool) (timeout : BitVec 16)
  /-- TRIPLET (R126). -/
  | triplet (dir : Bool)
  /-- CRC_CLEAR (R134). -/
  | crcClear
  /-- CRC_BYTE (R135). -/
  | crcByte (byte : Byte)
  /-- ROM_CHECK (R152). -/
  | romCheck
  /-- SP_CHECK (R153). -/
  | spCheck
  /-- SELECT_ALL (R160). -/
  | selectAll
  /-- READ_ROM (R162). -/
  | readRom
  /-- SELECT_ONE (R164). -/
  | selectOne
  /-- CONVERT (R170). -/
  | convert
  /-- READ_SP (R172). -/
  | readSp
  /-- WRITE_SP (R174). -/
  | writeSp (high low config : Byte)
  /-- COPY_SP (R176). -/
  | copySp
  /-- READ_POWER (R178). -/
  | readPower
  /-- SEARCH_INIT (R186). -/
  | searchInit
  /-- SEARCH (R188). -/
  | search
  /-- SEARCH_ALARM (R190). -/
  | searchAlarm
deriving DecidableEq, Repr

/-- The five formats of R101: N (none), B (bit), Y (byte), W (wait), T (triple). -/
inductive Format where
  | n | b | y | w | t
deriving DecidableEq, Repr

/-- The sixteen words of the host register window (10_state.md Table 1), offset 0x3C as `reserved`. -/
inductive Reg where
  | ctrl | cmd | status | data | crc | romLo | romHi | spW0 | spW1 | spW2 | temp
  | srchPathLo | srchPathHi | srchLen | polls | reserved
deriving DecidableEq, Repr

/-- The registers in the order of their offsets, four bytes each (Table 1). -/
def Reg.all : List Reg :=
  [.ctrl, .cmd, .status, .data, .crc, .romLo, .romHi, .spW0, .spW1, .spW2, .temp,
   .srchPathLo, .srchPathHi, .srchLen, .polls, .reserved]

/-- One line of the assembler syntax of R108: `MNEMONIC operands`, the operands as written. -/
structure AsmLine where
  mnemonic : String
  operands : List Int
deriving DecidableEq, Repr

/-- The pseudo-instructions of R111. -/
inductive Pseudo where
  | setRom (imm : RomCode)
  | address (imm : RomCode)
  | broadcast
  | crcFrame (bytes : List Byte)
  | ack
  | searchFirst
  | searchNext
deriving DecidableEq, Repr

/-- The fields of a host variable that holds a STATUS word, `s.FIELD` (R110, 10_state.md R23). DESIGN CHOICE: R110 says
"a host variable or field" and shows `s.BUSY` only; the model names the eight fields of STATUS and no field of another
register's word, such as RES and T16 of TEMP or IE of CTRL (notes/assumptions/9.md). -/
inductive StatusField where
  | busy | done | presence | short | nomore | ovr | line | err
deriving DecidableEq, Repr

/-- A host expression: host integers, variables, fields of a variable, arrays, `+`, `<<` and `|` (R110). -/
inductive HostExpr where
  | imm (v : Nat)
  | var (name : String)
  | field (name : String) (f : StatusField)
  | item (array : String) (index : HostExpr)
  | add (a b : HostExpr)
  | shl (a b : HostExpr)
  | or (a b : HostExpr)
deriving DecidableEq, Repr

/-- One line of the host notation of R110. -/
inductive HostLine where
  /-- `sw REG, imm32`, the value being an immediate or a host variable. -/
  | sw (reg : Reg) (value : HostExpr)
  /-- `lw REG -> v`. -/
  | lw (reg : Reg) (var : String)
  /-- `MNEMONIC operands`: `sw CMD, word` followed by `wait`. -/
  | op (i : Instr)
  /-- `wait`: read STATUS until BUSY is 0. -/
  | wait
  /-- A pseudo-instruction (R111). -/
  | pseudo (p : Pseudo)
  /-- `b.eq x, imm, label`. -/
  | bEq (x : HostExpr) (imm : Nat) (label : String)
  /-- `b.ne x, imm, label`. -/
  | bNe (x : HostExpr) (imm : Nat) (label : String)
  /-- `b label`. -/
  | b (label : String)
  /-- `v <- expr`. -/
  | set (var : String) (value : HostExpr)
  /-- `a[n] <- expr`. -/
  | setItem (array : String) (index value : HostExpr)
  /-- `label:`. -/
  | label (name : String)
  /-- `halt`. -/
  | halt
deriving DecidableEq, Repr

end Sys2Proof
end

