-- ==== Sys2Proof/WellFormed.lean ====
section
/-! DEFINITION. WellFormed.lean: when a command word is legal (30_encoding.md R105: its opcode is assigned and
its reserved bits are zero) and when an assembler line is well formed (R102, R108). An `Instr` carries its
operands at the exact widths of R102, so every term of that type is a well-formed operation. -/

namespace Sys2Proof

/-- The bits of a format that are reserved and must be zero (R101). -/
def Format.reservedBits : Format → Word
  | .n => 0xFFFFFF00#32
  | .b => 0xFFFFFE00#32
  | .y => 0xFFFF0000#32
  | .w => 0x0000FE00#32
  | .t => 0x00000000#32

/-- The format of an assigned opcode (R103 Table 2); none for an unassigned one. -/
def formatOfOpcode (op : Nat) : Option Format :=
  match op with
  | 0x01 => some .n | 0x02 => some .b | 0x03 => some .n | 0x04 => some .y | 0x05 => some .n
  | 0x06 => some .w | 0x07 => some .b
  | 0x10 => some .n | 0x11 => some .y
  | 0x20 => some .n | 0x21 => some .n
  | 0x30 => some .n | 0x31 => some .n | 0x32 => some .n
  | 0x40 => some .n | 0x41 => some .n | 0x42 => some .t | 0x43 => some .n | 0x44 => some .n
  | 0x50 => some .n | 0x51 => some .n | 0x52 => some .n
  | _ => none

/-- The first case of R105 does not apply: the opcode `w[7:0]` is in Table 2. -/
def opcodeAssigned (w : Word) : Bool := (formatOfOpcode (w.toNat % 256)).isSome

/-- The second case of R105 does not apply: no reserved bit of the word's format is 1. -/
def reservedClear (w : Word) : Bool :=
  match formatOfOpcode (w.toNat % 256) with
  | some f => w &&& f.reservedBits == 0#32
  | none => true

/-- A command word is well formed when neither case of R105 makes it illegal. -/
def wordWellFormed (w : Word) : Bool := opcodeAssigned w && reservedClear w

/-- A 1-bit operand as an assembler takes it (R102, R108: "0 or 1"). -/
def bitOperand (v : Int) : Bool := v == 0 || v == 1

/-- An 8-bit operand used as a bit pattern (R102, R108 `imm8`). -/
def byteOperand (v : Int) : Bool := 0 ≤ v && v ≤ 255

/-- An alarm limit: "An assembler accepts −128..255 for them and encodes v mod 256" (R102). -/
def alarmOperand (v : Int) : Bool := -128 ≤ v && v ≤ 255

/-- The 16-bit timeout of WAIT_LEVEL, 0..65535 (R102). -/
def timeoutOperand (v : Int) : Bool := 0 ≤ v && v ≤ 65535

/-- An assembler line's operands suit its format: their number and their ranges (R102, R108). -/
def operandsWellFormed : Format → List Int → Bool
  | .n, [] => true
  | .b, [b] => bitOperand b
  | .y, [v] => byteOperand v
  | .w, [level, t] => bitOperand level && timeoutOperand t
  | .t, [high, low, config] => alarmOperand high && alarmOperand low && byteOperand config
  | _, _ => false

end Sys2Proof
end

