-- ==== Sys2Proof/Decode.lean ====
section
/-! DEFINITION. Decode.lean: the opcode map of 30_encoding.md R103 as a table of masks and patterns, the total
decoder of R104 over it, the encoder written from the formats of R101, and the assembler of R108. -/

namespace Sys2Proof

/-! The fields of a command word (R100). -/

/-- `OP = w[7:0]` (R100). -/
def fieldOp (w : Word) : Byte := w.extractLsb' 0 8

/-- `A = w[15:8]` (R100). -/
def fieldA (w : Word) : Byte := w.extractLsb' 8 8

/-- `B = w[23:16]` (R100). -/
def fieldB (w : Word) : Byte := w.extractLsb' 16 8

/-- `C = w[31:24]` (R100). -/
def fieldC (w : Word) : Byte := w.extractLsb' 24 8

/-- `T = w[31:16]` (R100, format W). -/
def fieldT (w : Word) : BitVec 16 := w.extractLsb' 16 16

/-- `b`, `level` or `dir`, `w[8]` (R101). -/
def fieldBit (w : Word) : Bool := w.getLsbD 8

/-- One row of R103 Table 2; `build` reads the operands its format names. -/
structure OpcodeRow where
  mnemonic : String
  format   : Format
  pattern  : Word
  mask     : Word
  build    : Word → Instr

/-- Transport, 0x0_ (40_transport.md). -/
def transportRows : List OpcodeRow :=
  [ { mnemonic := "RESET",      format := .n, pattern := 0x00000001#32, mask := 0xFFFFFFFF#32, build := fun _ => .reset },
    { mnemonic := "WRITE_BIT",  format := .b, pattern := 0x00000002#32, mask := 0xFFFFFEFF#32, build := fun w => .writeBit (fieldBit w) },
    { mnemonic := "READ_BIT",   format := .n, pattern := 0x00000003#32, mask := 0xFFFFFFFF#32, build := fun _ => .readBit },
    { mnemonic := "WRITE_BYTE", format := .y, pattern := 0x00000004#32, mask := 0xFFFF00FF#32, build := fun w => .writeByte (fieldA w) },
    { mnemonic := "READ_BYTE",  format := .n, pattern := 0x00000005#32, mask := 0xFFFFFFFF#32, build := fun _ => .readByte },
    { mnemonic := "WAIT_LEVEL", format := .w, pattern := 0x00000006#32, mask := 0x0000FEFF#32, build := fun w => .waitLevel (fieldBit w) (fieldT w) },
    { mnemonic := "TRIPLET",    format := .b, pattern := 0x00000007#32, mask := 0xFFFFFEFF#32, build := fun w => .triplet (fieldBit w) } ]

/-- Checksum 0x1_ (41_checksum.md) and frames 0x2_ (42_frames.md). -/
def checkRows : List OpcodeRow :=
  [ { mnemonic := "CRC_CLEAR",  format := .n, pattern := 0x00000010#32, mask := 0xFFFFFFFF#32, build := fun _ => .crcClear },
    { mnemonic := "CRC_BYTE",   format := .y, pattern := 0x00000011#32, mask := 0xFFFF00FF#32, build := fun w => .crcByte (fieldA w) },
    { mnemonic := "ROM_CHECK",  format := .n, pattern := 0x00000020#32, mask := 0xFFFFFFFF#32, build := fun _ => .romCheck },
    { mnemonic := "SP_CHECK",   format := .n, pattern := 0x00000021#32, mask := 0xFFFFFFFF#32, build := fun _ => .spCheck } ]

/-- Addressing commands 0x3_ (43_rom_commands.md) and function commands 0x4_ (44_function_commands.md). -/
def commandRows : List OpcodeRow :=
  [ { mnemonic := "SELECT_ALL", format := .n, pattern := 0x00000030#32, mask := 0xFFFFFFFF#32, build := fun _ => .selectAll },
    { mnemonic := "READ_ROM",   format := .n, pattern := 0x00000031#32, mask := 0xFFFFFFFF#32, build := fun _ => .readRom },
    { mnemonic := "SELECT_ONE", format := .n, pattern := 0x00000032#32, mask := 0xFFFFFFFF#32, build := fun _ => .selectOne },
    { mnemonic := "CONVERT",    format := .n, pattern := 0x00000040#32, mask := 0xFFFFFFFF#32, build := fun _ => .convert },
    { mnemonic := "READ_SP",    format := .n, pattern := 0x00000041#32, mask := 0xFFFFFFFF#32, build := fun _ => .readSp },
    { mnemonic := "WRITE_SP",   format := .t, pattern := 0x00000042#32, mask := 0x000000FF#32, build := fun w => .writeSp (fieldA w) (fieldB w) (fieldC w) },
    { mnemonic := "COPY_SP",    format := .n, pattern := 0x00000043#32, mask := 0xFFFFFFFF#32, build := fun _ => .copySp },
    { mnemonic := "READ_POWER", format := .n, pattern := 0x00000044#32, mask := 0xFFFFFFFF#32, build := fun _ => .readPower } ]

/-- Discovery, 0x5_ (45_discovery.md). -/
def discoveryRows : List OpcodeRow :=
  [ { mnemonic := "SEARCH_INIT",  format := .n, pattern := 0x00000050#32, mask := 0xFFFFFFFF#32, build := fun _ => .searchInit },
    { mnemonic := "SEARCH",       format := .n, pattern := 0x00000051#32, mask := 0xFFFFFFFF#32, build := fun _ => .search },
    { mnemonic := "SEARCH_ALARM", format := .n, pattern := 0x00000052#32, mask := 0xFFFFFFFF#32, build := fun _ => .searchAlarm } ]

/-- The opcode map, R103 Table 2. -/
def opcodeTable : List OpcodeRow := transportRows ++ checkRows ++ commandRows ++ discoveryRows

/-- A word selects the row whose `(w & mask) == match` (R103). -/
def OpcodeRow.selects (r : OpcodeRow) (w : Word) : Bool := w &&& r.mask == r.pattern

/-- The decoder of R104, total over all 2^32 words: `none` is `Illegal`. -/
def decode (w : Word) : Option Instr :=
  (opcodeTable.find? (fun r => r.selects w)).map (fun r => r.build w)

/-! The encoder: the formats of R101, column by column. -/

/-- Format N. -/
def wordN (op : Byte) : Word := 0#8 ++ 0#8 ++ 0#8 ++ op

/-- Format B: `b` in bit 8. -/
def wordB (op : Byte) (b : Bool) : Word := 0#8 ++ 0#8 ++ 0#7 ++ BitVec.ofBool b ++ op

/-- Format Y: the byte in bits 15:8. -/
def wordY (op : Byte) (a : Byte) : Word := 0#8 ++ 0#8 ++ a ++ op

/-- Format W: `T` in bits 31:16, `level` in bit 8. -/
def wordW (op : Byte) (level : Bool) (t : BitVec 16) : Word := t ++ 0#7 ++ BitVec.ofBool level ++ op

/-- Format T: `C`, `B` and `A`. -/
def wordT (op : Byte) (a b c : Byte) : Word := c ++ b ++ a ++ op

/-- The command word of an operation (R101, R103). -/
def encode : Instr → Word
  | .reset               => wordN 0x01#8
  | .writeBit b          => wordB 0x02#8 b
  | .readBit             => wordN 0x03#8
  | .writeByte v         => wordY 0x04#8 v
  | .readByte            => wordN 0x05#8
  | .waitLevel level t   => wordW 0x06#8 level t
  | .triplet dir         => wordB 0x07#8 dir
  | .crcClear            => wordN 0x10#8
  | .crcByte v           => wordY 0x11#8 v
  | .romCheck            => wordN 0x20#8
  | .spCheck             => wordN 0x21#8
  | .selectAll           => wordN 0x30#8
  | .readRom             => wordN 0x31#8
  | .selectOne           => wordN 0x32#8
  | .convert             => wordN 0x40#8
  | .readSp              => wordN 0x41#8
  | .writeSp high low config => wordT 0x42#8 high low config
  | .copySp              => wordN 0x43#8
  | .readPower           => wordN 0x44#8
  | .searchInit          => wordN 0x50#8
  | .search              => wordN 0x51#8
  | .searchAlarm         => wordN 0x52#8

/-- The word that holds an opcode-table row's `nbits` bits, every bit above them 0. A command word is one
32-bit word (R100), so its bits are numbered as the table numbers them. -/
def tableWord (nbits w : Nat) : Word := BitVec.ofNat 32 (w % 2 ^ nbits)

/-- The operation the decoder reads from an opcode-table word. -/
def decodeTableWord (nbits w : Nat) : Option Instr := decode (tableWord nbits w)

/-! The assembler of R108. -/

/-- The operand bits of a line, already at their places: `(A << 8) | (B << 16) | (C << 24)`, with `T` in bits
31:16 for WAIT_LEVEL. A value is taken modulo the width of its field (R9, R102). -/
def operandBits : Format → List Int → Word
  | .b, [b] => BitVec.ofInt 32 b <<< 8
  | .y, [v] => (BitVec.ofInt 8 v).setWidth 32 <<< 8
  | .w, [level, t] => BitVec.ofInt 32 level <<< 8 ||| ((BitVec.ofInt 16 t).setWidth 32 <<< 16)
  | .t, [a, b, c] =>
    ((BitVec.ofInt 8 a).setWidth 32 <<< 8) ||| ((BitVec.ofInt 8 b).setWidth 32 <<< 16) |||
      ((BitVec.ofInt 8 c).setWidth 32 <<< 24)
  | _, _ => 0#32

/-- `word = OP | (A << 8) | (B << 16) | (C << 24)` for a line with a known mnemonic and well-formed operands
(R108); `none` for any other line. -/
def assemble (l : AsmLine) : Option Word :=
  match opcodeTable.find? (fun r => r.mnemonic == l.mnemonic) with
  | some r =>
    if operandsWellFormed r.format l.operands then some (r.pattern ||| operandBits r.format l.operands) else none
  | none => none

/-! The text of an assembler line (R108): `MNEMONIC operands`, immediates in decimal, 0x hex or 0b binary. -/

/-- The value of a digit. -/
def digitValue (c : Char) : Option Nat :=
  if '0' ≤ c ∧ c ≤ '9' then some (c.toNat - '0'.toNat)
  else if 'a' ≤ c ∧ c ≤ 'f' then some (c.toNat - 'a'.toNat + 10)
  else if 'A' ≤ c ∧ c ≤ 'F' then some (c.toNat - 'A'.toNat + 10)
  else none

/-- The number that digits write in a base, `acc` being the number written before them. -/
def digitsValue (base : Nat) : List Char → Nat → Option Nat
  | [], acc => some acc
  | c :: cs, acc =>
    match digitValue c with
    | some d => if d < base then digitsValue base cs (acc * base + d) else none
    | none => none

/-- An immediate without its sign: decimal, 0x hex or 0b binary, at least one digit. -/
def parseMagnitude : List Char → Option Nat
  | '0' :: 'x' :: d :: ds => digitsValue 16 (d :: ds) 0
  | '0' :: 'b' :: d :: ds => digitsValue 2 (d :: ds) 0
  | [] => none
  | ds => digitsValue 10 ds 0

/-- An immediate; an alarm limit may be negative (R102). -/
def parseImmediate : List Char → Option Int
  | '-' :: ds => (parseMagnitude ds).map fun n => -(n : Int)
  | ds => (parseMagnitude ds).map fun n => (n : Int)

/-- A text cut at every occurrence of a character. -/
def splitText (sep : Char) : List Char → List (List Char)
  | [] => [[]]
  | c :: cs =>
    match splitText sep cs with
    | [] => []
    | w :: ws => if c = sep then [] :: w :: ws else (c :: w) :: ws

/-- A text without the spaces around it. -/
def trimText (cs : List Char) : List Char := ((cs.dropWhile (· = ' ')).reverse.dropWhile (· = ' ')).reverse

/-- The operands of a line, separated by commas; a line may have none. -/
def parseOperands (cs : List Char) : Option (List Int) :=
  if (trimText cs).isEmpty then some [] else (splitText ',' cs).mapM fun w => parseImmediate (trimText w)

/-- An assembler line read from its text. -/
def parseLine (text : List Char) : Option AsmLine :=
  (parseOperands ((trimText text).dropWhile (· ≠ ' '))).map fun ops =>
    { mnemonic := String.ofList ((trimText text).takeWhile (· ≠ ' ')), operands := ops }

/-- The word of an assembler line given as text (R108); none for a text that is no well-formed line. -/
def assembleText (text : String) : Option Word := (parseLine text.toList).bind assemble

end Sys2Proof
end

