-- ==== Sys2Proof/Config.lean ====
section
/-! DEFINITION. Config.lean: the implementation parameters of 00_scope.md R7, the timing table of
70_reset_and_hazards.md R228, the bus command bytes of 30_encoding.md R109, and the free values: what the
environment answers (20_memory.md R75) is an opaque constant, so no proof can see one answer. -/

namespace Sys2Proof.Config

/-- The ten 1-Wire command bytes `BC_*`, named parameters of the model (R109). -/
structure BusCommands where
  skipRom     : Byte
  readRom     : Byte
  matchRom    : Byte
  searchRom   : Byte
  alarmSearch : Byte
  convertT    : Byte
  readSp      : Byte
  writeSp     : Byte
  copySp      : Byte
  readPower   : Byte
deriving DecidableEq, Repr

/-- The defaults of R109, the bytes the reference devices of R84 understand. -/
def defaultCommands : BusCommands where
  skipRom     := 0xCC#8
  readRom     := 0x33#8
  matchRom    := 0x55#8
  searchRom   := 0xF0#8
  alarmSearch := 0xEC#8
  convertT    := 0x44#8
  readSp      := 0xBE#8
  writeSp     := 0x4E#8
  copySp      := 0x48#8
  readPower   := 0xB4#8

/-- The timing parameters of R7 and R228, in microseconds. No rule of the machine reads one (R8);
they fix `pollMax` and the informative durations of R229 (Machine/Timing.lean). -/
structure Timing where
  tRstl   : Nat
  tPdWait : Nat
  tPdRel  : Nat
  tRstRec : Nat
  tSlot   : Nat
  tW1l    : Nat
  tW0l    : Nat
  tRl     : Nat
  tMsr    : Nat
  tPoll   : Nat
deriving DecidableEq, Repr

/-- The values of R7 and R228. -/
def timing : Timing where
  tRstl   := 500
  tPdWait := 300
  tPdRel  := 240
  tRstRec := 0
  tSlot   := 70
  tW1l    := 6
  tW0l    := 60
  tRl     := 6
  tMsr    := 15
  tPoll   := 1

/-- `CONV_TIMEOUT_MS` (R7). -/
def convTimeoutMs : Nat := 1000

/-- `COPY_TIMEOUT_MS` (R7). -/
def copyTimeoutMs : Nat := 1000

/-- `POLL_MAX = ceil(CONV_TIMEOUT_MS × 1000 / T_SLOT)` (R7, R169). -/
def defaultPollMax : Nat := (convTimeoutMs * 1000 + timing.tSlot - 1) / timing.tSlot

/-- The size of the host register window in bytes (R7, R60). -/
def windowBytes : Nat := 0x40

/-- The parameters the spec leaves OPEN or lets a model take as an argument: `BASE` (R7, R60), the
`BC_*` bytes (R109) and `POLL_MAX` (R8). They are held in State, and no step changes them, so a
statement about every state is about every choice of them. -/
structure Params where
  base    : Nat
  cmds    : BusCommands
  pollMax : Nat
deriving DecidableEq, Repr

/-- The parameters of the machine after reset: R109's defaults, R7's `POLL_MAX`, and `BASE` 0
(DESIGN CHOICE, unsafe: the spec leaves `BASE` OPEN; notes/assumptions/2.md). -/
def defaultParams : Params where
  base    := 0
  cmds    := defaultCommands
  pollMax := defaultPollMax

/-- FREE VALUE. The `n`-th answer the unconstrained bus environment draws (R75: "every answer is a
free draw"). -/
opaque freeAnswer : Nat → Bool

/-- FREE VALUE. The `n`-th level a host read of STATUS samples on the line (R23 `LINE`, R64). -/
opaque freeLine : Nat → Bool

/-- `CLK_HZ`, OPEN (R7, R208): it only counts the durations of R228 in clock cycles. -/
opaque clkHz : Nat

end Sys2Proof.Config
end

