-- ==== Sys2Proof/Machine/State.lean ====
section
/-! DEFINITION. Machine/State.lean: the architectural state of OWC (10_state.md R16), the bus history and the bus
environment (20_memory.md R75, R84), the host's pending accesses (00_scope.md R6), the reasons a step can stop,
and the state after reset (R50, R220). -/

namespace Sys2Proof.Machine

/-- `DRIVE`: OWC drives the line low or releases it, never high (R41). -/
inductive Drive where
  | float
  | low
deriving DecidableEq, Repr

/-- `SEQ`, the sequencer: idle, or running the accepted command word `w` (R40). -/
inductive Seq where
  | idle
  | busy (w : Word)
deriving DecidableEq, Repr

/-- The error codes of `STATUS.ERR` (R195); codes 6 and 7 are never produced. -/
inductive ErrorCode where
  | none | bus | protocol | checksum | timeout | illegal
deriving DecidableEq, Repr

/-- The stored fields of `STATUS` (R23). `BUSY` is the view of `SEQ` that R40 makes it, and `LINE` is not
stored. -/
structure Status where
  done     : Bool
  presence : Bool
  short    : Bool
  nomore   : Bool
  ovr      : Bool
  err      : ErrorCode
deriving DecidableEq, Repr

/-- One record of the bus history, with the environment's answer in it (R75). -/
inductive BusEvent where
  /-- A reset handshake, answered `(presence, released)`. -/
  | rst (presence released : Bool)
  /-- A write slot carrying a bit; it has no answer. -/
  | w (bit : Bool)
  /-- A read slot and the sampled bit. -/
  | r (answer : Bool)
  /-- A sample of the line with no slot. -/
  | s (answer : Bool)
deriving DecidableEq, Repr

/-- The phase of a search position in a reference device (R84): the bit, its complement, the choice. -/
inductive SearchPhase where
  | bit | complement | choice
deriving DecidableEq, Repr

/-- Where a reference device goes when it has sent its last bit (R84 `TX(bits) then …`). -/
inductive AfterTx where
  | fnCmd | idle
deriving DecidableEq, Repr

/-- The protocol state `d.st` of a reference device (R84). `got` holds the bits of the byte in flight, the
first one first. -/
inductive DeviceState where
  | romCmd (got : List Bool)
  | matching (n : Nat)
  | searching (i : Nat) (phase : SearchPhase)
  | fnCmd (got : List Bool)
  | tx (bits : List Bool) (after : AfterTx)
  | wsp (k : Nat) (got : List Bool)
  | busy (n : Nat)
  | idle
deriving DecidableEq, Repr

/-- A reference device (R84). -/
structure Device where
  rom   : RomCode
  sp    : Image
  ee    : BitVec 24
  power : Bool
  alarm : Bool
  busy  : Nat
  st    : DeviceState
deriving DecidableEq, Repr

/-- Who answers the bus events. -/
inductive BusAgent where
  /-- The normative environment: every answer is a free draw (R75). -/
  | unconstrained
  /-- The reference environment `RefEnv(D)` (R84), a premise a claim may take. -/
  | reference (devices : List Device)
  /-- Reference devices after a hardware reset of OWC: every answer is a free draw until the next RST (R77, R221).
  DESIGN CHOICE: their fields stay as they were at the reset (notes/assumptions/20.md). -/
  | unsettled (devices : List Device)
deriving DecidableEq, Repr

/-- A stream of free draws: the answers already fixed, the next one first, and how many have been drawn after
them. A statement about every `Draws` is about every sequence of answers (MODEL's own field). -/
structure Draws where
  known : List Bool
  taken : Nat
deriving DecidableEq, Repr

/-- The bus environment: its agent, the answers it draws on bus events, and the levels that host reads of
STATUS sample (R23 `LINE`, R64, R75). -/
structure Environment where
  agent   : BusAgent
  answers : Draws
  line    : Draws
deriving DecidableEq, Repr

/-- OWC's side of the line: `DRIVE` (R41), the environment at the other end, and the bus history, the oldest
event first (R75). -/
structure Bus where
  drive   : Drive
  env     : Environment
  history : List BusEvent
deriving DecidableEq, Repr

/-- The width of a host access (R62). -/
inductive AccessWidth where
  | byte | half | word
deriving DecidableEq, Repr

/-- What happens next: a host access, the sequencer's step, or the reset input. The host and the sequencer are
agents of their own (R6), and the order of their moves is plain data. -/
inductive Turn where
  /-- The host writes `value` at a byte address. -/
  | write (addr : Nat) (width : AccessWidth) (value : Word)
  /-- The host reads at a byte address. -/
  | read (addr : Nat) (width : AccessWidth)
  /-- The sequencer takes its step if an op is running (R200). -/
  | sequencer
  /-- The hardware reset input (R220); `made` bus events of a running op have been made when it arrives. -/
  | hardwareReset (made : Nat)
deriving DecidableEq, Repr

/-- What a host read returned. -/
structure Observation where
  addr  : Nat
  value : Word
deriving DecidableEq, Repr

/-- The machine. The fields `cmd` to `seq` are OWC's registers and sequencer (R16); `bus` holds `DRIVE` and the
other end of the line; `turns` and `observed` are the host's side of the window; `params` is the configuration,
which no step changes. -/
structure State where
  /-- The OPEN parameters (R7). -/
  params   : Config.Params
  /-- `CTRL.IE` (R20). -/
  ie       : Bool
  /-- `CMD` (R22). -/
  cmd      : Word
  /-- The stored fields of `STATUS` (R23). -/
  status   : Status
  /-- `DATA[7:0]` (R24). -/
  data     : Byte
  /-- `CRC[7:0]` (R25). -/
  crc      : Byte
  /-- `ROM = {ROM_HI, ROM_LO}` (R26). -/
  rom      : RomCode
  /-- `SP[0..8]`, packed by R27. -/
  sp       : Image
  /-- `SRCH_PATH = {SRCH_PATH_HI, SRCH_PATH_LO}` (R29). -/
  srchPath : BitVec 64
  /-- `SRCH_LEN` (R30). -/
  srchLen  : Word
  /-- `POLLS` (R31). -/
  polls    : Word
  /-- `SEQ` (R40). -/
  seq      : Seq
  /-- `DRIVE` (R41), the environment and the bus history (R75). -/
  bus      : Bus
  /-- What the host, the sequencer and the reset input do next, the first first. -/
  turns    : List Turn
  /-- What the host's reads returned, the oldest first. -/
  observed : List Observation
deriving DecidableEq, Repr

/-- The reasons the machine stops with a fault. The spec has none: OWC has no trap (R202), every loop is
bounded (R8), and an error of an op is a completion with `STATUS.ERR` set (R201), which is a next state. -/
inductive Fault
deriving DecidableEq, Repr

/-- The reasons the model gives no meaning. -/
inductive Refusal where
  /-- An instruction with no meaning yet, by its mnemonic; raised by exec's arms only. Safe: nothing is proved
  of it. -/
  | notModelled (mnemonic : String)
  /-- A host access of 8 or 16 bits to the window: "An access of another width (8 or 16 bits) is **refused**"
  (R62). Raised by host reads and writes. Safe: the spec gives it no meaning. -/
  | accessWidth
  /-- A host access to the window at an address that is not a multiple of 4, refused by R62. Raised by host reads
  and writes. Safe: the spec gives it no meaning. -/
  | misalignedAccess
deriving DecidableEq, Repr

/-- `START = -1` in `SRCH_LEN` (R30). -/
abbrev srchStart : Word := 0xFFFFFFFF#32

/-- `DONE = -2` in `SRCH_LEN` (R30). -/
abbrev srchDone : Word := 0xFFFFFFFE#32

/-- Every stored field of `STATUS` at its reset value (R23, R50). -/
def Status.reset : Status where
  done     := false
  presence := false
  short    := false
  nomore   := false
  ovr      := false
  err      := .none

/-- The environment the machine starts in: unconstrained, nothing drawn yet (R50, R221; DESIGN CHOICE for the
two counters, notes/assumptions/1.md). -/
def Environment.reset : Environment where
  agent   := .unconstrained
  answers := { known := [], taken := 0 }
  line    := { known := [], taken := 0 }

/-- The machine right after a hardware reset, nothing pending (R50, R220). -/
def State.reset : State where
  params   := Config.defaultParams
  ie       := false
  cmd      := 0#32
  status   := Status.reset
  data     := 0#8
  crc      := 0#8
  rom      := 0#64
  sp       := 0#72
  srchPath := 0#64
  srchLen  := srchStart
  polls    := 0#32
  seq      := .idle
  bus      := { drive := .float, env := Environment.reset, history := [] }
  turns    := []
  observed := []

end Sys2Proof.Machine
end

