-- ==== Sys2Proof/Machine/Bits.lean ====
section
/-! DEFINITION. Machine/Bits.lean: bits and bytes in the orders of 20_memory.md R63 and R71, the least-significant
bit and the lowest-numbered byte first. -/

namespace Sys2Proof.Machine

/-- The bits of a value, bit 0 first (R71). -/
def bitsOf {n : Nat} (x : BitVec n) : List Bool := (List.range n).map x.getLsbD

/-- The number whose bits are listed, bit 0 first (R71). -/
def natOfBits : List Bool → Nat
  | [] => 0
  | b :: bs => b.toNat + 2 * natOfBits bs

/-- The byte whose bits are listed, bit 0 first (R71). -/
def byteOfBits (bs : List Bool) : Byte := BitVec.ofNat 8 (natOfBits bs)

/-- Byte `k` of a flat frame, bits `8k+7 : 8k` (R63, R72). -/
def byteAt {n : Nat} (x : BitVec n) (k : Nat) : Byte := x.extractLsb' (8 * k) 8

/-- The first `count` bytes of a flat frame, byte 0 first (R71). -/
def bytesOf {n : Nat} (x : BitVec n) (count : Nat) : List Byte := (List.range count).map (byteAt x)

/-- The number a list of bytes packs to, byte 0 in the low bits (R63). -/
def natOfBytes : List Byte → Nat
  | [] => 0
  | v :: vs => v.toNat + 256 * natOfBytes vs

/-- A flat frame with byte `k` replaced (R63). -/
def setByte {n : Nat} (x : BitVec n) (k : Nat) (v : Byte) : BitVec n :=
  (x &&& ~~~((0xFF#8).setWidth n <<< (8 * k))) ||| (v.setWidth n <<< (8 * k))

/-- A value with bit `i` set to `d`, the bit having been 0 (R188 `x[i] <- d`). -/
def setBit (x : BitVec 64) (i : Nat) (d : Bool) : BitVec 64 :=
  x ||| ((BitVec.ofBool d).setWidth 64 <<< i)

end Sys2Proof.Machine
end

