-- ==== Sys2Proof/Machine/Crc.lean ====
section
/-! DEFINITION. Machine/Crc.lean: the Checksum8 function of 41_checksum.md (R131, R132). -/

namespace Sys2Proof.Machine

/-- One of the eight shifts of `Crc8Update`: "if low bit set, shift right and XOR with 0x8C, else shift right"
(R131). -/
def crc8Shift (c : Byte) : Byte := if c.getLsbD 0 then (c >>> 1) ^^^ 0x8C#8 else c >>> 1

/-- `crc8Shift`, a number of times (R131 `repeat`). -/
def crc8Shifts : Nat → Byte → Byte
  | 0, c => c
  | n + 1, c => crc8Shifts n (crc8Shift c)

/-- `Crc8Update(c, b)` (R131). -/
def crc8Update (c b : Byte) : Byte := crc8Shifts 8 (c ^^^ b)

/-- `Crc8(list)`: the left fold from 0x00 (R132). -/
def crc8 (bytes : List Byte) : Byte := bytes.foldl crc8Update 0x00#8

end Sys2Proof.Machine
end

