-- ==== Sys2Proof/Machine/Operands.lean ====
section
/-! DEFINITION. Machine/Operands.lean: the two frame formats and their validity predicates (42_frames.md), how
frames pack into registers (10_state.md R26, R27), the temperature decode (R150), the legal values of SRCH_LEN
(R30), and the sample count of a timeout operand (R8, R102). -/

namespace Sys2Proof.Machine

/-! ## DeviceAddress -/

/-- The record of a DeviceAddress (R141). -/
structure DeviceAddress where
  familyCode : Byte
  serial     : Vector Byte 6
  checksum   : Byte
deriving DecidableEq, Repr

/-- `DecodeRom` (R141). -/
def decodeRom (x : RomCode) : DeviceAddress where
  familyCode := byteAt x 0
  serial     := #v[byteAt x 1, byteAt x 2, byteAt x 3, byteAt x 4, byteAt x 5, byteAt x 6]
  checksum   := byteAt x 7

/-- `EncodeRom`, its inverse (R141). -/
def encodeRom (a : DeviceAddress) : RomCode :=
  a.checksum ++ a.serial[5] ++ a.serial[4] ++ a.serial[3] ++ a.serial[2] ++ a.serial[1] ++ a.serial[0] ++ a.familyCode

/-- `RomBytes(x)`, byte 0 first (R141). -/
def romBytes (x : RomCode) : List Byte := bytesOf x 8

/-- The address whose eight bytes were read, byte 0 first (R72, R162). -/
def romOfBytes (bytes : List Byte) : RomCode := BitVec.ofNat 64 (natOfBytes bytes)

/-- `RomValid`: not all-zero, and the checksum byte is the `Crc8` of the seven before it (R145). -/
def romValid (x : RomCode) : Bool := x != 0#64 && crc8 ((romBytes x).take 7) == byteAt x 7

/-! ## MemoryImage -/

/-- The record of a MemoryImage (R143). -/
structure MemoryImage where
  temperatureRaw0 : Byte
  temperatureRaw1 : Byte
  alarmHigh       : Byte
  alarmLow        : Byte
  configuration   : Byte
  reserved5       : Byte
  reserved6       : Byte
  reserved7       : Byte
  checksum        : Byte
deriving DecidableEq, Repr

/-- `DecodeSp` (R143). -/
def decodeSp (s : Image) : MemoryImage where
  temperatureRaw0 := byteAt s 0
  temperatureRaw1 := byteAt s 1
  alarmHigh       := byteAt s 2
  alarmLow        := byteAt s 3
  configuration   := byteAt s 4
  reserved5       := byteAt s 5
  reserved6       := byteAt s 6
  reserved7       := byteAt s 7
  checksum        := byteAt s 8

/-- `EncodeSp`, its inverse (R143). -/
def encodeSp (m : MemoryImage) : Image :=
  m.checksum ++ m.reserved7 ++ m.reserved6 ++ m.reserved5 ++ m.configuration ++ m.alarmLow ++ m.alarmHigh ++
    m.temperatureRaw1 ++ m.temperatureRaw0

/-- `alarmHigh` and `alarmLow` as whole degrees, −128..127 (R148). OWC never compares them. -/
def alarmDegrees (limit : Byte) : Int := limit.toInt

/-- The image's nine bytes, byte 0 first (R73). -/
def spBytes (s : Image) : List Byte := bytesOf s 9

/-- The image whose nine bytes were read, byte 0 first (R73, R172). -/
def spOfBytes (bytes : List Byte) : Image := BitVec.ofNat 72 (natOfBytes bytes)

/-- `SpValid`: byte 8 is the `Crc8` of the eight before it (R146). -/
def spValid (s : Image) : Bool := crc8 ((spBytes s).take 8) == byteAt s 8

/-! ## The 32-bit registers that hold a frame (R26, R27, R29) -/

/-- The `_LO` register of a 64-bit value (R63). -/
def lowWord (x : BitVec 64) : Word := x.extractLsb' 0 32

/-- The `_HI` register of a 64-bit value (R63). -/
def highWord (x : BitVec 64) : Word := x.extractLsb' 32 32

/-- A 64-bit value whose `_LO` register is written. -/
def withLowWord (x : BitVec 64) (v : Word) : BitVec 64 := highWord x ++ v

/-- A 64-bit value whose `_HI` register is written. -/
def withHighWord (x : BitVec 64) (v : Word) : BitVec 64 := v ++ lowWord x

/-- `SP_W0 = {SP[3], SP[2], SP[1], SP[0]}` (R27). -/
def spWord0 (s : Image) : Word := byteAt s 3 ++ byteAt s 2 ++ byteAt s 1 ++ byteAt s 0

/-- `SP_W1 = {SP[7], SP[6], SP[5], SP[4]}` (R27). -/
def spWord1 (s : Image) : Word := byteAt s 7 ++ byteAt s 6 ++ byteAt s 5 ++ byteAt s 4

/-- `SP_W2[7:0] = SP[8]`, bits 31:8 read 0 (R27). -/
def spWord2 (s : Image) : Word := (byteAt s 8).setWidth 32

/-- The image after a host write of `SP_W0` (R27). -/
def withSpWord0 (s : Image) (v : Word) : Image := s.extractLsb' 32 40 ++ v

/-- The image after a host write of `SP_W1` (R27). -/
def withSpWord1 (s : Image) (v : Word) : Image := s.extractLsb' 64 8 ++ v ++ s.extractLsb' 0 32

/-- The image after a host write of `SP_W2`: bits 31:8 of the value are ignored (R27). -/
def withSpWord2 (s : Image) (v : Word) : Image := v.extractLsb' 0 8 ++ s.extractLsb' 0 64

/-! ## The TEMP view (R28, R150) -/

/-- `RES = SP[4][6:5]`, the resolution code (R147). -/
def tempRes (s : Image) : BitVec 2 := (byteAt s 4).extractLsb' 5 2

/-- The raw temperature, `sext_32({s[1], s[0]})` (R150). -/
def tempRaw (s : Image) : Word := (byteAt s 1 ++ byteAt s 0).signExtend 32

/-- `T16 = ((v >>s sh) << sh)[15:0]` with `sh = 3 − r` (R150). -/
def tempT16 (s : Image) : BitVec 16 :=
  ((tempRaw s).sshiftRight (3 - (tempRes s).toNat) <<< (3 - (tempRes s).toNat)).extractLsb' 0 16

/-- `TEMP <- zext_32({r[1:0], T16})` (R150). -/
def tempWord (s : Image) : Word := (tempRes s ++ tempT16 s).setWidth 32

/-! ## Integer operands and registers -/

/-- The legal values of `SRCH_LEN`: START, DONE and 0..63 (R30). -/
def srchLenLegal (w : Word) : Bool := w == srchStart || w == srchDone || w.toNat < 64

/-- `WAIT_SAMPLES(T) = T + 1`, with `T` unsigned (R8, R102, R124). -/
def waitSamples (timeout : BitVec 16) : Nat := timeout.toNat + 1

end Sys2Proof.Machine
end

