-- ==== Sys2Proof/Machine/Flags.lean ====
section
/-! DEFINITION. Machine/Flags.lean: the STATUS fields (10_state.md R23), who writes them (60_exceptions.md R199 to
R201), and the interrupt output (R44, R204). -/

namespace Sys2Proof.Machine

/-- The value of an error code in `STATUS.ERR` (R195). -/
def ErrorCode.code : ErrorCode → BitVec 3
  | .none     => 0#3
  | .bus      => 1#3
  | .protocol => 2#3
  | .checksum => 3#3
  | .timeout  => 4#3
  | .illegal  => 5#3

/-- The STATUS word a host read returns: BUSY 0, DONE 1, PRESENCE 2, SHORT 3, NOMORE 4, OVR 5, LINE 6, ERR 10:8, the
reserved bits 0 (R23). -/
def statusWord (busy line : Bool) (st : Status) : Word :=
  0#21 ++ st.err.code ++ 0#1 ++ BitVec.ofBool line ++ BitVec.ofBool st.ovr ++ BitVec.ofBool st.nomore ++
    BitVec.ofBool st.short ++ BitVec.ofBool st.presence ++ BitVec.ofBool st.done ++ BitVec.ofBool busy

/-- The issue of a legal op: ERR, NOMORE and DONE are cleared (R199). -/
def Status.accepted (st : Status) : Status := { st with done := false, nomore := false, err := .none }

/-- The issue of an illegal word, which completes at once (R105, R199). -/
def Status.rejected (st : Status) : Status := { st with done := true, nomore := false, err := .illegal }

/-- The completion of an op sets DONE (R200). -/
def Status.completed (st : Status) : Status := { st with done := true }

/-- An error ends the op: ERR gets the code and DONE is set (R201). -/
def Status.raised (code : ErrorCode) (st : Status) : Status := { st with done := true, err := code }

/-- A host write was ignored because BUSY was 1 (R66, R67). -/
def Status.overrun (st : Status) : Status := { st with ovr := true }

/-- A host write to STATUS: writing 1 clears DONE (bit 1) and OVR (bit 5), all else ignores it (R23). -/
def Status.acknowledge (v : Word) (st : Status) : Status :=
  { st with done := st.done && !v.getLsbD 1, ovr := st.ovr && !v.getLsbD 5 }

/-- The result of a reset handshake: `PRESENCE <- p`, `SHORT <- p & ~rel` (R112). -/
def Status.handshake (presence released : Bool) (st : Status) : Status :=
  { st with presence := presence, short := presence && !released }

/-- `STATUS.BUSY = 1` exactly when `SEQ = BUSY(_)` (R40). -/
def Seq.isBusy : Seq → Bool
  | .idle => false
  | .busy _ => true

/-- `STATUS.BUSY` (R40). -/
def State.busy (s : State) : Bool := s.seq.isBusy

/-- `IRQ = CTRL.IE & STATUS.DONE`, a level output with no state of its own (R44). -/
def State.irq (s : State) : Bool := s.ie && s.status.done

end Sys2Proof.Machine
end

