-- ==== Sys2Proof/Machine/Environment.lean ====
section
/-! DEFINITION. Machine/Environment.lean: how the bus environment answers an event. The unconstrained agent draws
every answer (20_memory.md R75); the reference agent is the table of R84. -/

namespace Sys2Proof.Machine

/-! ## Free draws -/

/-- The next draw: the next fixed answer, or the next value of an opaque stream (R75). -/
def Draws.next (free : Nat → Bool) (d : Draws) : Bool × Draws :=
  match d.known with
  | b :: rest => (b, { known := rest, taken := d.taken })
  | [] => (free d.taken, { known := [], taken := d.taken + 1 })

/-- The environment draws one answer of a bus event. -/
def Environment.draw (e : Environment) : Bool × Environment :=
  ((e.answers.next Config.freeAnswer).1, { e with answers := (e.answers.next Config.freeAnswer).2 })

/-! ## One reference device (R84) -/

/-- The device's output bit on a read slot: 1 unless its state says otherwise. -/
def Device.output (d : Device) : Bool :=
  match d.st with
  | .searching i .bit => d.rom.getLsbD i
  | .searching i .complement => !d.rom.getLsbD i
  | .tx (b :: _) _ => b
  | .busy (_ + 1) => false
  | _ => true

/-- The "then" state of a transmission. -/
def AfterTx.state : AfterTx → DeviceState
  | .fnCmd => .fnCmd []
  | .idle => .idle

/-- A transmission with its first bit sent: "when the list is empty, go to the 'then' state" (DEDUCED: as soon as
the last bit is out; notes/assumptions/8.md). -/
def txAfter (rest : List Bool) (after : AfterTx) : DeviceState :=
  if rest.isEmpty then after.state else .tx rest after

/-- The device after a read slot. -/
def Device.afterRead (d : Device) : Device :=
  match d.st with
  | .searching i .bit => { d with st := .searching i .complement }
  | .searching i .complement => { d with st := .searching i .choice }
  | .tx bits after => { d with st := txAfter bits.tail after }
  | .busy (n + 1) => { d with st := .busy n }
  | .busy 0 => { d with st := .idle }
  | .romCmd _ | .matching _ | .searching _ .choice | .fnCmd _ | .wsp _ _ | .idle => d

/-- What a device does with a complete ROM command byte. -/
def Device.romCommand (c : Byte) (d : Device) : DeviceState :=
  if c = Config.defaultCommands.skipRom then .fnCmd []
  else if c = Config.defaultCommands.readRom then .tx (bitsOf d.rom) .fnCmd
  else if c = Config.defaultCommands.matchRom then .matching 0
  else if c = Config.defaultCommands.searchRom then .searching 0 .bit
  else if c = Config.defaultCommands.alarmSearch then if d.alarm then .searching 0 .bit else .idle
  else .idle

/-- What a device does with a complete function command byte, by the table of R84. DESIGN CHOICE: a parasite-powered
device (power 0) answers the busy poll and stores its non-volatile copy as that table says, where R170 says that it
cannot hold the line low and R179 leaves what it does open (notes/assumptions/23.md). -/
def Device.functionCommand (c : Byte) (d : Device) : Device :=
  if c = Config.defaultCommands.convertT then { d with st := .busy d.busy }
  else if c = Config.defaultCommands.readSp then { d with st := .tx (bitsOf d.sp) .idle }
  else if c = Config.defaultCommands.writeSp then { d with st := .wsp 0 [] }
  else if c = Config.defaultCommands.copySp then { d with ee := d.sp.extractLsb' 16 24, st := .busy d.busy }
  else if c = Config.defaultCommands.readPower then { d with st := .tx [d.power] .idle }
  else { d with st := .idle }

/-- A device stores byte `k` of a WRITE_SP and recomputes its checksum byte. -/
def Device.storeByte (k : Nat) (v : Byte) (d : Device) : Device :=
  { d with sp := setByte (setByte d.sp (2 + k) v) 8 (crc8 ((spBytes (setByte d.sp (2 + k) v)).take 8)) }

/-- The device after a write slot carrying `b`, by the table of R84. DESIGN CHOICE: in a transmission a slot that
carries 1 is ignored, as R84's row TX says, and does not take a bit, as R116's remark on WRITE_BIT 1 would have it
(notes/assumptions/21.md). -/
def Device.afterWrite (b : Bool) (d : Device) : Device :=
  match d.st with
  | .romCmd got =>
    if got.length + 1 < 8 then { d with st := .romCmd (got ++ [b]) }
    else { d with st := d.romCommand (byteOfBits (got ++ [b])) }
  | .matching n =>
    if b != d.rom.getLsbD n then { d with st := .idle }
    else if n + 1 = 64 then { d with st := .fnCmd [] }
    else { d with st := .matching (n + 1) }
  | .searching i .choice =>
    if b != d.rom.getLsbD i then { d with st := .idle }
    else if i + 1 = 64 then { d with st := .fnCmd [] }
    else { d with st := .searching (i + 1) .bit }
  | .fnCmd got =>
    if got.length + 1 < 8 then { d with st := .fnCmd (got ++ [b]) }
    else d.functionCommand (byteOfBits (got ++ [b]))
  | .wsp k got =>
    if got.length + 1 < 8 then { d with st := .wsp k (got ++ [b]) }
    else if k = 2 then { d.storeByte k (byteOfBits (got ++ [b])) with st := .idle }
    else { d.storeByte k (byteOfBits (got ++ [b])) with st := .wsp (k + 1) [] }
  | .searching _ .bit | .searching _ .complement | .tx _ _ | .busy _ | .idle => d

/-- RST: "every device goes to `d.st = ROMCMD`". -/
def Device.afterReset (d : Device) : Device := { d with st := .romCmd [] }

/-! ## The environment's answers -/

/-- RST: the answer `(presence, released)` (R76, R84). A RST also brings unsettled devices back to their table (R77).
DESIGN CHOICE: they then hold the image, non-volatile copy, busy count, alarm and power they held at the hardware reset,
where R50, R77 and R221 leave the devices' state unconstrained (notes/assumptions/20.md). -/
def Environment.onReset (e : Environment) : (Bool × Bool) × Environment :=
  match e.agent with
  | .unconstrained => ((e.draw.1, e.draw.2.draw.1), e.draw.2.draw.2)
  | .reference ds | .unsettled ds => ((!ds.isEmpty, true), { e with agent := .reference (ds.map Device.afterReset) })

/-- W: no answer (R75). DESIGN CHOICE: unsettled devices are deaf to it, where R77 and R221 leave their state
unconstrained (notes/assumptions/20.md). -/
def Environment.onWrite (b : Bool) (e : Environment) : Environment :=
  match e.agent with
  | .unconstrained | .unsettled _ => e
  | .reference ds => { e with agent := .reference (ds.map (Device.afterWrite b)) }

/-- R: the level of the line at the sample point, the AND of the devices' outputs (R76, R84). -/
def Environment.onRead (e : Environment) : Bool × Environment :=
  match e.agent with
  | .unconstrained | .unsettled _ => e.draw
  | .reference ds => (ds.all Device.output, { e with agent := .reference (ds.map Device.afterRead) })

/-- S: the level of the line at one poll instant; 1 under the reference environment (R76, R84). -/
def Environment.onSample (e : Environment) : Bool × Environment :=
  match e.agent with
  | .unconstrained | .unsettled _ => e.draw
  | .reference _ => (true, e)

/-- The level a host read of STATUS samples: a fresh draw, or 1 under the reference environment with OWC idle (R64).
It changes no device and is no bus event (R23). -/
def Environment.onLine (busy : Bool) (e : Environment) : Bool × Environment :=
  match e.agent, busy with
  | .reference _, false => (true, e)
  | _, _ => ((e.line.next Config.freeLine).1, { e with line := (e.line.next Config.freeLine).2 })

/-- A hardware reset of OWC: from here to the next RST the devices' state is unconstrained (R50, R77, R221). DESIGN
CHOICE: the model frees their answers and keeps their fields as at the reset (notes/assumptions/20.md). -/
def Environment.unsettle (e : Environment) : Environment :=
  match e.agent with
  | .unconstrained | .unsettled _ => e
  | .reference ds => { e with agent := .unsettled ds }

end Sys2Proof.Machine
end

