-- ==== Sys2Proof/Machine/Ops.lean ====
section
/-! DEFINITION. Machine/Ops.lean: the shared operations. The bus primitives of 00_scope.md R11, the completion and
the error of an op (60_exceptions.md R200, R201: what stands in the place of taking an exception, R202), the issue
of a command word (R199), the reads and writes of the register window (20_memory.md section 2), and the hardware
reset (R220). -/

namespace Sys2Proof.Machine

/-! ## The line driver (R41, R70) -/

/-- `DRIVE <- LOW`. -/
def Bus.pull (b : Bus) : Bus := { b with drive := .low }

/-- `DRIVE <- FLOAT`. -/
def Bus.release (b : Bus) : Bus := { b with drive := .float }

/-- The wired-AND of R70: 0 if OWC drives the line low, else what the devices leave. -/
def Bus.lineLevel (b : Bus) (devices : Bool) : Bool :=
  match b.drive with
  | .low => false
  | .float => devices

/-! ## The bus primitives (R11), each one event of the bus history -/

/-- `BusReset()`: low, then released for the whole presence window (R112, R113). -/
def Bus.reset (b : Bus) : (Bool × Bool) × Bus :=
  let up := b.pull.release
  (up.env.onReset.1,
   { up with env := up.env.onReset.2, history := up.history ++ [.rst up.env.onReset.1.1 up.env.onReset.1.2] })

/-- `BusWriteSlot(v)`: OWC does not sample (R76, R117). -/
def Bus.writeSlot (v : Bool) (b : Bus) : Bus :=
  let up := b.pull.release
  { up with env := up.env.onWrite v, history := up.history ++ [.w v] }

/-- `BusReadSlot()`: the level at the sample point, OWC having released the line (R76, R119). -/
def Bus.readSlot (b : Bus) : Bool × Bus :=
  let up := b.pull.release
  let level := up.lineLevel up.env.onRead.1
  (level, { up with env := up.env.onRead.2, history := up.history ++ [.r level] })

/-- `BusSample()`: one sample, the line not driven (R11). -/
def Bus.sample (b : Bus) : Bool × Bus :=
  let up := b.release
  let level := up.lineLevel up.env.onSample.1
  (level, { up with env := up.env.onSample.2, history := up.history ++ [.s level] })

/-- Write slots for a list of bits, the first one first. -/
def Bus.writeBits (bits : List Bool) (b : Bus) : Bus := bits.foldl (fun b v => b.writeSlot v) b

/-- `BusWriteByte(v)`, bit 0 first (R11). -/
def Bus.writeByte (v : Byte) (b : Bus) : Bus := b.writeBits (bitsOf v)

/-- Bytes in increasing index (R71). -/
def Bus.writeBytes (bytes : List Byte) (b : Bus) : Bus := bytes.foldl (fun b v => b.writeByte v) b

/-- A number of read slots; the first answer is the first of the list. -/
def Bus.readBits : Nat → Bus → List Bool × Bus
  | 0, b => ([], b)
  | n + 1, b => (b.readSlot.1 :: (b.readSlot.2.readBits n).1, (b.readSlot.2.readBits n).2)

/-- `BusReadByte()`, bit 0 first (R11). -/
def Bus.readByte (b : Bus) : Byte × Bus := (byteOfBits (b.readBits 8).1, (b.readBits 8).2)

/-- A number of bytes, byte 0 first (R71). -/
def Bus.readBytes : Nat → Bus → List Byte × Bus
  | 0, b => ([], b)
  | n + 1, b => (b.readByte.1 :: (b.readByte.2.readBytes n).1, (b.readByte.2.readBytes n).2)

/-! ## Completion and error (R200, R201) -/

/-- The op's pseudocode reached `return`: DRIVE floats, BUSY goes to 0, DONE to 1, SEQ to IDLE (R200). The op's staged
writes are in the state already. -/
def State.complete (s : State) : State :=
  { s with bus := s.bus.release, status := s.status.completed, seq := .idle }

/-- The op's pseudocode reached `raise Err(code)`: the writes kept on error are in the state already, the others are
not (R201). -/
def State.raiseError (code : ErrorCode) (s : State) : State :=
  { s with bus := s.bus.release, status := s.status.raised code, seq := .idle }

/-! ## Issue (R199) -/

/-- A host write of `w` to CMD while SEQ is IDLE. -/
def State.issue (w : Word) (s : State) : State :=
  match decode w with
  | none => { s with cmd := w, status := s.status.rejected }
  | some _ => { s with cmd := w, status := s.status.accepted, seq := .busy w }

/-! ## The register window (20_memory.md) -/

/-- `STATUS.OVR <- 1` (R66, R67). -/
def State.overrun (s : State) : State := { s with status := s.status.overrun }

/-- A write that is taken only while `STATUS.BUSY = 0`: `t` is the state it makes; while BUSY it is ignored and sets
OVR (R66, R67). -/
def State.whenIdle (s t : State) : State := if s.busy then s.overrun else t

/-- A host write of `v` to a register (R65 and the rules of Table 1). -/
def State.writeReg (r : Reg) (v : Word) (s : State) : State :=
  match r with
  | .ctrl => { s with ie := v.getLsbD 0 }
  | .cmd => s.whenIdle (s.issue v)
  | .status => { s with status := s.status.acknowledge v }
  | .data => s
  | .crc => s.whenIdle { s with crc := v.extractLsb' 0 8 }
  | .romLo => s.whenIdle { s with rom := withLowWord s.rom v }
  | .romHi => s.whenIdle { s with rom := withHighWord s.rom v }
  | .spW0 => s.whenIdle { s with sp := withSpWord0 s.sp v }
  | .spW1 => s.whenIdle { s with sp := withSpWord1 s.sp v }
  | .spW2 => s.whenIdle { s with sp := withSpWord2 s.sp v }
  | .temp => s
  | .srchPathLo => s.whenIdle { s with srchPath := withLowWord s.srchPath v }
  | .srchPathHi => s.whenIdle { s with srchPath := withHighWord s.srchPath v }
  | .srchLen => if srchLenLegal v then s.whenIdle { s with srchLen := v } else s
  | .polls => s
  | .reserved => s

/-- What a register reads as, when a sample of the line reads `line` (Table 1). -/
def State.regView (line : Bool) (s : State) (r : Reg) : Word :=
  match r with
  | .ctrl => (BitVec.ofBool s.ie).setWidth 32
  | .cmd => s.cmd
  | .status => statusWord s.busy line s.status
  | .data => s.data.setWidth 32
  | .crc => s.crc.setWidth 32
  | .romLo => lowWord s.rom
  | .romHi => highWord s.rom
  | .spW0 => spWord0 s.sp
  | .spW1 => spWord1 s.sp
  | .spW2 => spWord2 s.sp
  | .temp => tempWord s.sp
  | .srchPathLo => lowWord s.srchPath
  | .srchPathHi => highWord s.srchPath
  | .srchLen => s.srchLen
  | .polls => s.polls
  | .reserved => 0#32

/-- A host read of a register: no side effect but the fresh sample a read of STATUS draws (R23, R64). -/
def State.readReg (r : Reg) (s : State) : Word × State :=
  match r with
  | .status =>
    (s.regView (s.bus.lineLevel (s.bus.env.onLine s.busy).1) .status,
     { s with bus := { s.bus with env := (s.bus.env.onLine s.busy).2 } })
  | r => (s.regView false r, s)

/-- The size of an access in bytes (R62). -/
def AccessWidth.bytes : AccessWidth → Nat
  | .byte => 1
  | .half => 2
  | .word => 4

/-- The register at a byte offset, if one starts there (Table 1). -/
def regAtOffset (off : Nat) : Option Reg := if off % 4 = 0 then Reg.all[off / 4]? else none

/-- The offset of a register (Table 1). -/
def regOffset (r : Reg) : Nat := 4 * Reg.all.idxOf r

/-- An access of `width` at `addr` reaches the window at `base` (R60). -/
def touchesWindow (base addr : Nat) (width : AccessWidth) : Bool :=
  base < addr + width.bytes && addr < base + Config.windowBytes

/-- A host access to the window: a 32-bit access at an aligned address acts on a register; any other is refused (R62);
one outside the window is not an OWC access (R60). -/
def hostAccess (addr : Nat) (width : AccessWidth) (act : Reg → State) (s : State) :
    Host.Outcome State Fault Refusal :=
  if touchesWindow s.params.base addr width then
    if width = .word then
      if addr % 4 = 0 ∧ s.params.base ≤ addr then
        match regAtOffset (addr - s.params.base) with
        | some r => .next (act r)
        | none => .refused .misalignedAccess
      else .refused .misalignedAccess
    else .refused .accessWidth
  else .next s

/-- A host write (R65). -/
def hostWrite (addr : Nat) (width : AccessWidth) (v : Word) (s : State) : Host.Outcome State Fault Refusal :=
  hostAccess addr width (fun r => s.writeReg r v) s

/-- A host read (R64): the value goes to the host. -/
def hostRead (addr : Nat) (width : AccessWidth) (s : State) : Host.Outcome State Fault Refusal :=
  hostAccess addr width
    (fun r => { (s.readReg r).2 with observed := s.observed ++ [{ addr := addr, value := (s.readReg r).1 }] }) s

/-! ## Hardware reset (R220) -/

/-- The same kind of event again, on the bus as it stands. -/
def Bus.redo (b : Bus) : BusEvent → Bus
  | .rst _ _ => b.reset.2
  | .w v => b.writeSlot v
  | .r _ => b.readSlot.2
  | .s _ => b.sample.2

/-- The bus when the reset input cuts short an op that would have made `events`, after `made` of them (R77, R221). -/
def Bus.abandon (events : List BusEvent) (made : Nat) (b : Bus) : Bus :=
  { (events.take made).foldl Bus.redo b with env := ((events.take made).foldl Bus.redo b).env.unsettle }

/-- Every register and STATUS field at its reset value, SEQ idle, the line released (R220). The configuration, the
environment with the history, and the host stay. -/
def State.hardwareReset (s : State) : State :=
  { State.reset with params := s.params, bus := s.bus.release, turns := s.turns, observed := s.observed }

end Sys2Proof.Machine
end

