-- ==== Sys2Proof/Machine/Addressing.lean ====
section
/-! DEFINITION. Machine/Addressing.lean: the addressing commands of 43_rom_commands.md. -/

namespace Sys2Proof.Machine

/-- SELECT_ALL (R160). -/
def execSelectAll (s : State) : Host.Outcome State Fault Refusal :=
  .next { s with bus := s.bus.writeByte s.params.cmds.skipRom }.complete

/-- READ_ROM (R162): the command byte and eight bytes read; `ROM` is written only if they are valid. -/
def execReadRom (s : State) : Host.Outcome State Fault Refusal :=
  .next <|
    let r := (s.bus.writeByte s.params.cmds.readRom).readBytes 8
    if romValid (romOfBytes r.1) then { s with bus := r.2, rom := romOfBytes r.1 }.complete
    else { s with bus := r.2 }.raiseError .checksum

/-- SELECT_ONE (R164): the command byte and the eight bytes of `ROM`, valid or not (R165). -/
def execSelectOne (s : State) : Host.Outcome State Fault Refusal :=
  .next { s with bus := (s.bus.writeByte s.params.cmds.matchRom).writeBytes (romBytes s.rom) }.complete

end Sys2Proof.Machine
end

