-- ==== Sys2Proof/Machine/Checksum.lean ====
section
/-! DEFINITION. Machine/Checksum.lean: the operations on the host-visible accumulator `CRC` (41_checksum.md). -/

namespace Sys2Proof.Machine

/-- CRC_CLEAR (R134). -/
def execCrcClear (s : State) : Host.Outcome State Fault Refusal :=
  .next { s with crc := 0x00#8 }.complete

/-- CRC_BYTE (R135): `CRC <- Crc8Update(CRC, byte)`. -/
def execCrcByte (v : Byte) (s : State) : Host.Outcome State Fault Refusal :=
  .next { s with crc := crc8Update s.crc v }.complete

end Sys2Proof.Machine
end

