-- ==== Sys2Proof/Machine/Transport.lean ====
section
/-! DEFINITION. Machine/Transport.lean: the transport operations of 40_transport.md. -/

namespace Sys2Proof.Machine

/-- RESET (R112): one handshake, `PRESENCE <- p`, `SHORT <- p & ~rel`; BUS when `p = 0`, both bits kept. -/
def execReset (s : State) : Host.Outcome State Fault Refusal :=
  .next <|
    let r := s.bus.reset
    let t := { s with bus := r.2, status := s.status.handshake r.1.1 r.1.2 }
    if r.1.1 then t.complete else t.raiseError .bus

/-- WRITE_BIT (R116). -/
def execWriteBit (b : Bool) (s : State) : Host.Outcome State Fault Refusal :=
  .next { s with bus := s.bus.writeSlot b }.complete

/-- READ_BIT (R118): `DATA <- zext_32(v)`. -/
def execReadBit (s : State) : Host.Outcome State Fault Refusal :=
  .next { s with bus := s.bus.readSlot.2, data := (BitVec.ofBool s.bus.readSlot.1).setWidth 8 }.complete

/-- WRITE_BYTE (R120). -/
def execWriteByte (v : Byte) (s : State) : Host.Outcome State Fault Refusal :=
  .next { s with bus := s.bus.writeByte v }.complete

/-- READ_BYTE (R122): `DATA <- zext_32(v)`. -/
def execReadByte (s : State) : Host.Outcome State Fault Refusal :=
  .next { s with bus := s.bus.readByte.2, data := s.bus.readByte.1 }.complete

/-- The samples of WAIT_LEVEL (R124): at most the given number, up to the first that equals `level`. -/
def Bus.waitLevel (level : Bool) : Nat → Bus → Bool × Bus
  | 0, b => (false, b)
  | n + 1, b => if b.sample.1 = level then (true, b.sample.2) else b.sample.2.waitLevel level n

/-- WAIT_LEVEL (R124): `DATA` is 1 if the level was seen, 0 on a timeout, which is no error. -/
def execWaitLevel (level : Bool) (timeout : BitVec 16) (s : State) : Host.Outcome State Fault Refusal :=
  .next <|
    let r := s.bus.waitLevel level (waitSamples timeout)
    { s with bus := r.2, data := (BitVec.ofBool r.1).setWidth 8 }.complete

/-- The pair classes of R128. -/
inductive PairClass where
  | agree0 | agree1 | collision | noDevice
deriving DecidableEq, Repr

/-- The class of a (b0, b1) read (R128). -/
def pairClass (b0 b1 : Bool) : PairClass :=
  match b0, b1 with
  | false, true => .agree0
  | true, false => .agree1
  | false, false => .collision
  | true, true => .noDevice

/-- The bit chosen at a position, `dir` being the caller's choice at a collision (R128). -/
def PairClass.choose (dir : Bool) : PairClass → Bool
  | .agree0 => false
  | .agree1 => true
  | .collision => dir
  | .noDevice => dir

/-- TRIPLET (R126): the pair, then the direction written; PROTOCOL on (1,1), with `DATA = 3` kept. -/
def execTriplet (dir : Bool) (s : State) : Host.Outcome State Fault Refusal :=
  .next <|
    let r0 := s.bus.readSlot
    let r1 := r0.2.readSlot
    let c := pairClass r0.1 r1.1
    if c = .noDevice then { s with bus := r1.2, data := 0x03#8 }.raiseError .protocol
    else
      { s with
        bus := r1.2.writeSlot (c.choose dir)
        data := (BitVec.ofBool (decide (c = PairClass.collision)) ++ BitVec.ofBool (c.choose dir) ++ BitVec.ofBool r1.1 ++
          BitVec.ofBool r0.1).setWidth 8 }.complete

end Sys2Proof.Machine
end

