-- ==== Sys2Proof/Machine/Discovery.lean ====
section
/-! DEFINITION. Machine/Discovery.lean: the discovery engine of 45_discovery.md. -/

namespace Sys2Proof.Machine

/-- SEARCH_INIT (R186): the path is 0 and the branch point START. -/
def execSearchInit (s : State) : Host.Outcome State Fault Refusal :=
  .next { s with srchPath := 0#64, srchLen := srchStart }.complete

/-- The choice at a collision (R188 step 3): replay below the branch point `len`, take 1 at it, take 0 above it. -/
def collisionChoice (len : Int) (path : BitVec 64) (i : Nat) : Bool :=
  if (i : Int) < len then path.getLsbD i else if (i : Int) = len then true else false

/-- How a discovery pass ends (R188). -/
inductive SearchEnd where
  /-- All 64 positions are decided: the address and the last collision where 0 was chosen. -/
  | found (x : RomCode) (lastZero : Option Nat)
  /-- The pair at position `i` was (1,1). -/
  | noDevice (i : Nat)
deriving DecidableEq, Repr

/-- The loop of R188 over the positions `i, i+1, …`, the first argument being how many are left. DESIGN CHOICE: a pass
that ends in PROTOCOL at `i` has made `8 + 3i + 2` slots, as R188 and vector V-D9 give them, where the informative
table of R229 counts `8 + 2i + 2` (notes/assumptions/22.md). -/
def Bus.searchFrom (len : Int) (path : BitVec 64) : Nat → Nat → RomCode → Option Nat → Bus → SearchEnd × Bus
  | 0, _, x, lastZero, b => (.found x lastZero, b)
  | n + 1, i, x, lastZero, b =>
    let r0 := b.readSlot
    let r1 := r0.2.readSlot
    let c := pairClass r0.1 r1.1
    let d := c.choose (collisionChoice len path i)
    if c = .noDevice then (.noDevice i, r1.2)
    else
      (r1.2.writeSlot d).searchFrom len path n (i + 1) (setBit x i d)
        (if c = .collision ∧ d = false then some i else lastZero)

/-- `SRCH_LEN` after a successful pass: the last collision where 0 was chosen, or DONE (R188). -/
def nextBranch : Option Nat → Word
  | some i => BitVec.ofNat 32 i
  | none => srchDone

/-- One discovery pass with the given command byte (R188, R190). -/
def State.searchPass (c : Byte) (s : State) : State :=
  if s.srchLen = srchDone then { s with status := { s.status with nomore := true } }.complete
  else
    let r := (s.bus.writeByte c).searchFrom s.srchLen.toInt s.srchPath 64 0 0#64 none
    match r.1 with
    | .noDevice i => { s with bus := r.2, data := BitVec.ofNat 8 i }.raiseError .protocol
    | .found x lastZero =>
      if romValid x then
        { s with bus := r.2, rom := x, srchPath := x, srchLen := nextBranch lastZero }.complete
      else { s with bus := r.2 }.raiseError .checksum

/-- SEARCH (R188). -/
def execSearch (s : State) : Host.Outcome State Fault Refusal :=
  .next (s.searchPass s.params.cmds.searchRom)

/-- SEARCH_ALARM (R190). -/
def execSearchAlarm (s : State) : Host.Outcome State Fault Refusal :=
  .next (s.searchPass s.params.cmds.alarmSearch)

end Sys2Proof.Machine
end

