-- ==== Sys2Proof/Machine/Frames.lean ====
section
/-! DEFINITION. Machine/Frames.lean: the two check operations of 42_frames.md. -/

namespace Sys2Proof.Machine

/-- ROM_CHECK (R152): CHECKSUM unless `RomValid(ROM)`. -/
def execRomCheck (s : State) : Host.Outcome State Fault Refusal :=
  .next (if romValid s.rom then s.complete else s.raiseError .checksum)

/-- SP_CHECK (R153): CHECKSUM unless `SpValid(SP)`. -/
def execSpCheck (s : State) : Host.Outcome State Fault Refusal :=
  .next (if spValid s.sp then s.complete else s.raiseError .checksum)

end Sys2Proof.Machine
end

