-- ==== Sys2Proof/Machine/Function.lean ====
section
/-! DEFINITION. Machine/Function.lean: the function commands of 44_function_commands.md. -/

namespace Sys2Proof.Machine

/-- `BusyPoll()` (R169): read slots up to the first 1, at most the given number; `n` counts the zeros so far. The
answer is the count at the 1, or `none` on a timeout. -/
def Bus.poll : Nat → Nat → Bus → Option Nat × Bus
  | 0, _, b => (none, b)
  | k + 1, n, b => if b.readSlot.1 then (some n, b.readSlot.2) else b.readSlot.2.poll k (n + 1)

/-- A command byte and the busy poll, for CONVERT and COPY_SP: `POLLS` is the count, or `POLL_MAX` with TIMEOUT
(R169, R170, R176). -/
def State.commandAndPoll (c : Byte) (s : State) : State :=
  let r := (s.bus.writeByte c).poll s.params.pollMax 0
  match r.1 with
  | some n => { s with bus := r.2, polls := BitVec.ofNat 32 n }.complete
  | none => { s with bus := r.2, polls := BitVec.ofNat 32 s.params.pollMax }.raiseError .timeout

/-- CONVERT (R170). -/
def execConvert (s : State) : Host.Outcome State Fault Refusal :=
  .next (s.commandAndPoll s.params.cmds.convertT)

/-- READ_SP (R172): the command byte and nine bytes read; `SP` is written only if they are valid. -/
def execReadSp (s : State) : Host.Outcome State Fault Refusal :=
  .next <|
    let r := (s.bus.writeByte s.params.cmds.readSp).readBytes 9
    if spValid (spOfBytes r.1) then { s with bus := r.2, sp := spOfBytes r.1 }.complete
    else { s with bus := r.2 }.raiseError .checksum

/-- WRITE_SP (R174): the command byte, then high, low and config; `SP` is not updated. -/
def execWriteSp (high low config : Byte) (s : State) : Host.Outcome State Fault Refusal :=
  .next { s with bus := s.bus.writeBytes [s.params.cmds.writeSp, high, low, config] }.complete

/-- COPY_SP (R176). -/
def execCopySp (s : State) : Host.Outcome State Fault Refusal :=
  .next (s.commandAndPoll s.params.cmds.copySp)

/-- READ_POWER (R178): the command byte and one read slot into `DATA` bit 0. -/
def execReadPower (s : State) : Host.Outcome State Fault Refusal :=
  .next <|
    let r := (s.bus.writeByte s.params.cmds.readPower).readSlot
    { s with bus := r.2, data := (BitVec.ofBool r.1).setWidth 8 }.complete

end Sys2Proof.Machine
end

