-- ==== Sys2Proof/Machine/Dispatch.lean ====
section
/-! DEFINITION. Machine/Dispatch.lean: the meaning of each operation, one arm per constructor. -/

namespace Sys2Proof.Machine

/-- The sequencer's step on one operation (R200). -/
def exec (i : Instr) (s : State) : Host.Outcome State Fault Refusal :=
  match i with
  -- transport (40_transport.md)
  | .reset => Sys2Proof.Machine.execReset s
  | .writeBit b => Sys2Proof.Machine.execWriteBit b s
  | .readBit => Sys2Proof.Machine.execReadBit s
  | .writeByte v => Sys2Proof.Machine.execWriteByte v s
  | .readByte => Sys2Proof.Machine.execReadByte s
  | .waitLevel level timeout => Sys2Proof.Machine.execWaitLevel level timeout s
  | .triplet dir => Sys2Proof.Machine.execTriplet dir s
  -- checksum (41_checksum.md)
  | .crcClear => Sys2Proof.Machine.execCrcClear s
  | .crcByte v => Sys2Proof.Machine.execCrcByte v s
  -- frames (42_frames.md)
  | .romCheck => Sys2Proof.Machine.execRomCheck s
  | .spCheck => Sys2Proof.Machine.execSpCheck s
  -- addressing commands (43_rom_commands.md)
  | .selectAll => Sys2Proof.Machine.execSelectAll s
  | .readRom => Sys2Proof.Machine.execReadRom s
  | .selectOne => Sys2Proof.Machine.execSelectOne s
  -- function commands (44_function_commands.md)
  | .convert => Sys2Proof.Machine.execConvert s
  | .readSp => Sys2Proof.Machine.execReadSp s
  | .writeSp high low config => Sys2Proof.Machine.execWriteSp high low config s
  | .copySp => Sys2Proof.Machine.execCopySp s
  | .readPower => Sys2Proof.Machine.execReadPower s
  -- discovery (45_discovery.md)
  | .searchInit => Sys2Proof.Machine.execSearchInit s
  | .search => Sys2Proof.Machine.execSearch s
  | .searchAlarm => Sys2Proof.Machine.execSearchAlarm s

end Sys2Proof.Machine
end

