-- ==== Sys2Proof/Machine/Sequencer.lean ====
section
/-! DEFINITION. Machine/Sequencer.lean: one turn of the host, of the sequencer or of the reset input
(00_scope.md R6, 20_memory.md R69, 60_exceptions.md R200, 70_reset_and_hazards.md R220). -/

namespace Sys2Proof.Machine

/-- The sequencer runs the accepted word `w`. SEQ holds only legal words (R199); for an illegal one, in a state no
run reaches, the outcome is the one R105 gives every illegal word (DESIGN CHOICE, notes/assumptions/6.md). -/
def runWord (w : Word) (s : State) : Host.Outcome State Fault Refusal :=
  match decode w with
  | some i => exec i s
  | none => .next { s with status := s.status.rejected, seq := .idle }

/-- The sequencer's turn: one op, or nothing while idle (R200). -/
def sequencerTurn (s : State) : Host.Outcome State Fault Refusal :=
  match s.seq with
  | .idle => .next s
  | .busy w => runWord w s

/-- The bus events the running op would make; none while idle. -/
def pendingEvents (s : State) : List BusEvent :=
  match sequencerTurn s with
  | .next t => t.bus.history.drop s.bus.history.length
  | .fault _ => []
  | .refused _ => []

/-- The reset input (R220, R221): a running op is abandoned after `made` of its bus events, and none of its staged
writes is committed. "After reset, the bus environment's state is unconstrained", whether an op ran or not. -/
def resetTurn (made : Nat) (s : State) : State :=
  { s with bus := s.bus.abandon (pendingEvents s) made }.hardwareReset

/-- One turn (R69: each takes effect at once, in order). -/
def takeTurn (t : Turn) (s : State) : Host.Outcome State Fault Refusal :=
  match t with
  | .write addr width v => hostWrite addr width v s
  | .read addr width => hostRead addr width s
  | .sequencer => sequencerTurn s
  | .hardwareReset made => .next (resetTurn made s)

/-- The machine one turn on. With no turn pending the sequencer moves, and an idle machine stays as it is: "It makes
no bus event until the host issues an op" (R220). -/
def nextTurn (s : State) : Host.Outcome State Fault Refusal :=
  match s.turns with
  | [] => sequencerTurn s
  | t :: rest => takeTurn t { s with turns := rest }

/-- The state in which the sequencer runs word `w` next: `w` is issued to an idle OWC (R199) and the next turn is
the sequencer's. -/
def State.withCommand (w : Word) (s : State) : State :=
  { State.issue w { s with seq := .idle } with turns := .sequencer :: s.turns }

end Sys2Proof.Machine
end

