-- ==== Sys2Proof/Machine/Step.lean ====
section
/-! DEFINITION. Machine/Step.lean: one step of the machine. -/

namespace Sys2Proof.Machine

/-- One step: the next pending turn (Machine/Sequencer.lean). -/
def step (s : State) : Host.Outcome State Fault Refusal := nextTurn s

/-- OWC fetches no program (R32): a word comes by the host's write to CMD. This is the state right after that
write, the sequencer's step being next (notes/assumptions/5.md). -/
def State.withFetchWord (s : State) (nbits w : Nat) : State := s.withCommand (tableWord nbits w)

end Sys2Proof.Machine
end

