-- ==== Sys2Proof/Machine/HostProgram.lean ====
section
/-! DEFINITION. Machine/HostProgram.lean: the host as an agent (00_scope.md R6): programs in the notation of
30_encoding.md R110 and R111, and how the host, the sequencer and the reset input take turns on one OWC
(20_memory.md R69). No rule of OWC depends on a host program. -/

namespace Sys2Proof.Machine

/-! ## Expansion (R110, R111) -/

/-- Where a branch goes: to a label, or to the line just before it (the `L` of `wait`). -/
inductive HostTarget where
  | named (label : String)
  | previous
deriving DecidableEq, Repr

/-- One step of a host program, ops and `wait` expanded. -/
inductive HostPrim where
  | sw (reg : Reg) (value : HostExpr)
  | lw (reg : Reg) (var : String)
  /-- Branch when `x = imm` (`equal`) or when `x ≠ imm`. -/
  | branch (equal : Bool) (x : HostExpr) (imm : Nat) (target : HostTarget)
  | jump (label : String)
  | set (var : String) (value : HostExpr)
  | setItem (array : String) (index value : HostExpr)
  | label (name : String)
  | halt
deriving DecidableEq, Repr

/-- `wait` is `L: lw STATUS -> s; b.eq s.BUSY, 1, L` (R110). -/
def waitPrims : List HostPrim := [.lw .status "s", .branch true (.field "s" .busy) 1 .previous]

/-- An op line is `sw CMD, word` followed by `wait` (R110). -/
def opPrims (i : Instr) : List HostPrim := .sw .cmd (.imm (encode i).toNat) :: waitPrims

/-- A host write of a constant. -/
def swImm (r : Reg) (v : Word) : HostLine := .sw r (.imm v.toNat)

/-- The exact expansions of R111. -/
def expandPseudo : Pseudo → List HostLine
  | .setRom x => [swImm .romLo (lowWord x), swImm .romHi (highWord x)]
  | .address x => [swImm .romLo (lowWord x), swImm .romHi (highWord x), .op .reset, .op .selectOne]
  | .broadcast => [.op .reset, .op .selectAll]
  | .crcFrame bytes => .op .crcClear :: bytes.map (fun v => .op (.crcByte v))
  | .ack => [swImm .status 0x00000022#32]
  | .searchFirst => [.op .searchInit, .op .reset, .op .search]
  | .searchNext => [.op .reset, .op .search]

/-- The steps of a line that is no pseudo-instruction (an expansion holds none). -/
def linePrims : HostLine → List HostPrim
  | .sw r v => [.sw r v]
  | .lw r v => [.lw r v]
  | .op i => opPrims i
  | .wait => waitPrims
  | .pseudo _ => []
  | .bEq x imm l => [.branch true x imm (.named l)]
  | .bNe x imm l => [.branch false x imm (.named l)]
  | .b l => [.jump l]
  | .set v e => [.set v e]
  | .setItem a n e => [.setItem a n e]
  | .label l => [.label l]
  | .halt => [.halt]

/-- The steps of a host program. -/
def hostPrims (lines : List HostLine) : List HostPrim :=
  lines.flatMap fun
    | .pseudo p => (expandPseudo p).flatMap linePrims
    | l => linePrims l

/-! ## The host -/

/-- Whether the host still runs. A line the notation gives no meaning (an unassigned variable, a label that is not
defined) leaves it stuck (DESIGN CHOICE, notes/assumptions/9.md). -/
inductive HostStatus where
  | running | halted | stuck
deriving DecidableEq, Repr

/-- The host: its program, its place in it, its variables and its arrays, "the host's own, not OWC's" (R110). -/
structure HostState where
  program : List HostPrim
  pc      : Nat
  vars    : List (String × Nat)
  items   : List ((String × Nat) × Nat)
  status  : HostStatus
deriving DecidableEq, Repr

/-- A host at the start of a program. -/
def HostState.start (lines : List HostLine) : HostState :=
  { program := hostPrims lines, pc := 0, vars := [], items := [], status := .running }

/-- A field of a STATUS word held in a host variable (10_state.md R23). -/
def statusFieldOf (f : StatusField) (w : Nat) : Nat :=
  match f with
  | .busy => w % 2
  | .done => w / 2 % 2
  | .presence => w / 4 % 2
  | .short => w / 8 % 2
  | .nomore => w / 16 % 2
  | .ovr => w / 32 % 2
  | .line => w / 64 % 2
  | .err => w / 256 % 8

/-- The value of a host expression, on host integers (R110). -/
def HostState.eval (h : HostState) : HostExpr → Option Nat
  | .imm v => some v
  | .var name => h.vars.lookup name
  | .field name f => (h.vars.lookup name).map (statusFieldOf f)
  | .item array index => (h.eval index).bind fun n => h.items.lookup (array, n)
  | .add a b => (h.eval a).bind fun x => (h.eval b).map fun y => x + y
  | .shl a b => (h.eval a).bind fun x => (h.eval b).map fun y => x <<< y
  | .or a b => (h.eval a).bind fun x => (h.eval b).map fun y => x ||| y

/-- The host goes on to the next line. -/
def HostState.advance (h : HostState) : HostState := { h with pc := h.pc + 1 }

/-- The host assigns a variable. -/
def HostState.assign (name : String) (v : Nat) (h : HostState) : HostState :=
  { h with vars := (name, v) :: h.vars.filter (fun p => p.1 != name) }

/-- The host assigns an array item. -/
def HostState.assignItem (array : String) (n v : Nat) (h : HostState) : HostState :=
  { h with items := ((array, n), v) :: h.items.filter (fun p => p.1 != (array, n)) }

/-- The host stops on a line with no meaning. -/
def HostState.stuck (h : HostState) : HostState := { h with status := .stuck }

/-- The host branches. DESIGN CHOICE: a label that a program defines twice names the first of its lines, and one that it
does not define leaves the host stuck, R110 saying neither (notes/assumptions/9.md). -/
def HostState.goto (target : HostTarget) (h : HostState) : HostState :=
  match target with
  | .previous => { h with pc := h.pc - 1 }
  | .named l =>
    match h.program.findIdx? (fun p => p == .label l) with
    | some k => { h with pc := k }
    | none => h.stuck

/-- A host on one OWC. -/
structure HostSystem where
  host : HostState
  owc  : State
deriving DecidableEq, Repr

/-- The system after an access that the OWC answered with a next state (R62: any other access stops the machine). -/
def afterAccess (o : Host.Outcome State Fault Refusal) (after : State → HostState) :
    Host.Outcome HostSystem Fault Refusal :=
  match o with
  | .next s => .next { host := after s, owc := s }
  | .fault f => .fault f
  | .refused r => .refused r

/-- The value that the last host read returned. -/
def State.lastRead (s : State) : Nat :=
  match s.observed.getLast? with
  | some o => o.value.toNat
  | none => 0

/-- One step of the host: one access to the window, or one step of its own (R110). -/
def hostMove (sys : HostSystem) : Host.Outcome HostSystem Fault Refusal :=
  let h := sys.host
  let s := sys.owc
  if h.status = .running then
    match h.program[h.pc]? with
    | none => .next { sys with host := { h with status := .halted } }
    | some (.sw r e) =>
      match h.eval e with
      | some v => afterAccess (takeTurn (.write (s.params.base + regOffset r) .word (BitVec.ofNat 32 v)) s) fun _ => h.advance
      | none => .next { sys with host := h.stuck }
    | some (.lw r name) =>
      afterAccess (takeTurn (.read (s.params.base + regOffset r) .word) s) fun t => (h.assign name t.lastRead).advance
    | some (.branch equal x imm target) =>
      match h.eval x with
      | some v => .next { sys with host := if (v == imm) == equal then h.goto target else h.advance }
      | none => .next { sys with host := h.stuck }
    | some (.jump l) => .next { sys with host := h.goto (.named l) }
    | some (.set name e) =>
      match h.eval e with
      | some v => .next { sys with host := (h.assign name v).advance }
      | none => .next { sys with host := h.stuck }
    | some (.setItem array n e) =>
      match h.eval n, h.eval e with
      | some k, some v => .next { sys with host := (h.assignItem array k v).advance }
      | _, _ => .next { sys with host := h.stuck }
    | some (.label _) => .next { sys with host := h.advance }
    | some .halt => .next { sys with host := { h with status := .halted } }
  else .next sys

/-! ## Taking turns -/

/-- Who moves next (R6). -/
inductive Agent where
  | host
  | sequencer
  /-- The reset input, a running op having made `made` of its events (R220). -/
  | resetInput (made : Nat)
deriving DecidableEq, Repr

/-- One move of one agent. The order of the moves is the platform's: a claim about a program holds in every order
that R66, R199 and R200 admit. -/
def HostSystem.move (who : Agent) (sys : HostSystem) : Host.Outcome HostSystem Fault Refusal :=
  match who with
  | .host => hostMove sys
  | .sequencer => afterAccess (takeTurn .sequencer sys.owc) fun _ => sys.host
  | .resetInput made => afterAccess (takeTurn (.hardwareReset made) sys.owc) fun _ => sys.host

/-- Moves in the given order. -/
def HostSystem.run : List Agent → HostSystem → Host.Outcome HostSystem Fault Refusal
  | [], sys => .next sys
  | who :: rest, sys =>
    match sys.move who with
    | .next sys' => sys'.run rest
    | .fault f => .fault f
    | .refused r => .refused r

end Sys2Proof.Machine
end

