-- ==== Sys2Proof/Machine/Timing.lean ====
section
/-! DEFINITION. Machine/Timing.lean: the informative timing of OWC: the drive sequence each bus event stands for
(40_transport.md R113, R117, R119), and the durations of 70_reset_and_hazards.md R228 and R229, as functions of the bus
history. No step reads one (R8). -/

namespace Sys2Proof.Machine

/-- One phase of a bus event: how OWC drives the line, and for how long at most, in microseconds. -/
structure Phase where
  drive  : Drive
  micros : Nat
deriving DecidableEq, Repr

/-- The phases of one bus event. A handshake: low, the presence window, and after a presence pulse the release window
(R113). A write slot: a short low for 1, a long low for 0, then the rest of the slot (R117). A read slot: a short low,
the settle interval up to the sample, the rest of the slot (R119). A sample: one poll period, the line not driven
(R124). -/
def BusEvent.phases (t : Config.Timing) : BusEvent → List Phase
  | .rst presence _ =>
    [{ drive := .low, micros := t.tRstl }, { drive := .float, micros := t.tPdWait }] ++
      (if presence then [{ drive := .float, micros := t.tPdRel + t.tRstRec }] else [])
  | .w true => [{ drive := .low, micros := t.tW1l }, { drive := .float, micros := t.tSlot - t.tW1l }]
  | .w false => [{ drive := .low, micros := t.tW0l }, { drive := .float, micros := t.tSlot - t.tW0l }]
  | .r _ =>
    [{ drive := .low, micros := t.tRl }, { drive := .float, micros := t.tMsr - t.tRl },
     { drive := .float, micros := t.tSlot - t.tMsr }]
  | .s _ => [{ drive := .float, micros := t.tPoll }]

/-- The longest one bus event takes, in microseconds (R228, R229). -/
def BusEvent.micros (t : Config.Timing) (e : BusEvent) : Nat := ((e.phases t).map Phase.micros).sum

/-- The longest a list of bus events takes (R229). -/
def busMicros (t : Config.Timing) (events : List BusEvent) : Nat := (events.map (BusEvent.micros t)).sum

/-- The elapsed busy time a poll count stands for: about `POLLS × T_SLOT` (R31). -/
def elapsedMicros (t : Config.Timing) (polls : Word) : Nat := polls.toNat * t.tSlot

/-- A duration in cycles of the sequencer's clock, `CLK_HZ` being OPEN (R7, R208). DESIGN CHOICE: a duration that is no
whole number of cycles is rounded down, the spec stating no rounding (notes/assumptions/18.md). -/
def clockCycles (micros : Nat) : Nat := micros * Config.clkHz / 1000000

end Sys2Proof.Machine
end

