-- ==== Sys2Proof/Safety.lean ====
section
/-! DEFINITION. Safety.lean: what every state of a run satisfies, and what a safe run is. -/

namespace Sys2Proof.Machine

/-- `SRCH_LEN` holds one of its legal values (R30). -/
def State.srchLenOk (s : State) : Prop := srchLenLegal s.srchLen = true

/-- Between ops the line is released (R41). -/
def State.lineReleased (s : State) : Prop := s.bus.drive = .float

/-- While an op runs, CMD is its word, the word is legal, and STATUS is as its issue left it (R22, R40, R199). -/
def State.inFlightOk (s : State) : Prop :=
  ∀ w, s.seq = .busy w →
    s.cmd = w ∧ (decode w).isSome = true ∧ s.status.done = false ∧ s.status.nomore = false ∧ s.status.err = .none

/-- SHORT is only ever set with PRESENCE (R112). -/
def State.shortOk (s : State) : Prop := s.status.short = true → s.status.presence = true

/-- NOMORE is set by an op that ends without an error and leaves DONE in SRCH_LEN or a host write after it; so NOMORE
comes with ERR = NONE (R188, R199). -/
def State.nomoreOk (s : State) : Prop := s.status.nomore = true → s.status.err = .none

/-- `POLLS` never exceeds `POLL_MAX` (R169), where `POLL_MAX` fits the register. -/
def State.pollsOk (s : State) : Prop := s.params.pollMax < 2 ^ 32 → s.polls.toNat ≤ s.params.pollMax

/-- The invariant of the machine. -/
structure State.Inv (s : State) : Prop where
  srchLen  : s.srchLenOk
  released : s.lineReleased
  inFlight : s.inFlightOk
  short    : s.shortOk
  nomore   : s.nomoreOk
  polls    : s.pollsOk

/-- A run of `n` steps is safe when it meets no refusal (there is no fault): the host makes only 32-bit aligned accesses
to the window (R62). -/
def State.SafeFor (n : Nat) (s : State) : Prop := ∃ t, Sys2Proof.core.run n s = .next t

/-- Every access the host has pending is a 32-bit access at an aligned address (R62). -/
def Turn.aligned : Turn → Prop
  | .write addr width _ => width = .word ∧ addr % 4 = 0
  | .read addr width => width = .word ∧ addr % 4 = 0
  | .sequencer => True
  | .hardwareReset _ => True

end Sys2Proof.Machine
end

