-- ==== Sys2Proof/Certificates/Slice0/Obligations.lean ====
section
/-! DEFINITION. Certificates/Slice0/Obligations.lean: the statements for the provers. Each says which rule of spec/ it
formalises; OBLIGATIONS.json lists them. -/

namespace Sys2Proof.Machine

/-! ## Words the statements share

They spell out what an op's rule lists (its bus events, its end) without the definitions the meanings are built on. -/

/-- A byte as eight events, bit 0 first (R71). -/
def byteSlots (event : Bool → BusEvent) (v : Byte) : List BusEvent :=
  [event (v.getLsbD 0), event (v.getLsbD 1), event (v.getLsbD 2), event (v.getLsbD 3),
   event (v.getLsbD 4), event (v.getLsbD 5), event (v.getLsbD 6), event (v.getLsbD 7)]

/-- Write slots of bytes, the first byte first (R71). -/
def writeSlots (bytes : List Byte) : List BusEvent := bytes.flatMap (byteSlots .w)

/-- Read slots whose answers are the bits of bytes, the first byte first (R71). -/
def readSlots (bytes : List Byte) : List BusEvent := bytes.flatMap (byteSlots .r)

/-- `s` after an op that made `events`, left the environment at `e`, and wrote no register: BUSY 0, DONE 1, SEQ idle,
the line released (R200). -/
def afterOp (s : State) (e : Environment) (events : List BusEvent) : State :=
  { s with
    seq := .idle
    status := { s.status with done := true }
    bus := { drive := .float, env := e, history := s.bus.history ++ events } }

/-- `s` after an op that raised `code` having made `events` and kept no write (R201). -/
def afterError (s : State) (e : Environment) (code : ErrorCode) (events : List BusEvent) : State :=
  { s with
    seq := .idle
    status := { s.status with done := true, err := code }
    bus := { drive := .float, env := e, history := s.bus.history ++ events } }

/-- The bus events a step added. -/
def newEvents (s t : State) : List BusEvent := t.bus.history.drop s.bus.history.length

/-- How long the bus events a step added take, each at its longest, with the values of R228. -/
def addedMicros (s t : State) : Nat := busMicros Config.timing (newEvents s t)

/-- The answers in a piece of the bus history, in order (R75). -/
def answersOf (events : List BusEvent) : List Bool :=
  events.flatMap fun
    | .rst p r => [p, r]
    | .w _ => []
    | .r a => [a]
    | .s a => [a]

/-- Ops one after another, each at the state the one before it left. -/
def runOps : List Instr → State → Host.Outcome State Fault Refusal
  | [], s => .next s
  | i :: rest, s =>
    match exec i s with
    | .next t => runOps rest t
    | .fault f => .fault f
    | .refused r => .refused r

/-- The order in which discovery finds addresses: bit 0 is the most significant key bit (R189). -/
def foundBefore (x y : RomCode) : Prop :=
  ∃ k < 64, (∀ j < k, x.getLsbD j = y.getLsbD j) ∧ x.getLsbD k = false ∧ y.getLsbD k = true

/-- Another address of the set takes the 1-branch where `x` has a 0 at position `k`: the two agree below `k`. -/
def openBranch (roms : List RomCode) (x : RomCode) (k : Nat) : Prop :=
  k < 64 ∧ x.getLsbD k = false ∧ ∃ y ∈ roms, (∀ j < k, y.getLsbD j = x.getLsbD j) ∧ y.getLsbD k = true

/-- The branch point that a pass which found `x` among `roms` leaves: the last open branch, or DONE (R188). -/
def isBranchPoint (roms : List RomCode) (x : RomCode) (len : Word) : Prop :=
  (∃ k, openBranch roms x k ∧ (∀ j, openBranch roms x j → j ≤ k) ∧ len = BitVec.ofNat 32 k) ∨
  ((∀ k, ¬ openBranch roms x k) ∧ len = 0xFFFFFFFE#32)

/-- The reference devices that take part in a search of the given kind (R84, R189). -/
def participants (op : Instr) (devices : List Device) : List RomCode :=
  (devices.filter fun d => op == .search || d.alarm).map (·.rom)

/-- The host's 32-bit write of `v` to register `r` is the next turn. -/
def writesNext (s : State) (r : Reg) (v : Word) (rest : List Turn) : Prop :=
  s.params.base % 4 = 0 ∧ s.turns = .write (s.params.base + regOffset r) .word v :: rest

/-- The host's 32-bit read of register `r` is the next turn. -/
def readsNext (s : State) (r : Reg) (rest : List Turn) : Prop :=
  s.params.base % 4 = 0 ∧ s.turns = .read (s.params.base + regOffset r) .word :: rest

/-- The registers a host may write only while BUSY is 0 (R67). -/
def rwIdle : List Reg := [.crc, .romLo, .romHi, .spW0, .spW1, .spW2, .srchPathLo, .srchPathHi, .srchLen]

end Sys2Proof.Machine

open Sys2Proof Sys2Proof.Machine

/-! ## Encoding -/

/-- Every operation with every operand at every value of its field is read back from its own word (R101, R103). -/
def Obligations.DecodeOfEncodeIsTheOperation : Prop := ∀ i : Instr, decode (encode i) = some i

/-- A word has one meaning: a word that decodes is the word of the operation it decodes to, so no reserved bit is
dropped (R101, R105). -/
def Obligations.EncodeOfDecodeIsTheWord : Prop := ∀ (w : Word) (i : Instr), decode w = some i → encode i = w

/-- R103: "At most one row matches any word". -/
def Obligations.AtMostOneRowMatchesAWord : Prop :=
  ∀ (w : Word) (j k : Nat) (hj : j < opcodeTable.length) (hk : k < opcodeTable.length),
    w &&& opcodeTable[j].mask = opcodeTable[j].pattern → w &&& opcodeTable[k].mask = opcodeTable[k].pattern → j = k

/-- R105: a word is illegal in exactly the two cases the rule lists, and issuing an illegal word sets CMD, ERR, DONE and
NOMORE and changes nothing else. -/
def Obligations.IllegalWordsAndTheirIssue : Prop :=
  ∀ w : Word,
    (decode w = none ↔
      (w.toNat % 256 = 0x00 ∨ (0x08 ≤ w.toNat % 256 ∧ w.toNat % 256 ≤ 0x0F) ∨
        (0x12 ≤ w.toNat % 256 ∧ w.toNat % 256 ≤ 0x1F) ∨ (0x22 ≤ w.toNat % 256 ∧ w.toNat % 256 ≤ 0x2F) ∨
        (0x33 ≤ w.toNat % 256 ∧ w.toNat % 256 ≤ 0x3F) ∨ (0x45 ≤ w.toNat % 256 ∧ w.toNat % 256 ≤ 0x4F) ∨
        0x53 ≤ w.toNat % 256) ∨
      (w.toNat % 256 ∈ [0x01, 0x03, 0x05, 0x10, 0x20, 0x21, 0x30, 0x31, 0x32, 0x40, 0x41, 0x43, 0x44, 0x50, 0x51, 0x52] ∧
        w.toNat / 256 ≠ 0) ∨
      (w.toNat % 256 ∈ [0x02, 0x07] ∧ w.toNat / 512 ≠ 0) ∨
      (w.toNat % 256 ∈ [0x04, 0x11] ∧ w.toNat / 65536 ≠ 0) ∨
      (w.toNat % 256 = 0x06 ∧ w.toNat / 512 % 128 ≠ 0)) ∧
    (decode w = none → ∀ (s : State) (rest : List Turn), s.seq = .idle → writesNext s .cmd w rest →
      step s = .next { s with
        turns := rest, cmd := w, status := { s.status with err := .illegal, done := true, nomore := false } })

/-- Words written out from the formats of R101 decode to the operations they stand for, one of each family. -/
def Obligations.SpecWordsDecode : Prop :=
  decode 0x00000001#32 = some .reset ∧
  decode 0x00000102#32 = some (.writeBit true) ∧
  decode 0x00F00106#32 = some (.waitLevel true 240#16) ∧
  decode 0x0000CC04#32 = some (.writeByte 0xCC#8) ∧
  decode 0x00005E11#32 = some (.crcByte 0x5E#8) ∧
  decode 0x00000020#32 = some .romCheck ∧
  decode 0x00000032#32 = some .selectOne ∧
  decode 0x7F464B42#32 = some (.writeSp 75#8 70#8 0x7F#8) ∧
  decode 0x00000052#32 = some .searchAlarm

/-- R108: the assembler's word of a line is the encoder's word of the operation, for each of the 22 mnemonics and every
operand an assembler accepts (R102: an alarm limit is taken modulo 256). -/
def Obligations.AssemblerMakesTheEncodedWord : Prop :=
  (∀ p ∈ [("RESET", Instr.reset), ("READ_BIT", .readBit), ("READ_BYTE", .readByte), ("CRC_CLEAR", .crcClear),
      ("ROM_CHECK", .romCheck), ("SP_CHECK", .spCheck), ("SELECT_ALL", .selectAll), ("READ_ROM", .readRom),
      ("SELECT_ONE", .selectOne), ("CONVERT", .convert), ("READ_SP", .readSp), ("COPY_SP", .copySp),
      ("READ_POWER", .readPower), ("SEARCH_INIT", .searchInit), ("SEARCH", .search), ("SEARCH_ALARM", .searchAlarm)],
    assemble ⟨p.1, []⟩ = some (encode p.2)) ∧
  (∀ b : Bool, assemble ⟨"WRITE_BIT", [b.toInt]⟩ = some (encode (.writeBit b)) ∧
    assemble ⟨"TRIPLET", [b.toInt]⟩ = some (encode (.triplet b))) ∧
  (∀ v : Byte, assemble ⟨"WRITE_BYTE", [(v.toNat : Int)]⟩ = some (encode (.writeByte v)) ∧
    assemble ⟨"CRC_BYTE", [(v.toNat : Int)]⟩ = some (encode (.crcByte v))) ∧
  (∀ (level : Bool) (t : BitVec 16),
    assemble ⟨"WAIT_LEVEL", [level.toInt, (t.toNat : Int)]⟩ = some (encode (.waitLevel level t))) ∧
  (∀ (high low config : Int), -128 ≤ high → high ≤ 255 → -128 ≤ low → low ≤ 255 → 0 ≤ config → config ≤ 255 →
    assemble ⟨"WRITE_SP", [high, low, config]⟩ =
      some (encode (.writeSp (BitVec.ofInt 8 high) (BitVec.ofInt 8 low) (BitVec.ofInt 8 config))))

/-! ## Issue, step, completion -/

/-- R199: the issue of an illegal word, of a legal word, and a write to CMD while an op runs. -/
def Obligations.IssueOfACommandWord : Prop :=
  ∀ (s : State) (w : Word) (rest : List Turn), writesNext s .cmd w rest →
    (s.seq = .idle → decode w = none →
      step s = .next { s with
        turns := rest, cmd := w, status := { s.status with err := .illegal, nomore := false, done := true } }) ∧
    (∀ i, s.seq = .idle → decode w = some i →
      step s = .next { s with
        turns := rest, cmd := w, seq := .busy w,
        status := { s.status with err := .none, nomore := false, done := false } }) ∧
    (∀ v, s.seq = .busy v →
      step s = .next { s with turns := rest, status := { s.status with ovr := true } })

/-- The sequencer's step is exec of the operation that the accepted word decodes to (R32, R83, R200), whether its turn
was listed or nothing was; and the very next step of `withFetchWord` runs its word. The model's own in it: that the order
of the agents' moves is a list of turns and the sequencer moves when it is empty (DESIGN CHOICE, log entry 3), and what
`withFetchWord` sets (DEDUCED, log entry 5). -/
def Obligations.StepRunsTheAcceptedOperation : Prop :=
  (∀ (s : State) (w : Word) (i : Instr) (rest : List Turn), s.seq = .busy w → decode w = some i →
    (s.turns = .sequencer :: rest ∨ (s.turns = [] ∧ rest = [])) → step s = exec i { s with turns := rest }) ∧
  (∀ (s : State) (i : Instr),
    step (s.withFetchWord 32 (encode i).toNat) =
      exec i { s with
        cmd := encode i, seq := .busy (encode i),
        status := { s.status with err := .none, nomore := false, done := false } })

/-- R200 and R201 over every operation: exec answers a next state, in which BUSY is 0, DONE is 1 and the line is
released; the op's events are appended to the history; and CTRL, CMD, OVR, the configuration and the host are as they
were. -/
def Obligations.EveryOperationCompletes : Prop :=
  ∀ (i : Instr) (s : State), ∃ t : State, exec i s = .next t ∧
    t.seq = .idle ∧ t.status.done = true ∧ t.bus.drive = .float ∧
    (∃ events, t.bus.history = s.bus.history ++ events) ∧
    t.params = s.params ∧ t.ie = s.ie ∧ t.cmd = s.cmd ∧ t.status.ovr = s.status.ovr ∧
    t.turns = s.turns ∧ t.observed = s.observed

/-! ## Transport -/

/-- R112: RESET is the word 0x00000001; it makes one RST; PRESENCE and SHORT get the answer; BUS without a presence
pulse, both bits kept; no other op writes the two bits. -/
def Obligations.ResetHandshakeResult : Prop :=
  decode 0x00000001#32 = some .reset ∧
  (∀ s : State, ∃ (p rel : Bool) (e : Environment),
    (p = true → exec .reset s = .next
      { afterOp s e [.rst p rel] with
        status := { s.status with done := true, presence := true, short := !rel } }) ∧
    (p = false → exec .reset s = .next
      { afterError s e .bus [.rst p rel] with
        status := { s.status with done := true, err := .bus, presence := false, short := false } })) ∧
  (∀ (i : Instr) (s t : State), i ≠ .reset → exec i s = .next t →
    t.status.presence = s.status.presence ∧ t.status.short = s.status.short)

/-- R116, R120: WRITE_BIT makes one W, WRITE_BYTE eight, bit 0 first; neither writes a register. -/
def Obligations.WriteOperationsSendTheirBits : Prop :=
  (∀ (b : Bool) (s : State), ∃ e, exec (.writeBit b) s = .next (afterOp s e [.w b])) ∧
  (∀ (v : Byte) (s : State), ∃ e, exec (.writeByte v) s = .next (afterOp s e (byteSlots .w v)))

/-- R118, R122: READ_BIT makes one R, READ_BYTE eight, bit 0 first, and DATA gets the answers. -/
def Obligations.ReadOperationsReturnTheAnswers : Prop :=
  (∀ s : State, ∃ (a : Bool) (e : Environment),
    exec .readBit s = .next { afterOp s e [.r a] with data := if a then 1#8 else 0#8 }) ∧
  (∀ s : State, ∃ (v : Byte) (e : Environment),
    exec .readByte s = .next { afterOp s e (byteSlots .r v) with data := v })

/-- R124: WAIT_LEVEL has the word `(T << 16) | (level << 8) | 0x06`; it stops at the first of at most T + 1 samples that
equals the level; a timeout is a result and no error. -/
def Obligations.WaitLevelStopsAtTheLevel : Prop :=
  (∀ (level : Bool) (t : BitVec 16),
    decode (BitVec.ofNat 32 (t.toNat * 2 ^ 16 + level.toNat * 2 ^ 8 + 0x06)) = some (.waitLevel level t)) ∧
  ∀ (level : Bool) (t : BitVec 16) (s : State), ∃ e : Environment,
    (∃ k ≤ t.toNat, exec (.waitLevel level t) s = .next
      { afterOp s e (List.replicate k (.s (!level)) ++ [.s level]) with data := 1#8 }) ∨
    exec (.waitLevel level t) s = .next
      { afterOp s e (List.replicate (t.toNat + 1) (.s (!level))) with data := 0#8 }

/-- R126: TRIPLET has the words 0x00000007 and 0x00000107; it reads the pair, writes the agreed bit or at a collision `dir`, and reports b0, b1, the bit
written and the collision; on (1,1) it writes nothing and raises PROTOCOL with DATA = 3. -/
def Obligations.TripletResolvesAPosition : Prop :=
  (decode 0x00000007#32 = some (.triplet false) ∧ decode 0x00000107#32 = some (.triplet true)) ∧
  ∀ (dir : Bool) (s : State), ∃ e : Environment,
    exec (.triplet dir) s = .next { afterOp s e [.r false, .r true, .w false] with data := 0x02#8 } ∨
    exec (.triplet dir) s = .next { afterOp s e [.r true, .r false, .w true] with data := 0x05#8 } ∨
    exec (.triplet dir) s = .next
      { afterOp s e [.r false, .r false, .w dir] with data := if dir then 0x0C#8 else 0x08#8 } ∨
    exec (.triplet dir) s = .next { afterError s e .protocol [.r true, .r true] with data := 0x03#8 }

/-! ## Checksum -/

/-- R135, and the effect of R134: CRC_CLEAR makes CRC 0x00, CRC_BYTE (the byte in bits 15:8 of its word) feeds one byte;
neither makes a bus event. -/
def Obligations.CrcOperationsUpdateTheAccumulator : Prop :=
  (decode 0x00000010#32 = some .crcClear ∧
    ∀ v : Byte, decode (BitVec.ofNat 32 (v.toNat * 2 ^ 8 + 0x11)) = some (.crcByte v)) ∧
  (∀ s : State, exec .crcClear s = .next { afterOp s s.bus.env [] with crc := 0x00#8 }) ∧
  (∀ (v : Byte) (s : State),
    exec (.crcByte v) s = .next { afterOp s s.bus.env [] with crc := crc8Update s.crc v })

/-- R131, the update written out: `c ^ b` shifted eight times, with 0x8C where bit 0 was 1; R132, the fold from 0x00, with
the one-bit values of vector V-C1; and R136, the four laws: linearity, the self-check, zero frames, and the detection of
every single-bit error in frames of 8 and 9 bytes, so that flipping any one bit of a valid address or image makes its
validity check fail. -/
def Obligations.CrcLaws : Prop :=
  ((∀ c b : Byte, crc8Update c b =
      (fun v : Byte => if v.getLsbD 0 then (v >>> 1) ^^^ 0x8C#8 else v >>> 1)^[8] (c ^^^ b)) ∧
    crc8 [] = 0x00#8 ∧ (∀ m : List Byte, crc8 m = m.foldl crc8Update 0x00#8) ∧
    [0x01#8, 0x02#8, 0x04#8, 0x08#8, 0x10#8, 0x20#8, 0x40#8, 0x80#8].map (fun v => crc8 [v]) =
      [0x5E#8, 0xBC#8, 0x61#8, 0xC2#8, 0x9D#8, 0x23#8, 0x46#8, 0x8C#8]) ∧
  ((∀ c b : Byte, crc8Update c b = crc8Update (c ^^^ b) 0x00#8) ∧
    (∀ x y : Byte, crc8Update (x ^^^ y) 0x00#8 = crc8Update x 0x00#8 ^^^ crc8Update y 0x00#8) ∧
    crc8Update 0x00#8 0x00#8 = 0x00#8 ∧
    (∀ xs ys : List Byte, xs.length = ys.length → crc8 (List.zipWith (· ^^^ ·) xs ys) = crc8 xs ^^^ crc8 ys)) ∧
  ((∀ c : Byte, crc8Update c c = 0x00#8) ∧ (∀ m : List Byte, crc8 (m ++ [crc8 m]) = 0x00#8)) ∧
  (∀ n : Nat, crc8 (List.replicate n 0x00#8) = 0x00#8) ∧
  ((∀ j < 64, crc8 (romBytes (BitVec.twoPow 64 j)) ≠ 0x00#8) ∧
    (∀ j < 72, crc8 (spBytes (BitVec.twoPow 72 j)) ≠ 0x00#8)) ∧
  ((∀ (x : RomCode) (j : Nat), j < 64 → romValid x = true → romValid (x ^^^ BitVec.twoPow 64 j) = false) ∧
    (∀ (m : Image) (j : Nat), j < 72 → spValid m = true → spValid (m ^^^ BitVec.twoPow 72 j) = false))

/-! ## Frames -/

/-- R141: where each field of an address stands in its flat value, and the order of its bytes; R142: DecodeRom and
EncodeRom are mutually inverse over all 64-bit values and all records. -/
def Obligations.AddressRecordIsTheFlatValue : Prop :=
  (∀ x : RomCode,
    (decodeRom x).familyCode = x.extractLsb' 0 8 ∧
    (∀ (k : Nat) (hk : k < 6), (decodeRom x).serial[k] = x.extractLsb' (8 * k + 8) 8) ∧
    (decodeRom x).checksum = x.extractLsb' 56 8 ∧
    romBytes x = (List.range 8).map fun k => x.extractLsb' (8 * k) 8) ∧
  (∀ a : DeviceAddress, encodeRom a = a.checksum ++ a.serial[5] ++ a.serial[4] ++ a.serial[3] ++ a.serial[2] ++
    a.serial[1] ++ a.serial[0] ++ a.familyCode) ∧
  (∀ x : RomCode, encodeRom (decodeRom x) = x) ∧ (∀ a : DeviceAddress, decodeRom (encodeRom a) = a)

/-- R143: which byte of an image each field is, and its two maps are mutually inverse; and the three SP registers are the
bytes R27 packs into them. -/
def Obligations.ImageRecordIsTheFlatValue : Prop :=
  (∀ m : Image,
    (decodeSp m).temperatureRaw0 = m.extractLsb' 0 8 ∧ (decodeSp m).temperatureRaw1 = m.extractLsb' 8 8 ∧
    (decodeSp m).alarmHigh = m.extractLsb' 16 8 ∧ (decodeSp m).alarmLow = m.extractLsb' 24 8 ∧
    (decodeSp m).configuration = m.extractLsb' 32 8 ∧
    (decodeSp m).reserved5 = m.extractLsb' 40 8 ∧ (decodeSp m).reserved6 = m.extractLsb' 48 8 ∧
    (decodeSp m).reserved7 = m.extractLsb' 56 8 ∧ (decodeSp m).checksum = m.extractLsb' 64 8 ∧
    spBytes m = (List.range 9).map fun k => m.extractLsb' (8 * k) 8) ∧
  (∀ m : Image, encodeSp (decodeSp m) = m) ∧ (∀ r : MemoryImage, decodeSp (encodeSp r) = r) ∧
  (∀ m : Image, m = (spWord2 m).extractLsb' 0 8 ++ spWord1 m ++ spWord0 m)

/-- R145: an address is valid exactly when it is not all-zero and byte 7 is the checksum of bytes 0..6, equivalently when
the checksum over all eight bytes is 0x00. -/
def Obligations.AddressValidity : Prop :=
  ∀ x : RomCode,
    (romValid x = true ↔ x ≠ 0#64 ∧ crc8 ((romBytes x).take 7) = x.extractLsb' 56 8) ∧
    (romValid x = true ↔ x ≠ 0#64 ∧ crc8 (romBytes x) = 0x00#8)

/-- R146: an image is valid exactly when byte 8 is the checksum of bytes 0..7, equivalently when the checksum over all
nine bytes is 0x00; the all-zero image is valid. -/
def Obligations.ImageValidity : Prop :=
  (∀ m : Image,
    (spValid m = true ↔ crc8 ((spBytes m).take 8) = m.extractLsb' 64 8) ∧
    (spValid m = true ↔ crc8 (spBytes m) = 0x00#8)) ∧
  spValid 0#72 = true

/-- R150: T16 is the raw 16-bit temperature with its low 3 − RES bits cleared, exactly, rounding toward −infinity, and
the temperature is the source's shifted value over 2^(RES + 1); with the source's two examples. -/
def Obligations.TemperatureDecodeIsExact : Prop :=
  tempT16 0x7F00000191#72 = 0x0191#16 ∧ tempT16 0x7F00000550#72 = 0x0550#16 ∧
  ∀ m : Image,
    let raw : Int := (m.extractLsb' 0 16).toInt
    let r : Nat := (m.extractLsb' 37 2).toNat
    (tempT16 m).toInt = raw - raw % (2 : Int) ^ (3 - r) ∧
    (tempT16 m).toInt * (2 : Int) ^ (r + 1) = 16 * (raw / (2 : Int) ^ (3 - r)) ∧
    tempWord m = 0#14 ++ m.extractLsb' 37 2 ++ tempT16 m

/-- R152, R153: the check operations end with CHECKSUM exactly when their frame is not valid; they write no other
register and make no bus event. -/
def Obligations.CheckOperationsReportValidity : Prop :=
  (decode 0x00000020#32 = some .romCheck ∧ decode 0x00000021#32 = some .spCheck) ∧
  ∀ s : State,
    exec .romCheck s =
      .next (if romValid s.rom then afterOp s s.bus.env [] else afterError s s.bus.env .checksum []) ∧
    exec .spCheck s =
      .next (if spValid s.sp then afterOp s s.bus.env [] else afterError s s.bus.env .checksum [])

/-! ## Addressing and function commands -/

/-- R160, R164, R165, R174: SELECT_ALL, SELECT_ONE and WRITE_SP send their command byte and their bytes in order, write
no register, and SELECT_ONE sends ROM whether it is valid or not. -/
def Obligations.SendingCommandsSendTheirFrames : Prop :=
  ∀ s : State,
    (∃ e, exec .selectAll s = .next (afterOp s e (writeSlots [s.params.cmds.skipRom]))) ∧
    (∃ e, exec .selectOne s = .next (afterOp s e (writeSlots (s.params.cmds.matchRom ::
      [s.rom.extractLsb' 0 8, s.rom.extractLsb' 8 8, s.rom.extractLsb' 16 8, s.rom.extractLsb' 24 8,
       s.rom.extractLsb' 32 8, s.rom.extractLsb' 40 8, s.rom.extractLsb' 48 8, s.rom.extractLsb' 56 8])))) ∧
    (∀ high low config, ∃ e, exec (.writeSp high low config) s =
      .next (afterOp s e (writeSlots [s.params.cmds.writeSp, high, low, config])))

/-- R162: READ_ROM sends its command byte and reads eight bytes, byte 0 first; ROM gets them exactly when they are a
valid address, else CHECKSUM with ROM unchanged. -/
def Obligations.ReadRomGivesAValidAddressOrNone : Prop :=
  ∀ s : State, ∃ (x : RomCode) (e : Environment),
    let events := writeSlots [s.params.cmds.readRom] ++ readSlots (romBytes x)
    (romValid x = true → exec .readRom s = .next { afterOp s e events with rom := x }) ∧
    (romValid x = false → exec .readRom s = .next (afterError s e .checksum events))

/-- R172: READ_SP sends its command byte and reads nine bytes, byte 0 first; SP gets them exactly when they are a valid
image, else CHECKSUM with SP unchanged. -/
def Obligations.ReadSpGivesAValidImageOrNone : Prop :=
  ∀ s : State, ∃ (m : Image) (e : Environment),
    let events := writeSlots [s.params.cmds.readSp] ++ readSlots (spBytes m)
    (spValid m = true → exec .readSp s = .next { afterOp s e events with sp := m }) ∧
    (spValid m = false → exec .readSp s = .next (afterError s e .checksum events))

/-- R169, R170, R176: CONVERT and COPY_SP send their command byte and poll; POLLS is the number of zeros before the
first 1, or POLL_MAX with TIMEOUT after POLL_MAX zeros; POLL_MAX is 14286 unless chosen otherwise (R8). -/
def Obligations.BusyPollCountsTheZeros : Prop :=
  State.reset.params.pollMax = 14286 ∧
  ∀ (s : State) (i : Instr) (c : Byte), 1 ≤ s.params.pollMax →
    (i = .convert ∧ c = s.params.cmds.convertT ∨ i = .copySp ∧ c = s.params.cmds.copySp) →
    ∃ e : Environment,
      (∃ k < s.params.pollMax, exec i s = .next
        { afterOp s e (writeSlots [c] ++ List.replicate k (.r false) ++ [.r true]) with
          polls := BitVec.ofNat 32 k }) ∨
      exec i s = .next
        { afterError s e .timeout (writeSlots [c] ++ List.replicate s.params.pollMax (.r false)) with
          polls := BitVec.ofNat 32 s.params.pollMax }

/-- R178: READ_POWER sends its command byte and reads one slot into DATA bit 0. -/
def Obligations.ReadPowerReturnsTheMode : Prop :=
  ∀ s : State, ∃ (a : Bool) (e : Environment),
    exec .readPower s = .next
      { afterOp s e (writeSlots [s.params.cmds.readPower] ++ [.r a]) with data := if a then 1#8 else 0#8 }

/-! ## Discovery -/

/-- R186: SEARCH_INIT sets the path to 0 and SRCH_LEN to START, with no bus event. -/
def Obligations.SearchInitSetsTheFirstCall : Prop :=
  ∀ s : State,
    exec .searchInit s = .next { afterOp s s.bus.env [] with srchPath := 0#64, srchLen := 0xFFFFFFFF#32 }

/-- R188, in the DONE state: a search sets NOMORE, makes no bus event and changes nothing else. -/
def Obligations.SearchWhenDoneReportsNoMore : Prop :=
  ∀ (s : State) (op : Instr), op = .search ∨ op = .searchAlarm → s.srchLen = 0xFFFFFFFE#32 →
    exec op s = .next
      { afterOp s s.bus.env [] with status := { s.status with done := true, nomore := true } }

/-- R188 and R190, a pass: the command byte, then at each position the pair and, unless it is (1,1), the chosen bit. A
collision replays the path below the branch point, takes 1 at it and 0 above it. (1,1) ends the pass with PROTOCOL and
DATA the position. A full pass writes ROM, SRCH_PATH and SRCH_LEN exactly when the chosen bits are a valid address, and
SRCH_LEN is then the last collision where 0 was chosen, or DONE. -/
def Obligations.SearchPassFollowsTheBranchPoint : Prop :=
  ∀ (s : State) (op : Instr) (c : Byte),
    (op = .search ∧ c = s.params.cmds.searchRom ∨ op = .searchAlarm ∧ c = s.params.cmds.alarmSearch) →
    s.srchLen ≠ 0xFFFFFFFE#32 →
    ∃ (b0 b1 : Nat → Bool) (e : Environment),
      let collision : Nat → Bool := fun k => !b0 k && !b1 k
      let chosen : Nat → Bool := fun k =>
        if collision k then
          if (k : Int) < s.srchLen.toInt then s.srchPath.getLsbD k else decide ((k : Int) = s.srchLen.toInt)
        else b0 k
      let events : Nat → List BusEvent := fun n =>
        writeSlots [c] ++ (List.range n).flatMap fun k => [.r (b0 k), .r (b1 k), .w (chosen k)]
      (∃ n < 64, (∀ k < n, (b0 k && b1 k) = false) ∧ b0 n = true ∧ b1 n = true ∧
        exec op s = .next
          { afterError s e .protocol (events n ++ [.r true, .r true]) with data := BitVec.ofNat 8 n }) ∨
      ((∀ k < 64, (b0 k && b1 k) = false) ∧ ∃ x : RomCode, (∀ k < 64, x.getLsbD k = chosen k) ∧
        (romValid x = false → exec op s = .next (afterError s e .checksum (events 64))) ∧
        (romValid x = true → ∃ len : Word,
          exec op s = .next { afterOp s e (events 64) with rom := x, srchPath := x, srchLen := len } ∧
          ((∃ k < 64, collision k = true ∧ chosen k = false ∧ len = BitVec.ofNat 32 k ∧
              ∀ j < 64, k < j → collision j = true → chosen j = true) ∨
            ((∀ j < 64, collision j = true → chosen j = true) ∧ len = 0xFFFFFFFE#32))))

/-! ## What errors keep, and who writes what -/

/-- An op that raises an error leaves ROM, SP, SRCH_PATH and SRCH_LEN as they were, and whatever ROM or SP a successful
op writes is valid (R201, R206: "No operation returns a partially valid DeviceAddress or MemoryImage"). -/
def Obligations.NoOperationCommitsAnInvalidFrame : Prop :=
  ∀ (i : Instr) (s t : State), exec i s = .next t →
    (s.status.err = .none → t.status.err ≠ .none →
      t.rom = s.rom ∧ t.sp = s.sp ∧ t.srchPath = s.srchPath ∧ t.srchLen = s.srchLen) ∧
    (t.rom ≠ s.rom → romValid t.rom = true) ∧ (t.sp ≠ s.sp → spValid t.sp = true)

/-- Which operations write a register or a STATUS field: the writers that R23 to R31 list, and no other (the frame of
every operation). -/
def Obligations.RegistersHaveOnlyTheirWriters : Prop :=
  ∀ (i : Instr) (s t : State), exec i s = .next t →
    (t.data ≠ s.data → i = .readBit ∨ i = .readByte ∨ (∃ l n, i = .waitLevel l n) ∨ (∃ d, i = .triplet d) ∨
      i = .readPower ∨ i = .search ∨ i = .searchAlarm) ∧
    (t.crc ≠ s.crc → i = .crcClear ∨ ∃ v, i = .crcByte v) ∧
    (t.rom ≠ s.rom → i = .readRom ∨ i = .search ∨ i = .searchAlarm) ∧
    (t.sp ≠ s.sp → i = .readSp) ∧
    (t.srchPath ≠ s.srchPath ∨ t.srchLen ≠ s.srchLen → i = .searchInit ∨ i = .search ∨ i = .searchAlarm) ∧
    (t.polls ≠ s.polls → i = .convert ∨ i = .copySp) ∧
    (t.status.presence ≠ s.status.presence ∨ t.status.short ≠ s.status.short → i = .reset) ∧
    (t.status.nomore ≠ s.status.nomore → i = .search ∨ i = .searchAlarm)

/-- R195: each operation raises only the codes its row lists. -/
def Obligations.ErrorCodesHaveOnlyTheirRaisers : Prop :=
  ∀ (i : Instr) (s t : State), exec i s = .next t → t.status.err ≠ s.status.err →
    (t.status.err = .bus ∧ i = .reset ∧ t.status.presence = false ∧ t.status.short = false) ∨
    (t.status.err = .protocol ∧
      ((∃ d, i = .triplet d) ∧ t.data = 3#8 ∨ (i = .search ∨ i = .searchAlarm) ∧ t.data.toNat < 64)) ∨
    (t.status.err = .checksum ∧
      (i = .readRom ∨ i = .search ∨ i = .searchAlarm ∨ i = .romCheck ∨ i = .readSp ∨ i = .spCheck) ∧
      t.rom = s.rom ∧ t.sp = s.sp) ∨
    (t.status.err = .timeout ∧ (i = .convert ∨ i = .copySp) ∧ t.polls = BitVec.ofNat 32 s.params.pollMax)

/-! ## The host window -/

/-- R64: a host read returns the register's view, and nothing of OWC or of the bus changes but the sample of the line
that a read of STATUS draws, which is 1 under the reference environment with OWC idle and the line released. The view of
STATUS is the fields in the bits of R23, with the codes of R195; the other views are the registers of R20 to R31, their
reserved bits 0. That the value goes into a list of observations is the model's own (log entry 17). -/
def Obligations.HostReadsHaveNoSideEffect : Prop :=
  (∀ (s : State) (r : Reg) (rest : List Turn), readsNext s r rest →
    ∃ (line : Bool) (e : Environment),
      step s = .next { s with
        turns := rest, bus := { s.bus with env := e },
        observed := s.observed ++ [{ addr := s.params.base + regOffset r, value := s.regView line r }] } ∧
      e.agent = s.bus.env.agent ∧ e.answers = s.bus.env.answers ∧ (r ≠ .status → e = s.bus.env) ∧
      (∀ devices, r = .status → s.bus.env.agent = .reference devices → s.seq = .idle → s.bus.drive = .float →
        line = true)) ∧
  ∀ (s : State) (line : Bool),
    ((s.regView line .status).getLsbD 0 = true ↔ ∃ w, s.seq = .busy w) ∧
    (s.regView line .status).getLsbD 1 = s.status.done ∧
    (s.regView line .status).getLsbD 2 = s.status.presence ∧
    (s.regView line .status).getLsbD 3 = s.status.short ∧
    (s.regView line .status).getLsbD 4 = s.status.nomore ∧
    (s.regView line .status).getLsbD 5 = s.status.ovr ∧
    (s.regView line .status).getLsbD 6 = line ∧
    (s.regView line .status).getLsbD 7 = false ∧
    (s.regView line .status).extractLsb' 8 3 = (match s.status.err with
      | .none => 0#3 | .bus => 1#3 | .protocol => 2#3 | .checksum => 3#3 | .timeout => 4#3 | .illegal => 5#3) ∧
    (s.regView line .status).extractLsb' 11 21 = 0#21 ∧
    s.regView line .ctrl = (if s.ie then 1#32 else 0#32) ∧
    s.regView line .cmd = s.cmd ∧
    s.regView line .data = s.data.setWidth 32 ∧
    s.regView line .crc = s.crc.setWidth 32 ∧
    s.regView line .romLo = s.rom.extractLsb' 0 32 ∧ s.regView line .romHi = s.rom.extractLsb' 32 32 ∧
    s.regView line .spW0 = s.sp.extractLsb' 0 32 ∧ s.regView line .spW1 = s.sp.extractLsb' 32 32 ∧
    s.regView line .spW2 = (s.sp.extractLsb' 64 8).setWidth 32 ∧
    s.regView line .temp = (s.sp.extractLsb' 37 2 ++ tempT16 s.sp).setWidth 32 ∧
    s.regView line .srchPathLo = s.srchPath.extractLsb' 0 32 ∧
    s.regView line .srchPathHi = s.srchPath.extractLsb' 32 32 ∧
    s.regView line .srchLen = s.srchLen ∧
    s.regView line .polls = s.polls ∧
    s.regView line .reserved = 0#32

/-- R66, R67, R30: while an op runs, a write to CMD or to an RW-idle register changes nothing but OVR, which it sets (an
illegal SRCH_LEN value changes nothing at all: the model's reading of R30, notes/assumptions/7.md). -/
def Obligations.WritesWhileBusySetOverrun : Prop :=
  ∀ (s : State) (r : Reg) (v w : Word) (rest : List Turn), writesNext s r v rest → s.seq = .busy w →
    (r = .cmd ∨ (r ∈ rwIdle ∧ r ≠ .srchLen) ∨
        (r = .srchLen ∧ (v = 0xFFFFFFFF#32 ∨ v = 0xFFFFFFFE#32 ∨ v.toNat < 64)) →
      step s = .next { s with turns := rest, status := { s.status with ovr := true } }) ∧
    (r = .srchLen → ¬ (v = 0xFFFFFFFF#32 ∨ v = 0xFFFFFFFE#32 ∨ v.toNat < 64) → step s = .next { s with turns := rest })

/-- R24 to R30: while OWC is idle, a write to an RW-idle register is what that register reads as next (its low byte for CRC
and SP_W2; for SRCH_LEN a legal value), every other register but the TEMP view of SP reads as before, and STATUS, the
sequencer and the bus are unchanged. -/
def Obligations.IdleWritesReadBack : Prop :=
  ∀ (s : State) (r : Reg) (v : Word) (rest : List Turn), writesNext s r v rest → s.seq = .idle → r ∈ rwIdle →
    (r = .srchLen → v = 0xFFFFFFFF#32 ∨ v = 0xFFFFFFFE#32 ∨ v.toNat < 64) →
    ∃ t : State, step s = .next t ∧
      (∀ line, t.regView line r = if r = .crc ∨ r = .spW2 then v &&& 0xFF#32 else v) ∧
      (∀ line r', r' ≠ r → r' ≠ .temp → t.regView line r' = s.regView line r') ∧
      (r ∉ [.spW0, .spW1, .spW2] → ∀ line, t.regView line .temp = s.regView line .temp) ∧
      t.status = s.status ∧ t.seq = s.seq ∧ t.bus = s.bus ∧ t.ie = s.ie ∧ t.cmd = s.cmd ∧ t.polls = s.polls ∧
      t.params = s.params ∧ t.turns = rest ∧ t.observed = s.observed

/-- From R60, R65 and R30: a write to a read-only register or to offset 0x3C, and one of an illegal value to SRCH_LEN, is
ignored, and OVR is not set. That this holds for SRCH_LEN also while an op runs, where R67 read alone would set OVR, is the
model's reading of R30 (DEDUCED, log entry 7). -/
def Obligations.IgnoredWritesChangeNothing : Prop :=
  ∀ (s : State) (r : Reg) (v : Word) (rest : List Turn), writesNext s r v rest →
    r ∈ [.data, .temp, .polls, .reserved] ∨
      (r = .srchLen ∧ v ≠ 0xFFFFFFFF#32 ∧ v ≠ 0xFFFFFFFE#32 ∧ 64 ≤ v.toNat) →
    step s = .next { s with turns := rest }

/-- R20, R23: CTRL and STATUS are written at any time: CTRL takes bit 0, STATUS clears DONE and OVR where bits 1 and 5
are 1, and nothing else changes. -/
def Obligations.ControlAndStatusWritesAreAlwaysTaken : Prop :=
  ∀ (s : State) (v : Word) (rest : List Turn),
    (writesNext s .ctrl v rest → step s = .next { s with turns := rest, ie := v.getLsbD 0 }) ∧
    (writesNext s .status v rest → step s = .next { s with
      turns := rest,
      status := { s.status with
        done := if v.getLsbD 1 then false else s.status.done
        ovr := if v.getLsbD 5 then false else s.status.ovr } })

/-- From R60 and R62: an access that does not reach the window changes nothing of OWC (R60); an access of 8 or 16 bits to
the window is refused, and so is a 32-bit access to it at an address that is not a multiple of 4 (R62). That an access
which straddles the window's edge counts as one to the window, and is refused, is the model's choice (DESIGN CHOICE, log
entry 11). -/
def Obligations.OnlyAlignedWordAccessesHaveAMeaning : Prop :=
  ∀ (s : State) (addr : Nat) (width : AccessWidth) (v : Word) (rest : List Turn) (turn : Turn),
    turn = .write addr width v ∨ turn = .read addr width → s.turns = turn :: rest →
    (addr + width.bytes ≤ s.params.base ∨ s.params.base + 0x40 ≤ addr → step s = .next { s with turns := rest }) ∧
    (s.params.base < addr + width.bytes → addr < s.params.base + 0x40 → width ≠ .word →
      step s = .refused .accessWidth) ∧
    (s.params.base < addr + width.bytes → addr < s.params.base + 0x40 → width = .word → addr % 4 ≠ 0 →
      step s = .refused .misalignedAccess)

/-! ## Interrupt and reset -/

/-- R44, R204: IRQ is IE and DONE; with IE set, every op's completion raises it; the issue of the next legal op and the
acknowledgement of DONE lower it. -/
def Obligations.InterruptFollowsCompletion : Prop :=
  (∀ s : State, s.irq = (s.ie && s.status.done)) ∧
  (∀ (i : Instr) (s : State), s.ie = true → ∃ t, exec i s = .next t ∧ t.irq = true) ∧
  (∀ (s : State) (w : Word) (i : Instr) (rest : List Turn), writesNext s .cmd w rest → s.seq = .idle →
    decode w = some i → ∃ t, step s = .next t ∧ t.irq = false) ∧
  (∀ (s : State) (v : Word) (rest : List Turn), writesNext s .status v rest → v.getLsbD 1 = true →
    ∃ t, step s = .next t ∧ t.irq = false ∧ t.status.err = s.status.err)

/-- From R50 and R220: after the reset input every register reads its reset value, whatever ran before: a running op is
abandoned and none of its results is committed, SEQ is idle, the line is released and IRQ is 0. Of the bus environment,
which R50 and R221 call unconstrained, it says only that it is not the reference one: reference devices give free answers
until the next RST and keep their fields, the model's choice (DEDUCED and DESIGN CHOICE, log entries 4 and 20). That the
list of observations and the pending turns stay is the model's too (DESIGN CHOICE, log entries 17 and 3). -/
def Obligations.HardwareResetGivesTheResetValues : Prop :=
  ∀ (s : State) (made : Nat) (rest : List Turn), s.turns = .hardwareReset made :: rest →
    ∃ t : State, step s = .next t ∧
      t.seq = .idle ∧ t.bus.drive = .float ∧ t.irq = false ∧ (∀ devices, t.bus.env.agent ≠ .reference devices) ∧
      (∀ line r, t.regView line r =
        if r = .srchLen then 0xFFFFFFFF#32 else if r = .status then (if line then 0x40#32 else 0#32) else 0#32) ∧
      t.params = s.params ∧ t.turns = rest ∧ t.observed = s.observed

/-- The state the row starts from reads as R50's table says, with no bus event made (vector V-R1). -/
def Obligations.ResetStateReadsAsTheTable : Prop :=
  State.reset.seq = .idle ∧ State.reset.bus.drive = .float ∧ State.reset.irq = false ∧ State.reset.bus.history = [] ∧
  ∀ line r, State.reset.regView line r =
    if r = .srchLen then 0xFFFFFFFF#32 else if r = .status then (if line then 0x40#32 else 0#32) else 0#32

/-! ## Whole-machine rules -/

/-- The invariant of Safety.lean holds at reset: SRCH_LEN is legal, the line is released, an op in flight is the legal word
in CMD with DONE, NOMORE and ERR clear, SHORT comes with PRESENCE, NOMORE with ERR = NONE, and POLLS is at most
POLL_MAX. -/
def Obligations.ResetStateMeetsTheInvariant : Prop := State.reset.Inv

/-- Every step keeps the invariant of Safety.lean, from every state that meets it (R22, R30, R40, R41, R112, R169,
R188, R199). -/
def Obligations.EveryStepKeepsTheInvariant : Prop :=
  ∀ s t : State, s.Inv → step s = .next t → t.Inv

/-- No step changes the configuration (R7), and a step only appends to the bus history (R75) and to the list of
observations. The model's own in it: the list of observations, and that a hardware reset keeps both records (DESIGN
CHOICE, log entry 17); which events of an op cut short by the reset input are appended (DEDUCED, log entry 4). -/
def Obligations.StepsKeepConfigurationAndExtendHistory : Prop :=
  ∀ s t : State, step s = .next t →
    t.params = s.params ∧ (∃ events, t.bus.history = s.bus.history ++ events) ∧
    (∃ seen, t.observed = s.observed ++ seen)

/-- While every pending access is an aligned 32-bit access and the window is at an aligned base, no step is refused, and a
step leaves that so (R62): the machine never stops. -/
def Obligations.AlignedHostsNeverStopTheMachine : Prop :=
  ∀ (n : Nat) (s : State), s.params.base % 4 = 0 → (∀ t ∈ s.turns, t.aligned) → s.SafeFor n

/-- From R75: under the unconstrained environment the answers an op records are the draws it makes, in order. The draws are
the model's own fields, a list of fixed answers and a counter, and another such pair for STATUS reads (DESIGN CHOICE, log
entry 1): where enough answers are fixed, those recorded are a prefix of them, which the op consumes, and the rest of these
fields is untouched. -/
def Obligations.AnswersAreTheNextDraws : Prop :=
  ∀ (i : Instr) (s t : State), s.bus.env.agent = .unconstrained → exec i s = .next t →
    (answersOf (newEvents s t)).length ≤ s.bus.env.answers.known.length →
    s.bus.env.answers.known = answersOf (newEvents s t) ++ t.bus.env.answers.known ∧
    t.bus.env.answers.taken = s.bus.env.answers.taken ∧
    t.bus.env.agent = .unconstrained ∧ t.bus.env.line = s.bus.env.line

/-- R75: "OWC's behaviour depends only on the answers": the same op at the same OWC state in two environments that give
the same answers makes the same events and leaves the same OWC state. -/
def Obligations.BehaviourDependsOnlyOnTheAnswers : Prop :=
  ∀ (i : Instr) (s t t' : State) (e : Environment),
    exec i s = .next t → exec i { s with bus := { s.bus with env := e } } = .next t' →
    answersOf (newEvents s t) = answersOf (newEvents { s with bus := { s.bus with env := e } } t') →
    t' = { t with bus := { t.bus with env := t'.bus.env } }

/-- R133: the frame operations never read or write CRC. -/
def Obligations.FrameOperationsDoNotTouchCrc : Prop :=
  ∀ (i : Instr) (s : State) (c : Byte),
    i ∈ [.readRom, .search, .searchAlarm, .readSp, .romCheck, .spCheck] →
    ∃ t, exec i s = .next t ∧ t.crc = s.crc ∧ exec i { s with crc := c } = .next { t with crc := c }

/-- R33: no op reads a flag: whatever STATUS and CTRL.IE hold, an op does the same to everything but STATUS, keeps IE, and
each stored STATUS field it either leaves as it was in both runs or leaves at the same value in both. -/
def Obligations.NoOperationReadsAFlag : Prop :=
  ∀ (i : Instr) (s : State) (st : Status) (ie : Bool), ∃ t t' : State,
    exec i s = .next t ∧ exec i { s with status := st, ie := ie } = .next t' ∧
    t' = { t with status := t'.status, ie := ie } ∧
    ((t.status.done = s.status.done ∧ t'.status.done = st.done) ∨ t.status.done = t'.status.done) ∧
    ((t.status.presence = s.status.presence ∧ t'.status.presence = st.presence) ∨
      t.status.presence = t'.status.presence) ∧
    ((t.status.short = s.status.short ∧ t'.status.short = st.short) ∨ t.status.short = t'.status.short) ∧
    ((t.status.nomore = s.status.nomore ∧ t'.status.nomore = st.nomore) ∨ t.status.nomore = t'.status.nomore) ∧
    ((t.status.ovr = s.status.ovr ∧ t'.status.ovr = st.ovr) ∨ t.status.ovr = t'.status.ovr) ∧
    ((t.status.err = s.status.err ∧ t'.status.err = st.err) ∨ t.status.err = t'.status.err)

/-- R29: a pass reads SRCH_PATH only below SRCH_LEN: from two paths that agree there it leaves the same state, but that
a pass which does not write SRCH_PATH leaves each path as it was. -/
def Obligations.SearchReadsThePathOnlyBelowTheBranchPoint : Prop :=
  ∀ (op : Instr) (s : State) (p : BitVec 64), op = .search ∨ op = .searchAlarm →
    (∀ j : Nat, j < 64 → (j : Int) < s.srchLen.toInt → p.getLsbD j = s.srchPath.getLsbD j) →
    ∃ t t' : State, exec op s = .next t ∧ exec op { s with srchPath := p } = .next t' ∧
      t' = { t with srchPath := t'.srchPath } ∧
      (t'.srchPath = t.srchPath ∨ (t.srchPath = s.srchPath ∧ t'.srchPath = p))

/-- R227: SELECT_ALL and READ_SP leave the same bus as the transport operations that send the same bytes and read nine,
and the transport operations write no SP. -/
def Obligations.TransportOperationsBuildReadSp : Prop :=
  ∀ s : State, ∃ t t' : State,
    runOps ([.writeByte s.params.cmds.skipRom, .writeByte s.params.cmds.readSp] ++ List.replicate 9 .readByte) s =
      .next t ∧
    runOps [.selectAll, .readSp] s = .next t' ∧ t'.bus = t.bus ∧ t.sp = s.sp

/-- R229 with the values of R228: how long each operation's bus events take. It is exact where the number of events is
fixed; a RESET takes 1040 us at most with presence and 800 us without; a WAIT_LEVEL one poll period a sample; a busy poll
one slot a poll; a search in the DONE state nothing. For a search that ends in PROTOCOL at `i` it counts the `8 + 3i + 2`
slots of R188, where R229's row has `8 + 2i + 2` (DESIGN CHOICE, log entry 22). -/
def Obligations.OperationDurations : Prop :=
  ∀ (i : Instr) (s t : State), exec i s = .next t →
    match i with
    | .reset => addedMicros s t = if t.status.presence then 1040 else 800
    | .writeBit _ | .readBit => addedMicros s t = 70
    | .writeByte _ | .readByte | .selectAll => addedMicros s t = 560
    | .waitLevel _ timeout => 1 ≤ addedMicros s t ∧ addedMicros s t ≤ timeout.toNat + 1
    | .triplet _ => addedMicros s t = if t.data = 0x03#8 then 140 else 210
    | .crcClear | .crcByte _ | .romCheck | .spCheck | .searchInit => addedMicros s t = 0
    | .readRom | .selectOne => addedMicros s t = 5040
    | .convert | .copySp =>
      (∃ k < s.params.pollMax, t.polls = BitVec.ofNat 32 k ∧ addedMicros s t = 630 + 70 * k) ∨
      (t.status.err = .timeout ∧ addedMicros s t = 560 + 70 * s.params.pollMax)
    | .readSp => addedMicros s t = 5600
    | .writeSp _ _ _ => addedMicros s t = 2240
    | .readPower => addedMicros s t = 630
    | .search | .searchAlarm =>
      if s.srchLen = 0xFFFFFFFE#32 then addedMicros s t = 0
      else addedMicros s t = 14000 ∨
        (t.status.err = .protocol ∧ ∃ n < 64, t.data = BitVec.ofNat 8 n ∧ addedMicros s t = 700 + 210 * n)

/-- R113, R117, R119 with the values of R228: a handshake and a slot start with the line low, for 500 us, 6 us for a write of
1, 60 us for a write of 0 and 6 us for a read, so that a write of 1 and a read make the same low pulse; OWC drives the line
low nowhere else, and not at all for a sample; it ends every event with the line released. A read samples 15 us after its
slot starts, and a write and a read take one slot each. -/
def Obligations.EventPhasesFillTheirSlots : Prop :=
  (∀ e : BusEvent, ∃ first rest, e.phases Config.timing = first :: rest ∧
    (∀ p ∈ rest, p.drive = .float) ∧ (rest = [] → first.drive = .float)) ∧
  (∀ b : Bool, (BusEvent.w b).micros Config.timing = 70 ∧ (BusEvent.r b).micros Config.timing = 70) ∧
  (∀ p released : Bool,
    ((BusEvent.rst p released).phases Config.timing).head? = some { drive := .low, micros := 500 }) ∧
  ((BusEvent.w true).phases Config.timing).head? = some { drive := .low, micros := 6 } ∧
  ((BusEvent.w false).phases Config.timing).head? = some { drive := .low, micros := 60 } ∧
  (∀ b : Bool, ((BusEvent.w true).phases Config.timing).head? = ((BusEvent.r b).phases Config.timing).head?) ∧
  (∀ b : Bool, ((BusEvent.r b).phases Config.timing).take 2 =
    [{ drive := .low, micros := 6 }, { drive := .float, micros := 9 }]) ∧
  (∀ b : Bool, (BusEvent.s b).phases Config.timing = [{ drive := .float, micros := 1 }]) ∧
  (∀ b : Bool, (BusEvent.rst true b).micros Config.timing = 1040 ∧ (BusEvent.rst false b).micros Config.timing = 800)

/-! ## The host's side -/

/-- R110 with R199 and R200: a host's op line issues its word and waits. While the op runs and only the host moves, the
wait goes round without touching OWC; once the sequencer has moved, the op's effect is there, and the host goes on to
the next line having read BUSY = 0. The order of the moves and the list of observations are the model's own (DESIGN CHOICE,
log entries 3 and 17), as is the host that makes them (log entry 9). -/
def Obligations.OpLineRunsTheOperationAndWaits : Prop :=
  ∀ (s : State) (h : HostState) (pre post : List HostPrim),
    s.params.base % 4 = 0 → h.status = .running →
    (∀ i : Instr, s.seq = .idle → h.program = pre ++ opPrims i ++ post → h.pc = pre.length →
      ∃ (t : State) (sys : HostSystem) (line : Bool) (e : Environment),
        exec i { s with
          cmd := encode i, seq := .busy (encode i),
          status := { s.status with err := .none, nomore := false, done := false } } = .next t ∧
        HostSystem.run [.host, .sequencer, .host, .host] { host := h, owc := s } = .next sys ∧
        sys.host.pc = pre.length + 3 ∧ sys.host.status = .running ∧ sys.host.program = h.program ∧
        sys.owc = { t with
          bus := { t.bus with env := e },
          observed := t.observed ++ [{ addr := s.params.base + 8, value := t.regView line .status }] }) ∧
    (∀ w : Word, s.seq = .busy w → h.program = pre ++ waitPrims ++ post → h.pc = pre.length →
      ∃ (sys : HostSystem) (line : Bool) (e : Environment),
        HostSystem.run [.host, .host] { host := h, owc := s } = .next sys ∧
        sys.host.pc = pre.length ∧ sys.host.status = .running ∧
        sys.owc = { s with
          bus := { s.bus with env := e },
          observed := s.observed ++ [{ addr := s.params.base + 8, value := s.regView line .status }] })

/-! ## Under the reference environment (R84) -/

/-- R163 under R84: after a RESET that saw presence, the address READ_ROM reads is the AND of the devices' addresses: it is
in ROM when it is valid, else CHECKSUM is raised and ROM is unchanged; PROTOCOL never is. -/
def Obligations.ReadRomReadsTheAndOfAllAddresses : Prop :=
  ∀ (s : State) (devices : List Device) (x : RomCode),
    s.params.cmds = Config.defaultCommands → s.bus.env.agent = .reference devices → devices ≠ [] →
    (∀ j < 64, x.getLsbD j = devices.all fun d => d.rom.getLsbD j) →
    ∃ t : State, runOps [.reset, .readRom] s = .next t ∧
      (romValid x = true → t.rom = x ∧ t.status.err = s.status.err) ∧
      (romValid x = false → t.rom = s.rom ∧ t.status.err = .checksum)

/-- R164, R172 and R84: RESET, SELECT_ONE and READ_SP bring into SP the image of the one device whose address is in ROM,
whatever other devices are on the line. -/
def Obligations.SelectedDeviceGivesItsImage : Prop :=
  ∀ (s : State) (devices : List Device) (d : Device),
    s.params.cmds = Config.defaultCommands → s.bus.env.agent = .reference devices → d ∈ devices →
    (∀ d' ∈ devices, d'.rom = d.rom → d'.sp = d.sp) → s.rom = d.rom → spValid d.sp = true →
    ∃ t : State, runOps [.reset, .selectOne, .readSp] s = .next t ∧
      t.sp = d.sp ∧ t.status.err = s.status.err ∧ t.status.presence = true

/-- R174, R172 under R84: what WRITE_SP writes to the lone device is read back by READ_SP, a valid image whose other bytes
are the device's own. -/
def Obligations.WrittenLimitsAreReadBack : Prop :=
  ∀ (s : State) (d : Device) (high low config : Byte),
    s.params.cmds = Config.defaultCommands → s.bus.env.agent = .reference [d] →
    ∃ t : State,
      runOps [.reset, .selectAll, .writeSp high low config, .reset, .selectAll, .readSp] s = .next t ∧
      t.sp.extractLsb' 16 24 = config ++ low ++ high ∧ t.sp.extractLsb' 0 16 = d.sp.extractLsb' 0 16 ∧
      t.sp.extractLsb' 40 24 = d.sp.extractLsb' 40 24 ∧ spValid t.sp = true ∧ t.status.err = s.status.err

/-- R188, R189 under R84, one pass after the first: with the path and the branch point that finding `x` left, RESET and a
search find the next address in the order of the bit-reversed key, and leave its branch point. -/
def Obligations.SearchPassFindsTheNextAddress : Prop :=
  ∀ (s : State) (op : Instr) (devices : List Device) (x : RomCode),
    op = .search ∨ op = .searchAlarm →
    s.params.cmds = Config.defaultCommands → s.bus.env.agent = .reference devices →
    (∀ y ∈ participants op devices, romValid y = true) → x ∈ participants op devices →
    s.srchPath = x → isBranchPoint (participants op devices) x s.srchLen → s.srchLen ≠ 0xFFFFFFFE#32 →
    ∃ (t : State) (y : RomCode), runOps [.reset, op] s = .next t ∧ y ∈ participants op devices ∧
      t.rom = y ∧ t.srchPath = y ∧ t.status.err = s.status.err ∧
      foundBefore x y ∧ (∀ z ∈ participants op devices, foundBefore x z → z = y ∨ foundBefore y z) ∧
      isBranchPoint (participants op devices) y t.srchLen

/-- R189, items 1, 2, 4 and 5 under R84: from SEARCH_INIT, repeating RESET and a search finds every participating address,
each once, in increasing order of the bit-reversed key, with no error and 8 + 192 events a pass, and the pass after the
last reports NOMORE with no bus event of its own. -/
def Obligations.DiscoveryFindsEveryAddressOnceInOrder : Prop :=
  ∀ (s : State) (op : Instr) (devices : List Device),
    op = .search ∨ op = .searchAlarm →
    s.params.cmds = Config.defaultCommands → s.bus.env.agent = .reference devices →
    (participants op devices).Nodup → participants op devices ≠ [] →
    (∀ y ∈ participants op devices, romValid y = true) →
    s.status.err = .none → s.status.nomore = false →
    ∃ found : List RomCode, found.Perm (participants op devices) ∧ found.Pairwise foundBefore ∧
      (∀ (n : Nat) (h : n < found.length), ∃ t : State,
        runOps (.searchInit :: (List.replicate (n + 1) [.reset, op]).flatten) s = .next t ∧
        t.rom = found[n] ∧ t.status.err = .none ∧ t.status.nomore = false ∧
        t.bus.history.length = s.bus.history.length + (n + 1) * 201) ∧
      (∃ t : State,
        runOps (.searchInit :: (List.replicate (found.length + 1) [.reset, op]).flatten) s = .next t ∧
        t.status.nomore = true ∧ t.status.err = .none ∧
        t.bus.history.length = s.bus.history.length + found.length * 201 + 1)
end

