-- ==== Sys2Proof/Laws/Bits.lean ====
section
/-! SUPPORT. Laws/Bits.lean: the bit and byte lists of Machine/Bits.lean are inverse to the packed values. -/

namespace Sys2Proof.Machine

@[simp] theorem bitsOf_length {n : Nat} (x : BitVec n) : (bitsOf x).length = n := by
  simp [bitsOf]

/-- Bit `i` of a packed list is its `i`-th entry. -/
theorem natOfBits_testBit (bs : List Bool) (i : Nat) : (natOfBits bs).testBit i = bs.getD i false := by
  induction bs generalizing i with
  | nil => simp [natOfBits]
  | cons b bs ih =>
    cases i with
    | zero => cases b <;> simp [natOfBits]
    | succ i =>
      have h : (b.toNat + 2 * natOfBits bs) / 2 = natOfBits bs := by cases b <;> simp; omega
      simp [natOfBits, Nat.testBit_succ, h, ih]

/-- The bit of a packed byte. -/
theorem byteOfBits_getLsbD (bs : List Bool) (i : Nat) (hi : i < 8) : (byteOfBits bs).getLsbD i = bs.getD i false := by
  simp only [byteOfBits, BitVec.getLsbD_ofNat, natOfBits_testBit, hi, decide_true, Bool.true_and]

/-- A listed bit is the bit of the value. -/
theorem bitsOf_getD {n : Nat} (x : BitVec n) (i : Nat) (hi : i < n) : (bitsOf x).getD i false = x.getLsbD i := by
  simp [bitsOf, List.getD_eq_getElem?_getD, hi]

/-- A byte is the packing of its bits. -/
@[simp] theorem byteOfBits_bitsOf (v : Byte) : byteOfBits (bitsOf v) = v := by
  apply BitVec.eq_of_getLsbD_eq
  intro i hi
  rw [byteOfBits_getLsbD _ _ hi, bitsOf_getD _ _ hi]

/-- Eight bits are the bits of their packing. -/
theorem bitsOf_byteOfBits (bs : List Bool) (h : bs.length = 8) : bitsOf (byteOfBits bs) = bs := by
  apply List.ext_getElem
  · simp [h]
  · intro i h1 h2
    have hi : i < 8 := by simpa using h1
    have hb := byteOfBits_getLsbD bs i hi
    rw [List.getD_eq_getElem _ _ h2] at hb
    rw [← hb]
    simp only [bitsOf, List.getElem_map, List.getElem_range]

@[simp] theorem bytesOf_length {n : Nat} (x : BitVec n) (count : Nat) : (bytesOf x count).length = count := by
  simp [bytesOf]

/-- Byte `k` of a packed list of bytes is its `k`-th entry. -/
theorem natOfBytes_div_mod (vs : List Byte) (k : Nat) :
    natOfBytes vs / 2 ^ (8 * k) % 256 = (vs.getD k 0#8).toNat := by
  induction vs generalizing k with
  | nil => simp [natOfBytes]
  | cons v vs ih =>
    cases k with
    | zero =>
      have := v.isLt
      simp [natOfBytes]
      omega
    | succ k =>
      have h8 : 2 ^ (8 * (k + 1)) = 256 * 2 ^ (8 * k) := by
        rw [Nat.mul_add, Nat.pow_add, Nat.mul_comm]
      have h : (v.toNat + 256 * natOfBytes vs) / 256 = natOfBytes vs := by
        have := v.isLt
        omega
      rw [natOfBytes, h8, ← Nat.div_div_eq_div_mul, h, ih]
      simp

theorem natOfBytes_lt (vs : List Byte) : natOfBytes vs < 2 ^ (8 * vs.length) := by
  induction vs with
  | nil => simp [natOfBytes]
  | cons v vs ih =>
    have h8 : 2 ^ (8 * (vs.length + 1)) = 256 * 2 ^ (8 * vs.length) := by
      rw [Nat.mul_add, Nat.pow_add, Nat.mul_comm]
    have := v.isLt
    simp only [natOfBytes, List.length_cons, h8]
    omega

/-- A packed list of bytes has its entries as bytes. -/
theorem byteAt_ofNat_natOfBytes (n : Nat) (vs : List Byte) (k : Nat) (hn : n = 8 * vs.length) (hk : k < vs.length) :
    byteAt (BitVec.ofNat n (natOfBytes vs)) k = vs[k] := by
  apply BitVec.eq_of_toNat_eq
  have hlt := natOfBytes_lt vs
  rw [← hn] at hlt
  have := natOfBytes_div_mod vs k
  simp only [byteAt, BitVec.extractLsb'_toNat, BitVec.toNat_ofNat, Nat.mod_eq_of_lt hlt, Nat.shiftRight_eq_div_pow]
  simpa [List.getD_eq_getElem?_getD, hk] using this

theorem bytesOf_ofNat_natOfBytes (n : Nat) (vs : List Byte) (hn : n = 8 * vs.length) :
    bytesOf (BitVec.ofNat n (natOfBytes vs)) vs.length = vs := by
  apply List.ext_getElem
  · simp
  · intro k h1 h2
    simp only [bytesOf, List.getElem_map, List.getElem_range]
    exact byteAt_ofNat_natOfBytes n vs k hn h2

/-- Eight bytes are the bytes of the address they make (R72). -/
theorem romBytes_romOfBytes (vs : List Byte) (h : vs.length = 8) : romBytes (romOfBytes vs) = vs := by
  have := bytesOf_ofNat_natOfBytes 64 vs (by omega)
  rwa [h] at this

/-- Nine bytes are the bytes of the image they make (R73). -/
theorem spBytes_spOfBytes (vs : List Byte) (h : vs.length = 9) : spBytes (spOfBytes vs) = vs := by
  have := bytesOf_ofNat_natOfBytes 72 vs (by omega)
  rwa [h] at this

/-- Two flat frames with the same bytes are equal. -/
theorem eq_of_byteAt_eq {n : Nat} (x y : BitVec n) (h : ∀ k, 8 * k < n → byteAt x k = byteAt y k) : x = y := by
  apply BitVec.eq_of_getLsbD_eq
  intro i hi
  have hk := congrArg (fun v => v.getLsbD (i % 8)) (h (i / 8) (by omega))
  have h8 : i % 8 < 8 := by omega
  have he : 8 * (i / 8) + i % 8 = i := by omega
  simpa [byteAt, h8, he] using hk

/-- An address is made of its bytes (R72). -/
@[simp] theorem romOfBytes_romBytes (x : RomCode) : romOfBytes (romBytes x) = x := by
  apply eq_of_byteAt_eq
  intro k hk
  have h := byteAt_ofNat_natOfBytes 64 (romBytes x) k (by simp [romBytes]) (by simp [romBytes]; omega)
  simpa [romOfBytes, romBytes, bytesOf] using h

/-- An image is made of its bytes (R73). -/
@[simp] theorem spOfBytes_spBytes (x : Image) : spOfBytes (spBytes x) = x := by
  apply eq_of_byteAt_eq
  intro k hk
  have h := byteAt_ofNat_natOfBytes 72 (spBytes x) k (by simp [spBytes]) (by simp [spBytes]; omega)
  simpa [spOfBytes, spBytes, bytesOf] using h

/-- Setting bit `i` of an address under construction (R188). -/
theorem setBit_getLsbD (x : BitVec 64) (i j : Nat) (d : Bool) (hj : j < 64) :
    (setBit x i d).getLsbD j = (x.getLsbD j || (decide (j = i) && d)) := by
  unfold setBit
  by_cases h : j = i
  · subst h
    cases d <;> simp [hj]
  · by_cases hlt : j < i
    · simp [h, hlt, hj]
    · have : ¬ j - i = 0 := by omega
      simp [h, hj, hlt]
      cases d
      · simp
      · simp; omega

end Sys2Proof.Machine
end

