-- ==== Sys2Proof/Laws/State.lean ====
section
/-! SUPPORT. Laws/State.lean: for each shared update of the state, what every field is after it, by `rfl`, so that no
proof unfolds a record update. -/

namespace Sys2Proof.Machine

/-! Completion (R200) -/

@[simp] theorem State.complete_params (s : State) : (s.complete).params = s.params := rfl
@[simp] theorem State.complete_ie (s : State) : (s.complete).ie = s.ie := rfl
@[simp] theorem State.complete_cmd (s : State) : (s.complete).cmd = s.cmd := rfl
@[simp] theorem State.complete_status (s : State) : (s.complete).status = s.status.completed := rfl
@[simp] theorem State.complete_data (s : State) : (s.complete).data = s.data := rfl
@[simp] theorem State.complete_crc (s : State) : (s.complete).crc = s.crc := rfl
@[simp] theorem State.complete_rom (s : State) : (s.complete).rom = s.rom := rfl
@[simp] theorem State.complete_sp (s : State) : (s.complete).sp = s.sp := rfl
@[simp] theorem State.complete_srchPath (s : State) : (s.complete).srchPath = s.srchPath := rfl
@[simp] theorem State.complete_srchLen (s : State) : (s.complete).srchLen = s.srchLen := rfl
@[simp] theorem State.complete_polls (s : State) : (s.complete).polls = s.polls := rfl
@[simp] theorem State.complete_seq (s : State) : (s.complete).seq = .idle := rfl
@[simp] theorem State.complete_bus (s : State) : (s.complete).bus = s.bus.release := rfl
@[simp] theorem State.complete_turns (s : State) : (s.complete).turns = s.turns := rfl
@[simp] theorem State.complete_observed (s : State) : (s.complete).observed = s.observed := rfl

/-! Error (R201) -/

@[simp] theorem State.raiseError_params (s : State) (c : ErrorCode) : (s.raiseError c).params = s.params := rfl
@[simp] theorem State.raiseError_ie (s : State) (c : ErrorCode) : (s.raiseError c).ie = s.ie := rfl
@[simp] theorem State.raiseError_cmd (s : State) (c : ErrorCode) : (s.raiseError c).cmd = s.cmd := rfl
@[simp] theorem State.raiseError_status (s : State) (c : ErrorCode) : (s.raiseError c).status = s.status.raised c := rfl
@[simp] theorem State.raiseError_data (s : State) (c : ErrorCode) : (s.raiseError c).data = s.data := rfl
@[simp] theorem State.raiseError_crc (s : State) (c : ErrorCode) : (s.raiseError c).crc = s.crc := rfl
@[simp] theorem State.raiseError_rom (s : State) (c : ErrorCode) : (s.raiseError c).rom = s.rom := rfl
@[simp] theorem State.raiseError_sp (s : State) (c : ErrorCode) : (s.raiseError c).sp = s.sp := rfl
@[simp] theorem State.raiseError_srchPath (s : State) (c : ErrorCode) : (s.raiseError c).srchPath = s.srchPath := rfl
@[simp] theorem State.raiseError_srchLen (s : State) (c : ErrorCode) : (s.raiseError c).srchLen = s.srchLen := rfl
@[simp] theorem State.raiseError_polls (s : State) (c : ErrorCode) : (s.raiseError c).polls = s.polls := rfl
@[simp] theorem State.raiseError_seq (s : State) (c : ErrorCode) : (s.raiseError c).seq = .idle := rfl
@[simp] theorem State.raiseError_bus (s : State) (c : ErrorCode) : (s.raiseError c).bus = s.bus.release := rfl
@[simp] theorem State.raiseError_turns (s : State) (c : ErrorCode) : (s.raiseError c).turns = s.turns := rfl
@[simp] theorem State.raiseError_observed (s : State) (c : ErrorCode) : (s.raiseError c).observed = s.observed := rfl

/-! An ignored write (R66, R67) -/

@[simp] theorem State.overrun_params (s : State) : (s.overrun).params = s.params := rfl
@[simp] theorem State.overrun_ie (s : State) : (s.overrun).ie = s.ie := rfl
@[simp] theorem State.overrun_cmd (s : State) : (s.overrun).cmd = s.cmd := rfl
@[simp] theorem State.overrun_status (s : State) : (s.overrun).status = s.status.overrun := rfl
@[simp] theorem State.overrun_data (s : State) : (s.overrun).data = s.data := rfl
@[simp] theorem State.overrun_crc (s : State) : (s.overrun).crc = s.crc := rfl
@[simp] theorem State.overrun_rom (s : State) : (s.overrun).rom = s.rom := rfl
@[simp] theorem State.overrun_sp (s : State) : (s.overrun).sp = s.sp := rfl
@[simp] theorem State.overrun_srchPath (s : State) : (s.overrun).srchPath = s.srchPath := rfl
@[simp] theorem State.overrun_srchLen (s : State) : (s.overrun).srchLen = s.srchLen := rfl
@[simp] theorem State.overrun_polls (s : State) : (s.overrun).polls = s.polls := rfl
@[simp] theorem State.overrun_seq (s : State) : (s.overrun).seq = s.seq := rfl
@[simp] theorem State.overrun_bus (s : State) : (s.overrun).bus = s.bus := rfl
@[simp] theorem State.overrun_turns (s : State) : (s.overrun).turns = s.turns := rfl
@[simp] theorem State.overrun_observed (s : State) : (s.overrun).observed = s.observed := rfl

/-! Hardware reset (R220) -/

@[simp] theorem State.hardwareReset_params (s : State) : (s.hardwareReset).params = s.params := rfl
@[simp] theorem State.hardwareReset_ie (s : State) : (s.hardwareReset).ie = false := rfl
@[simp] theorem State.hardwareReset_cmd (s : State) : (s.hardwareReset).cmd = 0#32 := rfl
@[simp] theorem State.hardwareReset_status (s : State) : (s.hardwareReset).status = Status.reset := rfl
@[simp] theorem State.hardwareReset_data (s : State) : (s.hardwareReset).data = 0#8 := rfl
@[simp] theorem State.hardwareReset_crc (s : State) : (s.hardwareReset).crc = 0#8 := rfl
@[simp] theorem State.hardwareReset_rom (s : State) : (s.hardwareReset).rom = 0#64 := rfl
@[simp] theorem State.hardwareReset_sp (s : State) : (s.hardwareReset).sp = 0#72 := rfl
@[simp] theorem State.hardwareReset_srchPath (s : State) : (s.hardwareReset).srchPath = 0#64 := rfl
@[simp] theorem State.hardwareReset_srchLen (s : State) : (s.hardwareReset).srchLen = srchStart := rfl
@[simp] theorem State.hardwareReset_polls (s : State) : (s.hardwareReset).polls = 0#32 := rfl
@[simp] theorem State.hardwareReset_seq (s : State) : (s.hardwareReset).seq = .idle := rfl
@[simp] theorem State.hardwareReset_bus (s : State) : (s.hardwareReset).bus = s.bus.release := rfl
@[simp] theorem State.hardwareReset_turns (s : State) : (s.hardwareReset).turns = s.turns := rfl
@[simp] theorem State.hardwareReset_observed (s : State) : (s.hardwareReset).observed = s.observed := rfl

/-! The issue of a legal op (R199) -/

@[simp] theorem Status.accepted_done (st : Status) : (st.accepted).done = false := rfl
@[simp] theorem Status.accepted_presence (st : Status) : (st.accepted).presence = st.presence := rfl
@[simp] theorem Status.accepted_short (st : Status) : (st.accepted).short = st.short := rfl
@[simp] theorem Status.accepted_nomore (st : Status) : (st.accepted).nomore = false := rfl
@[simp] theorem Status.accepted_ovr (st : Status) : (st.accepted).ovr = st.ovr := rfl
@[simp] theorem Status.accepted_err (st : Status) : (st.accepted).err = .none := rfl

/-! The issue of an illegal word (R105) -/

@[simp] theorem Status.rejected_done (st : Status) : (st.rejected).done = true := rfl
@[simp] theorem Status.rejected_presence (st : Status) : (st.rejected).presence = st.presence := rfl
@[simp] theorem Status.rejected_short (st : Status) : (st.rejected).short = st.short := rfl
@[simp] theorem Status.rejected_nomore (st : Status) : (st.rejected).nomore = false := rfl
@[simp] theorem Status.rejected_ovr (st : Status) : (st.rejected).ovr = st.ovr := rfl
@[simp] theorem Status.rejected_err (st : Status) : (st.rejected).err = .illegal := rfl

/-! DONE (R200) -/

@[simp] theorem Status.completed_done (st : Status) : (st.completed).done = true := rfl
@[simp] theorem Status.completed_presence (st : Status) : (st.completed).presence = st.presence := rfl
@[simp] theorem Status.completed_short (st : Status) : (st.completed).short = st.short := rfl
@[simp] theorem Status.completed_nomore (st : Status) : (st.completed).nomore = st.nomore := rfl
@[simp] theorem Status.completed_ovr (st : Status) : (st.completed).ovr = st.ovr := rfl
@[simp] theorem Status.completed_err (st : Status) : (st.completed).err = st.err := rfl

/-! ERR (R201) -/

@[simp] theorem Status.raised_done (st : Status) (c : ErrorCode) : (st.raised c).done = true := rfl
@[simp] theorem Status.raised_presence (st : Status) (c : ErrorCode) : (st.raised c).presence = st.presence := rfl
@[simp] theorem Status.raised_short (st : Status) (c : ErrorCode) : (st.raised c).short = st.short := rfl
@[simp] theorem Status.raised_nomore (st : Status) (c : ErrorCode) : (st.raised c).nomore = st.nomore := rfl
@[simp] theorem Status.raised_ovr (st : Status) (c : ErrorCode) : (st.raised c).ovr = st.ovr := rfl
@[simp] theorem Status.raised_err (st : Status) (c : ErrorCode) : (st.raised c).err = c := rfl

/-! OVR (R66, R67) -/

@[simp] theorem Status.overrun_done (st : Status) : (st.overrun).done = st.done := rfl
@[simp] theorem Status.overrun_presence (st : Status) : (st.overrun).presence = st.presence := rfl
@[simp] theorem Status.overrun_short (st : Status) : (st.overrun).short = st.short := rfl
@[simp] theorem Status.overrun_nomore (st : Status) : (st.overrun).nomore = st.nomore := rfl
@[simp] theorem Status.overrun_ovr (st : Status) : (st.overrun).ovr = true := rfl
@[simp] theorem Status.overrun_err (st : Status) : (st.overrun).err = st.err := rfl

/-! W1C (R23) -/

@[simp] theorem Status.acknowledge_done (st : Status) (v : Word) : (st.acknowledge v).done = (st.done && !v.getLsbD 1) := rfl
@[simp] theorem Status.acknowledge_presence (st : Status) (v : Word) : (st.acknowledge v).presence = st.presence := rfl
@[simp] theorem Status.acknowledge_short (st : Status) (v : Word) : (st.acknowledge v).short = st.short := rfl
@[simp] theorem Status.acknowledge_nomore (st : Status) (v : Word) : (st.acknowledge v).nomore = st.nomore := rfl
@[simp] theorem Status.acknowledge_ovr (st : Status) (v : Word) : (st.acknowledge v).ovr = (st.ovr && !v.getLsbD 5) := rfl
@[simp] theorem Status.acknowledge_err (st : Status) (v : Word) : (st.acknowledge v).err = st.err := rfl

/-! The handshake (R112) -/

@[simp] theorem Status.handshake_done (st : Status) (p r : Bool) : (st.handshake p r).done = st.done := rfl
@[simp] theorem Status.handshake_presence (st : Status) (p r : Bool) : (st.handshake p r).presence = p := rfl
@[simp] theorem Status.handshake_short (st : Status) (p r : Bool) : (st.handshake p r).short = (p && !r) := rfl
@[simp] theorem Status.handshake_nomore (st : Status) (p r : Bool) : (st.handshake p r).nomore = st.nomore := rfl
@[simp] theorem Status.handshake_ovr (st : Status) (p r : Bool) : (st.handshake p r).ovr = st.ovr := rfl
@[simp] theorem Status.handshake_err (st : Status) (p r : Bool) : (st.handshake p r).err = st.err := rfl

/-! The line driver (R41). -/

@[simp] theorem Bus.pull_drive (b : Bus) : b.pull.drive = .low := rfl
@[simp] theorem Bus.pull_env (b : Bus) : b.pull.env = b.env := rfl
@[simp] theorem Bus.pull_history (b : Bus) : b.pull.history = b.history := rfl
@[simp] theorem Bus.release_drive (b : Bus) : b.release.drive = .float := rfl
@[simp] theorem Bus.release_env (b : Bus) : b.release.env = b.env := rfl
@[simp] theorem Bus.release_history (b : Bus) : b.release.history = b.history := rfl
@[simp] theorem Bus.pull_release (b : Bus) : b.pull.release = b.release := rfl
@[simp] theorem Bus.release_release (b : Bus) : b.release.release = b.release := rfl

/-- Releasing a released line changes nothing. -/
theorem Bus.release_of_float (b : Bus) (h : b.drive = .float) : b.release = b := by
  cases b; cases h; rfl

/-! `STATUS.BUSY` is the view of SEQ (R40). -/

@[simp] theorem Seq.isBusy_idle : Seq.idle.isBusy = false := rfl
@[simp] theorem Seq.isBusy_busy (w : Word) : (Seq.busy w).isBusy = true := rfl

theorem State.busy_eq_false_iff (s : State) : s.busy = false ↔ s.seq = .idle := by
  unfold State.busy
  cases s.seq <;> simp

theorem State.busy_eq_true_iff (s : State) : s.busy = true ↔ ∃ w, s.seq = .busy w := by
  unfold State.busy
  cases s.seq <;> simp

end Sys2Proof.Machine
end

