-- ==== Sys2Proof/Laws/Bus.lean ====
section
/-! SUPPORT. Laws/Bus.lean: what each bus primitive and each bus loop does: the events it appends to the history, the
answer they hold, the line it leaves, and what it takes from the environment. -/

namespace Sys2Proof.Machine

/-! ## Draws -/

/-- A fixed answer is taken as it stands (R75). -/
@[simp] theorem Draws.next_known (free : Nat → Bool) (b : Bool) (rest : List Bool) (n : Nat) :
    Draws.next free { known := b :: rest, taken := n } = (b, { known := rest, taken := n }) := rfl

/-- With no answer fixed, the next free value is drawn (R75). -/
@[simp] theorem Draws.next_free (free : Nat → Bool) (n : Nat) :
    Draws.next free { known := [], taken := n } = (free n, { known := [], taken := n + 1 }) := rfl

/-! ## One event -/

@[simp] theorem Bus.lineLevel_release (b : Bus) (v : Bool) : b.release.lineLevel v = v := rfl

/-- A handshake, in full. -/
theorem Bus.reset_eq (b : Bus) :
    b.reset = (b.env.onReset.1,
      { drive := .float, env := b.env.onReset.2,
        history := b.history ++ [.rst b.env.onReset.1.1 b.env.onReset.1.2] }) := rfl

/-- A write slot, in full. -/
theorem Bus.writeSlot_eq (v : Bool) (b : Bus) :
    b.writeSlot v = { drive := .float, env := b.env.onWrite v, history := b.history ++ [.w v] } := rfl

/-- A read slot, in full. -/
theorem Bus.readSlot_eq (b : Bus) :
    b.readSlot = (b.env.onRead.1,
      { drive := .float, env := b.env.onRead.2, history := b.history ++ [.r b.env.onRead.1] }) := rfl

/-- A sample, in full. -/
theorem Bus.sample_eq (b : Bus) :
    b.sample = (b.env.onSample.1,
      { drive := .float, env := b.env.onSample.2, history := b.history ++ [.s b.env.onSample.1] }) := rfl

@[simp] theorem Bus.reset_history (b : Bus) :
    b.reset.2.history = b.history ++ [.rst b.reset.1.1 b.reset.1.2] := rfl
@[simp] theorem Bus.reset_drive (b : Bus) : b.reset.2.drive = .float := rfl
@[simp] theorem Bus.writeSlot_history (v : Bool) (b : Bus) : (b.writeSlot v).history = b.history ++ [.w v] := rfl
@[simp] theorem Bus.writeSlot_drive (v : Bool) (b : Bus) : (b.writeSlot v).drive = .float := rfl
@[simp] theorem Bus.readSlot_history (b : Bus) : b.readSlot.2.history = b.history ++ [.r b.readSlot.1] := rfl
@[simp] theorem Bus.readSlot_drive (b : Bus) : b.readSlot.2.drive = .float := rfl
@[simp] theorem Bus.sample_history (b : Bus) : b.sample.2.history = b.history ++ [.s b.sample.1] := rfl
@[simp] theorem Bus.sample_drive (b : Bus) : b.sample.2.drive = .float := rfl

/-! ## Writing bits and bytes -/

@[simp] theorem Bus.writeBits_nil (b : Bus) : b.writeBits [] = b := rfl
@[simp] theorem Bus.writeBits_cons (v : Bool) (vs : List Bool) (b : Bus) :
    b.writeBits (v :: vs) = (b.writeSlot v).writeBits vs := rfl
@[simp] theorem Bus.writeBytes_nil (b : Bus) : b.writeBytes [] = b := rfl
@[simp] theorem Bus.writeBytes_cons (v : Byte) (vs : List Byte) (b : Bus) :
    b.writeBytes (v :: vs) = (b.writeByte v).writeBytes vs := rfl

/-- The events of a list of write slots. -/
theorem Bus.writeBits_history (vs : List Bool) (b : Bus) : (b.writeBits vs).history = b.history ++ vs.map .w := by
  induction vs generalizing b with
  | nil => simp
  | cons v vs ih => simp [ih]

/-- A byte is eight write slots, bit 0 first (R120). -/
theorem Bus.writeByte_history (v : Byte) (b : Bus) : (b.writeByte v).history = b.history ++ (bitsOf v).map .w :=
  Bus.writeBits_history _ _

/-- Bytes, byte 0 first (R71). -/
theorem Bus.writeBytes_history (vs : List Byte) (b : Bus) :
    (b.writeBytes vs).history = b.history ++ vs.flatMap (fun v => (bitsOf v).map .w) := by
  induction vs generalizing b with
  | nil => simp
  | cons v vs ih => simp [ih, Bus.writeByte_history]

/-- The unconstrained environment hears a write and draws nothing (R75). -/
theorem Bus.writeBits_env_unconstrained (vs : List Bool) (b : Bus) (h : b.env.agent = .unconstrained) :
    (b.writeBits vs).env = b.env := by
  induction vs generalizing b with
  | nil => rfl
  | cons v vs ih =>
    have hs : (b.writeSlot v).env = b.env := by simp [Bus.writeSlot_eq, Environment.onWrite, h]
    rw [Bus.writeBits_cons, ih _ (by rw [hs, h]), hs]

/-! ## Reading bits and bytes -/

@[simp] theorem Bus.readBits_zero (b : Bus) : b.readBits 0 = ([], b) := rfl
theorem Bus.readBits_succ (n : Nat) (b : Bus) :
    b.readBits (n + 1) = (b.readSlot.1 :: (b.readSlot.2.readBits n).1, (b.readSlot.2.readBits n).2) := rfl

@[simp] theorem Bus.readBits_length (n : Nat) (b : Bus) : (b.readBits n).1.length = n := by
  induction n generalizing b with
  | zero => rfl
  | succ n ih => simp [Bus.readBits_succ, ih]

/-- The events of a number of read slots. -/
theorem Bus.readBits_history (n : Nat) (b : Bus) :
    (b.readBits n).2.history = b.history ++ (b.readBits n).1.map .r := by
  induction n generalizing b with
  | zero => simp
  | succ n ih => simp [Bus.readBits_succ, ih]

/-- A byte read is eight read slots, bit 0 first (R122). -/
theorem Bus.readByte_history (b : Bus) : b.readByte.2.history = b.history ++ (bitsOf b.readByte.1).map .r := by
  rw [Bus.readByte, bitsOf_byteOfBits _ (by simp)]
  exact Bus.readBits_history 8 b

theorem Bus.readBytes_succ (n : Nat) (b : Bus) :
    b.readBytes (n + 1) = (b.readByte.1 :: (b.readByte.2.readBytes n).1, (b.readByte.2.readBytes n).2) := rfl

@[simp] theorem Bus.readBytes_length (n : Nat) (b : Bus) : (b.readBytes n).1.length = n := by
  induction n generalizing b with
  | zero => rfl
  | succ n ih => simp [Bus.readBytes_succ, ih]

/-- Bytes read, byte 0 first (R71). -/
theorem Bus.readBytes_history (n : Nat) (b : Bus) :
    (b.readBytes n).2.history = b.history ++ (b.readBytes n).1.flatMap (fun v => (bitsOf v).map .r) := by
  induction n generalizing b with
  | zero => simp [Bus.readBytes]
  | succ n ih => simp [Bus.readBytes_succ, ih, Bus.readByte_history]

/-! ## The loops -/

/-- WAIT_LEVEL's samples (R124): the level is seen after some samples of the other level, or all samples are of the
other level. -/
theorem Bus.waitLevel_cases (level : Bool) (n : Nat) (b : Bus) :
    (∃ k < n, (b.waitLevel level n).1 = true ∧
      (b.waitLevel level n).2.history = b.history ++ List.replicate k (.s (!level)) ++ [.s level]) ∨
    ((b.waitLevel level n).1 = false ∧
      (b.waitLevel level n).2.history = b.history ++ List.replicate n (.s (!level))) := by
  induction n generalizing b with
  | zero => right; simp [Bus.waitLevel]
  | succ n ih =>
    by_cases h : b.sample.1 = level
    · left
      exact ⟨0, by omega, by simp [Bus.waitLevel, h], by simp [Bus.waitLevel, h]⟩
    · have hn : b.sample.1 = !level := by cases level <;> simpa using h
      have hw : b.waitLevel level (n + 1) = b.sample.2.waitLevel level n := by simp [Bus.waitLevel, h]
      rw [hw]
      rcases ih b.sample.2 with ⟨k, hk, h1, h2⟩ | ⟨h1, h2⟩
      · exact .inl ⟨k + 1, by omega, h1, by simp [h2, hn, List.replicate_succ]⟩
      · exact .inr ⟨h1, by simp [h2, hn, List.replicate_succ]⟩

/-- The busy poll (R169): a 1 after some zeros, or zeros only. -/
theorem Bus.poll_cases (max n : Nat) (b : Bus) :
    (∃ k < max, (b.poll max n).1 = some (n + k) ∧
      (b.poll max n).2.history = b.history ++ List.replicate k (.r false) ++ [.r true]) ∨
    ((b.poll max n).1 = none ∧ (b.poll max n).2.history = b.history ++ List.replicate max (.r false)) := by
  induction max generalizing n b with
  | zero => right; simp [Bus.poll]
  | succ m ih =>
    cases h : b.readSlot.1 with
    | true => exact .inl ⟨0, by omega, by simp [Bus.poll, h], by simp [Bus.poll, h]⟩
    | false =>
      have hp : b.poll (m + 1) n = b.readSlot.2.poll m (n + 1) := by simp [Bus.poll, h]
      rw [hp]
      rcases ih (n + 1) b.readSlot.2 with ⟨k, hk, h1, h2⟩ | ⟨h1, h2⟩
      · exact .inl ⟨k + 1, by omega, by rw [h1]; congr 1; omega, by simp [h2, h, List.replicate_succ]⟩
      · exact .inr ⟨h1, by simp [h2, h, List.replicate_succ]⟩

/-- One position of a discovery pass (R188). -/
theorem Bus.searchFrom_succ (len : Int) (path : BitVec 64) (n i : Nat) (x : RomCode) (lz : Option Nat) (b : Bus) :
    b.searchFrom len path (n + 1) i x lz =
      if pairClass b.readSlot.1 b.readSlot.2.readSlot.1 = .noDevice then (.noDevice i, b.readSlot.2.readSlot.2)
      else
        (b.readSlot.2.readSlot.2.writeSlot
          ((pairClass b.readSlot.1 b.readSlot.2.readSlot.1).choose (collisionChoice len path i))).searchFrom len path n
          (i + 1) (setBit x i ((pairClass b.readSlot.1 b.readSlot.2.readSlot.1).choose (collisionChoice len path i)))
          (if pairClass b.readSlot.1 b.readSlot.2.readSlot.1 = .collision ∧
              (pairClass b.readSlot.1 b.readSlot.2.readSlot.1).choose (collisionChoice len path i) = false
            then some i else lz) := rfl

/-- A discovery pass from position `i` on (R188): the pairs it reads; the position whose pair is (1,1), where it ends; or
all positions decided, the address with each chosen bit set and the last collision where 0 was chosen. -/
theorem Bus.searchFrom_cases (len : Int) (path : BitVec 64) (n i : Nat) (x : RomCode) (lz : Option Nat) (b : Bus) :
    ∃ b0 b1 : Nat → Bool,
      let cls := fun k => pairClass (b0 k) (b1 k)
      let d := fun k => (cls k).choose (collisionChoice len path (i + k))
      let events := fun m => (List.range m).flatMap fun k => [BusEvent.r (b0 k), .r (b1 k), .w (d k)]
      let r := b.searchFrom len path n i x lz
      (∃ m < n, (∀ k < m, cls k ≠ .noDevice) ∧ b0 m = true ∧ b1 m = true ∧ r.1 = .noDevice (i + m) ∧
        r.2.history = b.history ++ events m ++ [.r true, .r true]) ∨
      ((∀ k < n, cls k ≠ .noDevice) ∧ r.2.history = b.history ++ events n ∧
        r.1 = .found ((List.range n).foldl (fun y k => setBit y (i + k) (d k)) x)
          ((List.range n).foldl (fun l k => if cls k = .collision ∧ d k = false then some (i + k) else l) lz)) := by
  induction n generalizing i x lz b with
  | zero => exact ⟨fun _ => false, fun _ => false, .inr ⟨by simp, by simp [Bus.searchFrom], by simp [Bus.searchFrom]⟩⟩
  | succ n ih =>
    generalize h0 : b.readSlot.1 = a0
    generalize h1 : b.readSlot.2.readSlot.1 = a1
    by_cases hc : pairClass a0 a1 = .noDevice
    · have ha : a0 = true ∧ a1 = true := by cases a0 <;> cases a1 <;> simp_all [pairClass]
      obtain ⟨rfl, rfl⟩ := ha
      refine ⟨fun _ => true, fun _ => true, .inl ⟨0, by omega, by simp, rfl, rfl, ?_, ?_⟩⟩
      · simp [Bus.searchFrom_succ, h0, h1, hc]
      · simp [Bus.searchFrom_succ, h0, h1, hc]
    · have hs := Bus.searchFrom_succ len path n i x lz b
      simp only [h0, h1, hc, if_false] at hs
      obtain ⟨b0, b1, hih⟩ := ih (i + 1)
        (setBit x i ((pairClass a0 a1).choose (collisionChoice len path i)))
        (if pairClass a0 a1 = .collision ∧ (pairClass a0 a1).choose (collisionChoice len path i) = false
          then some i else lz)
        (b.readSlot.2.readSlot.2.writeSlot ((pairClass a0 a1).choose (collisionChoice len path i)))
      refine ⟨fun k => k.casesOn a0 b0, fun k => k.casesOn a1 b1, ?_⟩
      dsimp only at hih ⊢
      rw [hs]
      have hi : ∀ k, i + 1 + k = i + (k + 1) := by intro k; omega
      rcases hih with ⟨m, hm, hk, hb0, hb1, hr, hh⟩ | ⟨hk, hh, hr⟩
      · refine .inl ⟨m + 1, by omega, ?_, hb0, hb1, by rw [hr, hi], ?_⟩
        · intro k hkm
          cases k with
          | zero => exact hc
          | succ k => exact hk k (by omega)
        · rw [hh]
          simp [List.range_succ_eq_map, List.flatMap_map, h0, h1, hi]
      · refine .inr ⟨?_, ?_, ?_⟩
        · intro k hkm
          cases k with
          | zero => exact hc
          | succ k => exact hk k (by omega)
        · rw [hh]
          simp [List.range_succ_eq_map, List.flatMap_map, h0, h1, hi]
        · rw [hr]
          simp [List.range_succ_eq_map, List.foldl_map, hi]

/-- The branch point that a pass leaves (R188): the last collision where 0 was chosen, or none. -/
theorem lastZero_cases (cls : Nat → PairClass) (d : Nat → Bool) (n : Nat) :
    let last := (List.range n).foldl (fun l k => if cls k = .collision ∧ d k = false then some (0 + k) else l) (none : Option Nat)
    (∃ k < n, cls k = .collision ∧ d k = false ∧ last = some k ∧ ∀ j < n, k < j → cls j = .collision → d j = true) ∨
    (last = none ∧ ∀ j < n, cls j = .collision → d j = true) := by
  induction n with
  | zero => simp
  | succ n ih =>
    simp only [List.range_succ, List.foldl_append, List.foldl_cons, List.foldl_nil]
    dsimp only at ih
    by_cases hc : cls n = .collision ∧ d n = false
    · exact .inl ⟨n, by omega, hc.1, hc.2, by simp [hc], fun j _ _ => by omega⟩
    · have hd : cls n = .collision → d n = true := fun h => by cases hn : d n <;> simp_all
      rw [if_neg hc]
      rcases ih with ⟨k, hk, h1, h2, h3, h4⟩ | ⟨h1, h2⟩
      · refine .inl ⟨k, by omega, h1, h2, h3, fun j hj hkj hcj => ?_⟩
        rcases Nat.lt_succ_iff_lt_or_eq.mp hj with h | rfl
        · exact h4 j h hkj hcj
        · exact hd hcj
      · refine .inr ⟨h1, fun j hj hcj => ?_⟩
        rcases Nat.lt_succ_iff_lt_or_eq.mp hj with h | rfl
        · exact h2 j h hcj
        · exact hd hcj

/-- The address a pass accumulates has the chosen bit at every position decided so far (R188 step 5). -/
theorem chosenBits_getLsbD (d : Nat → Bool) (n : Nat) (hn : n ≤ 64) (j : Nat) (hj : j < 64) :
    ((List.range n).foldl (fun y k => setBit y (0 + k) (d k)) 0#64).getLsbD j = (decide (j < n) && d j) := by
  induction n with
  | zero => simp
  | succ n ih =>
    simp only [List.range_succ, List.foldl_append, List.foldl_cons, List.foldl_nil]
    rw [setBit_getLsbD _ _ _ _ hj, ih (by omega)]
    by_cases h : j = n
    · subst h
      simp
    · have : decide (j < n) = decide (j < n + 1) := by
        rw [decide_eq_decide]
        omega
      simp [h, this]

end Sys2Proof.Machine
end

