-- ==== Sys2Proof/Laws/Codec.lean ====
section
/-! SUPPORT. Laws/Codec.lean: the fields of a word and the words of a format. -/

namespace Sys2Proof

/-- Bit `k` of a word of format T, by the columns of R101. -/
theorem wordT_getLsbD (op a b c : Byte) (k : Nat) :
    (wordT op a b c).getLsbD k =
      if k < 8 then op.getLsbD k else if k < 16 then a.getLsbD (k - 8)
      else if k < 24 then b.getLsbD (k - 16) else c.getLsbD (k - 24) := by
  have h : (wordT op a b c).getLsbD k = (c ++ b ++ a ++ op : BitVec (8 + 8 + 8 + 8)).getLsbD k := rfl
  have h16 : k - 8 < 8 ↔ k < 16 := by omega
  have h24 : k - (8 + 8) < 8 ↔ k < 24 := by omega
  rw [h]
  simp only [BitVec.getLsbD_append, h16, Nat.sub_sub, h24]

@[simp] theorem fieldOp_wordT (op a b c : Byte) : fieldOp (wordT op a b c) = op := by
  apply BitVec.eq_of_getLsbD_eq
  intro i hi
  simp only [fieldOp, BitVec.getLsbD_extractLsb', hi, wordT_getLsbD, decide_true, Bool.true_and, Nat.zero_add, if_true]

@[simp] theorem fieldA_wordT (op a b c : Byte) : fieldA (wordT op a b c) = a := by
  apply BitVec.eq_of_getLsbD_eq
  intro i hi
  have h1 : ¬ 8 + i < 8 := by omega
  have h2 : 8 + i < 16 := by omega
  simp only [fieldA, BitVec.getLsbD_extractLsb', hi, wordT_getLsbD, h1, h2, decide_true, Bool.true_and, if_false, if_true,
    Nat.add_sub_cancel_left]

@[simp] theorem fieldB_wordT (op a b c : Byte) : fieldB (wordT op a b c) = b := by
  apply BitVec.eq_of_getLsbD_eq
  intro i hi
  have h1 : ¬ 16 + i < 8 := by omega
  have h2 : ¬ 16 + i < 16 := by omega
  have h3 : 16 + i < 24 := by omega
  simp only [fieldB, BitVec.getLsbD_extractLsb', hi, wordT_getLsbD, h1, h2, h3, decide_true, Bool.true_and, if_false,
    if_true, Nat.add_sub_cancel_left]

@[simp] theorem fieldC_wordT (op a b c : Byte) : fieldC (wordT op a b c) = c := by
  apply BitVec.eq_of_getLsbD_eq
  intro i hi
  have h1 : ¬ 24 + i < 8 := by omega
  have h2 : ¬ 24 + i < 16 := by omega
  have h3 : ¬ 24 + i < 24 := by omega
  simp only [fieldC, BitVec.getLsbD_extractLsb', hi, wordT_getLsbD, h1, h2, h3, decide_true, Bool.true_and, if_false,
    Nat.add_sub_cancel_left]

/-- Two words with the same four bytes are equal (R100). -/
theorem word_eq_of_fields (v w : Word) (h0 : fieldOp v = fieldOp w) (hA : fieldA v = fieldA w)
    (hB : fieldB v = fieldB w) (hC : fieldC v = fieldC w) : v = w := by
  apply BitVec.eq_of_getLsbD_eq
  intro i hi
  have key : ∀ (lo j : Nat), j < 8 → v.extractLsb' lo 8 = w.extractLsb' lo 8 →
      v.getLsbD (lo + j) = w.getLsbD (lo + j) := by
    intro lo j hj h
    have := congrArg (fun x => x.getLsbD j) h
    simpa only [BitVec.getLsbD_extractLsb', hj, decide_true, Bool.true_and] using this
  by_cases h8 : i < 8
  · simpa using key 0 i h8 h0
  by_cases h16 : i < 16
  · have := key 8 (i - 8) (by omega) hA
    rwa [show 8 + (i - 8) = i by omega] at this
  by_cases h24 : i < 24
  · have := key 16 (i - 16) (by omega) hB
    rwa [show 16 + (i - 16) = i by omega] at this
  · have := key 24 (i - 24) (by omega) hC
    rwa [show 24 + (i - 24) = i by omega] at this

/-- A word is the format T word of its four bytes. -/
theorem wordT_fields (w : Word) : wordT (fieldOp w) (fieldA w) (fieldB w) (fieldC w) = w :=
  word_eq_of_fields _ _ (by simp) (by simp) (by simp) (by simp)

/-- Format N is format T with zero operands (R101). -/
theorem wordN_eq (op : Byte) : wordN op = wordT op 0#8 0#8 0#8 := rfl

/-- Format Y is format T with two zero operands (R101). -/
theorem wordY_eq (op a : Byte) : wordY op a = wordT op a 0#8 0#8 := rfl

/-- Format B is format T with the bit in `A[0]` (R101). -/
theorem wordB_eq (op : Byte) (b : Bool) : wordB op b = wordT op (0#7 ++ BitVec.ofBool b) 0#8 0#8 := by
  cases b <;> (revert op; decide)

/-- Format W is format T with the level in `A[0]` and `T` in `B` and `C` (R101). -/
theorem wordW_eq (op : Byte) (level : Bool) (t : BitVec 16) :
    wordW op level t = wordT op (0#7 ++ BitVec.ofBool level) (t.extractLsb' 0 8) (t.extractLsb' 8 8) := by
  apply BitVec.eq_of_getLsbD_eq
  intro k hk
  have hl : (wordW op level t).getLsbD k =
      (t ++ 0#7 ++ BitVec.ofBool level ++ op : BitVec (16 + 7 + 1 + 8)).getLsbD k := rfl
  rw [hl, wordT_getLsbD]
  simp only [BitVec.getLsbD_append, BitVec.getLsbD_extractLsb', Nat.sub_sub]
  by_cases h8 : k < 8
  · simp only [h8, if_true]
  by_cases h16 : k < 16
  · by_cases h9 : k - 8 < 1
    · simp only [h8, h16, h9, if_true, if_false]
    · have h15 : k - (8 + 1) < 7 := by omega
      simp only [h8, h16, h9, h15, if_true, if_false]
  have h9 : ¬ k - 8 < 1 := by omega
  have h15 : ¬ k - (8 + 1) < 7 := by omega
  have hs : k - (8 + (1 + 7)) = k - 16 := by omega
  by_cases h24 : k < 24
  · have h7 : k - 16 < 8 := by omega
    simp only [h8, h16, h9, h15, h24, h7, hs, if_true, if_false, decide_true, Bool.true_and, Nat.zero_add]
  · have h7 : k - 24 < 8 := by omega
    have h6 : 8 + (k - 24) = k - 16 := by omega
    simp only [h8, h16, h9, h15, h24, h7, h6, hs, if_false, decide_true, Bool.true_and]

/-- The opcode of a word, as WellFormed reads it (R100). -/
theorem toNat_mod_256 (w : Word) : w.toNat % 256 = (fieldOp w).toNat := by
  simp [fieldOp, BitVec.extractLsb'_toNat]

/-- A decoded word selects a row of the table, and the operation is the one that row builds (R103, R104). -/
theorem decode_some (w : Word) (i : Instr) (h : decode w = some i) :
    ∃ r ∈ opcodeTable, r.selects w = true ∧ i = r.build w := by
  unfold decode at h
  cases hf : opcodeTable.find? (fun r => r.selects w) with
  | none => simp [hf] at h
  | some r =>
    have hs : r.selects w = true := by simpa using List.find?_some hf
    exact ⟨r, List.mem_of_find?_eq_some hf, hs, by simpa [hf] using h.symm⟩

/-- An illegal word selects no row (R104). -/
theorem decode_none (w : Word) (h : decode w = none) : ∀ r ∈ opcodeTable, r.selects w = false := by
  intro r hr
  simpa using List.find?_eq_none.mp (by simpa [decode] using h) r hr

end Sys2Proof
end

