-- ==== Sys2Proof/Laws/Crc.lean ====
section
/-! SUPPORT. Laws/Crc.lean: the fold of `Crc8` (R132) and the algebra of one shift (R131). -/

namespace Sys2Proof.Machine

@[simp] theorem crc8_nil : crc8 [] = 0x00#8 := rfl

/-- `Crc8` of a list with one more byte (R132). -/
theorem crc8_append_singleton (m : List Byte) (v : Byte) : crc8 (m ++ [v]) = crc8Update (crc8 m) v := by
  simp [crc8]

/-- One shift is linear over GF(2). -/
theorem crc8Shift_xor (a b : Byte) : crc8Shift (a ^^^ b) = crc8Shift a ^^^ crc8Shift b := by
  unfold crc8Shift
  rw [BitVec.getLsbD_xor, BitVec.ushiftRight_xor_distrib]
  cases a.getLsbD 0 <;> cases b.getLsbD 0 <;> simp only [Bool.xor_false, Bool.xor_true, Bool.not_false, Bool.not_true,
    Bool.false_eq_true, if_false, if_true]
  · simp only [BitVec.xor_assoc]
  · simp only [BitVec.xor_assoc, BitVec.xor_comm (b >>> 1)]
  · rw [BitVec.xor_assoc, BitVec.xor_comm 0x8C#8, BitVec.xor_assoc, BitVec.xor_self, BitVec.xor_zero]

/-- Any number of shifts is linear over GF(2). -/
theorem crc8Shifts_xor (n : Nat) (a b : Byte) : crc8Shifts n (a ^^^ b) = crc8Shifts n a ^^^ crc8Shifts n b := by
  induction n generalizing a b with
  | zero => rfl
  | succ n ih => simp only [crc8Shifts, crc8Shift_xor, ih]

/-- Shifting zero gives zero. -/
theorem crc8Shifts_zero (n : Nat) : crc8Shifts n 0#8 = 0#8 := by
  induction n with
  | zero => rfl
  | succ n ih => simpa [crc8Shifts, crc8Shift] using ih

end Sys2Proof.Machine
end

