-- ==== Sys2Proof/Laws/PerInstr.lean ====
section
/-! SUPPORT. Laws/PerInstr.lean: laws stated for every operation, one lemma per constructor of Instr. -/

namespace Sys2Proof.Laws.EncodeWellFormed

/-- The encoder never sets a reserved bit and never leaves Table 2 (R101, R105). -/
def Statement (i : Instr) : Prop := wordWellFormed (encode i) = true

/-- A word with no operand above a format's fields is well formed. -/
theorem of_format (op a b c : Byte) (f : Format) (hf : formatOfOpcode op.toNat = some f)
    (hr : wordT op a b c &&& f.reservedBits = 0#32) : wordWellFormed (wordT op a b c) = true := by
  simp [wordWellFormed, opcodeAssigned, reservedClear, toNat_mod_256, hf, hr]

theorem reserved_y (op a : Byte) : wordT op a 0#8 0#8 &&& Format.y.reservedBits = 0#32 := by
  apply BitVec.eq_of_getLsbD_eq
  intro k hk
  rw [BitVec.getLsbD_and, wordT_getLsbD]
  interval_cases k <;> simp [Format.reservedBits]

theorem reserved_b (op : Byte) (v : Bool) :
    wordT op (0#7 ++ BitVec.ofBool v) 0#8 0#8 &&& Format.b.reservedBits = 0#32 := by
  rw [← wordB_eq]
  cases v <;> (revert op; decide)

theorem reserved_w (op : Byte) (v : Bool) (b c : Byte) :
    wordT op (0#7 ++ BitVec.ofBool v) b c &&& Format.w.reservedBits = 0#32 := by
  apply BitVec.eq_of_getLsbD_eq
  intro k hk
  rw [BitVec.getLsbD_and, wordT_getLsbD]
  cases v <;> interval_cases k <;> simp [Format.reservedBits]

theorem reset : Statement .reset := rfl
theorem writeBit (b : Bool) : Statement (.writeBit b) := by
  rw [Statement, encode, wordB_eq]
  exact of_format _ _ _ _ .b rfl (reserved_b _ _)
theorem readBit : Statement .readBit := rfl
theorem writeByte (v : Byte) : Statement (.writeByte v) := of_format _ _ _ _ .y rfl (reserved_y _ _)
theorem readByte : Statement .readByte := rfl
theorem waitLevel (level : Bool) (t : BitVec 16) : Statement (.waitLevel level t) := by
  rw [Statement, encode, wordW_eq]
  exact of_format _ _ _ _ .w rfl (reserved_w _ _ _ _)
theorem triplet (dir : Bool) : Statement (.triplet dir) := by
  rw [Statement, encode, wordB_eq]
  exact of_format _ _ _ _ .b rfl (reserved_b _ _)
theorem crcClear : Statement .crcClear := rfl
theorem crcByte (v : Byte) : Statement (.crcByte v) := of_format _ _ _ _ .y rfl (reserved_y _ _)
theorem romCheck : Statement .romCheck := rfl
theorem spCheck : Statement .spCheck := rfl
theorem selectAll : Statement .selectAll := rfl
theorem readRom : Statement .readRom := rfl
theorem selectOne : Statement .selectOne := rfl
theorem convert : Statement .convert := rfl
theorem readSp : Statement .readSp := rfl
theorem writeSp (high low config : Byte) : Statement (.writeSp high low config) :=
  of_format _ _ _ _ .t rfl (by simp [Format.reservedBits])
theorem copySp : Statement .copySp := rfl
theorem readPower : Statement .readPower := rfl
theorem searchInit : Statement .searchInit := rfl
theorem search : Statement .search := rfl
theorem searchAlarm : Statement .searchAlarm := rfl

end Sys2Proof.Laws.EncodeWellFormed
end

