-- ==== Sys2Proof/Laws/Replay.lean ====
section
/-! SUPPORT. Laws/Replay.lean: every operation acts on the line by bus primitives only, and making the same kinds of
event again, on the bus it started from, gives the bus it left (20_memory.md R75). So a claim about the history, the
environment or its draws is an induction over a list of events, not over the operations. -/

namespace Sys2Proof.Machine

/-- `events` lead from `b` to `b'`: made again they give `b'`, and they are what `b'` has on top of `b`'s history. -/
def Bus.Replays (b : Bus) (events : List BusEvent) (b' : Bus) : Prop :=
  events.foldl Bus.redo b = b' ∧ b'.history = b.history ++ events

theorem Bus.Replays.refl (b : Bus) : b.Replays [] b := ⟨rfl, by simp⟩

theorem Bus.Replays.trans {b b' b'' : Bus} {es es' : List BusEvent} (h : b.Replays es b') (h' : b'.Replays es' b'') :
    b.Replays (es ++ es') b'' := by
  obtain ⟨rfl, h2⟩ := h
  obtain ⟨rfl, h2'⟩ := h'
  exact ⟨by simp, by rw [h2', h2, List.append_assoc]⟩

/-! ## The primitives and the loops -/

theorem Bus.reset_replays (b : Bus) : b.Replays [.rst b.reset.1.1 b.reset.1.2] b.reset.2 := ⟨rfl, rfl⟩
theorem Bus.writeSlot_replays (v : Bool) (b : Bus) : b.Replays [.w v] (b.writeSlot v) := ⟨rfl, rfl⟩
theorem Bus.readSlot_replays (b : Bus) : b.Replays [.r b.readSlot.1] b.readSlot.2 := ⟨rfl, rfl⟩
theorem Bus.sample_replays (b : Bus) : b.Replays [.s b.sample.1] b.sample.2 := ⟨rfl, rfl⟩

theorem Bus.writeBits_replays (vs : List Bool) (b : Bus) : b.Replays (vs.map .w) (b.writeBits vs) := by
  induction vs generalizing b with
  | nil => exact Bus.Replays.refl b
  | cons v vs ih => exact (Bus.writeSlot_replays v b).trans (ih (b.writeSlot v))

theorem Bus.writeByte_replays (v : Byte) (b : Bus) : b.Replays ((bitsOf v).map .w) (b.writeByte v) :=
  Bus.writeBits_replays _ b

theorem Bus.writeBytes_replays (vs : List Byte) (b : Bus) :
    b.Replays (vs.flatMap fun v => (bitsOf v).map .w) (b.writeBytes vs) := by
  induction vs generalizing b with
  | nil => exact Bus.Replays.refl b
  | cons v vs ih => exact (Bus.writeByte_replays v b).trans (ih (b.writeByte v))

theorem Bus.readBits_replays (n : Nat) (b : Bus) : b.Replays ((b.readBits n).1.map .r) (b.readBits n).2 := by
  induction n generalizing b with
  | zero => exact Bus.Replays.refl b
  | succ n ih => exact (Bus.readSlot_replays b).trans (ih b.readSlot.2)

theorem Bus.readByte_replays (b : Bus) : b.Replays ((bitsOf b.readByte.1).map .r) b.readByte.2 := by
  rw [Bus.readByte, bitsOf_byteOfBits _ (by simp)]
  exact Bus.readBits_replays 8 b

theorem Bus.readBytes_replays (n : Nat) (b : Bus) :
    b.Replays ((b.readBytes n).1.flatMap fun v => (bitsOf v).map .r) (b.readBytes n).2 := by
  induction n generalizing b with
  | zero => exact Bus.Replays.refl b
  | succ n ih => exact (Bus.readByte_replays b).trans (ih b.readByte.2)

theorem Bus.waitLevel_replays (level : Bool) (n : Nat) (b : Bus) :
    ∃ es, b.Replays es (b.waitLevel level n).2 := by
  induction n generalizing b with
  | zero => exact ⟨_, Bus.Replays.refl b⟩
  | succ n ih =>
    unfold Bus.waitLevel
    split
    · exact ⟨_, Bus.sample_replays b⟩
    · obtain ⟨es, h⟩ := ih b.sample.2
      exact ⟨_, (Bus.sample_replays b).trans h⟩

theorem Bus.poll_replays (max n : Nat) (b : Bus) : ∃ es, b.Replays es (b.poll max n).2 := by
  induction max generalizing n b with
  | zero => exact ⟨_, Bus.Replays.refl b⟩
  | succ m ih =>
    unfold Bus.poll
    split
    · exact ⟨_, Bus.readSlot_replays b⟩
    · obtain ⟨es, h⟩ := ih (n + 1) b.readSlot.2
      exact ⟨_, (Bus.readSlot_replays b).trans h⟩

theorem Bus.searchFrom_replays (len : Int) (path : BitVec 64) (n i : Nat) (x : RomCode) (lz : Option Nat) (b : Bus) :
    ∃ es, b.Replays es (b.searchFrom len path n i x lz).2 := by
  induction n generalizing i x lz b with
  | zero => exact ⟨_, Bus.Replays.refl b⟩
  | succ n ih =>
    have pair := (Bus.readSlot_replays b).trans (Bus.readSlot_replays b.readSlot.2)
    rw [Bus.searchFrom_succ]
    split
    · exact ⟨_, pair⟩
    · obtain ⟨es, h⟩ := ih _ _ _ (b.readSlot.2.readSlot.2.writeSlot _)
      exact ⟨_, (pair.trans (Bus.writeSlot_replays _ _)).trans h⟩

/-! ## The operations -/

theorem State.commandAndPoll_replays (c : Byte) (s : State) :
    ∃ es b', s.bus.Replays es b' ∧ (s.commandAndPoll c).bus = b'.release := by
  obtain ⟨es, h⟩ := Bus.poll_replays s.params.pollMax 0 (s.bus.writeByte c)
  refine ⟨_, _, (Bus.writeByte_replays c s.bus).trans h, ?_⟩
  unfold State.commandAndPoll
  dsimp only
  split <;> rfl

theorem State.searchPass_replays (c : Byte) (s : State) :
    ∃ es b', s.bus.Replays es b' ∧ (s.searchPass c).bus = b'.release := by
  unfold State.searchPass
  split
  · exact ⟨_, _, Bus.Replays.refl s.bus, rfl⟩
  · obtain ⟨es, h⟩ := Bus.searchFrom_replays s.srchLen.toInt s.srchPath 64 0 0#64 none (s.bus.writeByte c)
    refine ⟨_, _, (Bus.writeByte_replays c s.bus).trans h, ?_⟩
    dsimp only
    split
    · rfl
    · split <;> rfl

/-- Every operation answers a next state, whose bus is the bus its events lead to, released (R200, R201). -/
theorem exec_replays (i : Instr) (s : State) :
    ∃ t es b', exec i s = .next t ∧ s.bus.Replays es b' ∧ t.bus = b'.release := by
  cases i with
  | reset =>
    refine ⟨_, _, _, rfl, Bus.reset_replays s.bus, ?_⟩
    dsimp only
    split <;> rfl
  | writeBit b => exact ⟨_, _, _, rfl, Bus.writeSlot_replays b s.bus, rfl⟩
  | readBit => exact ⟨_, _, _, rfl, Bus.readSlot_replays s.bus, rfl⟩
  | writeByte v => exact ⟨_, _, _, rfl, Bus.writeByte_replays v s.bus, rfl⟩
  | readByte => exact ⟨_, _, _, rfl, Bus.readByte_replays s.bus, rfl⟩
  | waitLevel level t =>
    obtain ⟨es, h⟩ := Bus.waitLevel_replays level (waitSamples t) s.bus
    exact ⟨_, es, _, rfl, h, rfl⟩
  | triplet dir =>
    have pair := (Bus.readSlot_replays s.bus).trans (Bus.readSlot_replays s.bus.readSlot.2)
    by_cases hc : pairClass s.bus.readSlot.1 s.bus.readSlot.2.readSlot.1 = .noDevice
    · exact ⟨_, _, _, rfl, pair, by simp [hc]⟩
    · exact ⟨_, _, _, rfl, pair.trans (Bus.writeSlot_replays _ _), by simp [hc]; rfl⟩
  | crcClear => exact ⟨_, _, _, rfl, Bus.Replays.refl s.bus, rfl⟩
  | crcByte v => exact ⟨_, _, _, rfl, Bus.Replays.refl s.bus, rfl⟩
  | romCheck => exact ⟨_, _, _, rfl, Bus.Replays.refl s.bus, by split <;> rfl⟩
  | spCheck => exact ⟨_, _, _, rfl, Bus.Replays.refl s.bus, by split <;> rfl⟩
  | selectAll => exact ⟨_, _, _, rfl, Bus.writeByte_replays s.params.cmds.skipRom s.bus, rfl⟩
  | readRom =>
    refine ⟨_, _, _, rfl, (Bus.writeByte_replays s.params.cmds.readRom s.bus).trans (Bus.readBytes_replays 8 _), ?_⟩
    dsimp only
    split <;> rfl
  | selectOne => exact ⟨_, _, _, rfl, (Bus.writeByte_replays s.params.cmds.matchRom s.bus).trans (Bus.writeBytes_replays (romBytes s.rom) _), rfl⟩
  | convert =>
    obtain ⟨es, b', h, he⟩ := s.commandAndPoll_replays s.params.cmds.convertT
    exact ⟨_, es, b', rfl, h, he⟩
  | readSp =>
    refine ⟨_, _, _, rfl, (Bus.writeByte_replays s.params.cmds.readSp s.bus).trans (Bus.readBytes_replays 9 _), ?_⟩
    dsimp only
    split <;> rfl
  | writeSp high low config => exact ⟨_, _, _, rfl, Bus.writeBytes_replays [s.params.cmds.writeSp, high, low, config] s.bus, rfl⟩
  | copySp =>
    obtain ⟨es, b', h, he⟩ := s.commandAndPoll_replays s.params.cmds.copySp
    exact ⟨_, es, b', rfl, h, he⟩
  | readPower => exact ⟨_, _, _, rfl, (Bus.writeByte_replays s.params.cmds.readPower s.bus).trans (Bus.readSlot_replays _), rfl⟩
  | searchInit => exact ⟨_, _, _, rfl, Bus.Replays.refl s.bus, rfl⟩
  | search =>
    obtain ⟨es, b', h, he⟩ := s.searchPass_replays s.params.cmds.searchRom
    exact ⟨_, es, b', rfl, h, he⟩
  | searchAlarm =>
    obtain ⟨es, b', h, he⟩ := s.searchPass_replays s.params.cmds.alarmSearch
    exact ⟨_, es, b', rfl, h, he⟩

end Sys2Proof.Machine
end

