-- ==== Sys2Proof/Laws/Window.lean ====
section
/-! SUPPORT. Laws/Window.lean: the register window: every register has its offset, an aligned 32-bit access acts on its
register, and what a step can do. -/

namespace Sys2Proof.Machine

/-- The register at a register's offset is that register (Table 1). -/
@[simp] theorem regAtOffset_regOffset (r : Reg) : regAtOffset (regOffset r) = some r := by
  cases r <;> rfl

/-- Offsets are multiples of 4 inside the window (R60). -/
theorem regOffset_lt (r : Reg) : regOffset r < Config.windowBytes ∧ regOffset r % 4 = 0 := by
  cases r <;> decide

/-- A 32-bit access at a register's address acts on that register (R62). -/
theorem hostAccess_reg (s : State) (r : Reg) (act : Reg → State) (hb : s.params.base % 4 = 0) :
    hostAccess (s.params.base + regOffset r) .word act s = .next (act r) := by
  obtain ⟨h1, h2⟩ := regOffset_lt r
  have ht : touchesWindow s.params.base (s.params.base + regOffset r) .word = true := by
    have hw : AccessWidth.word.bytes = 4 := rfl
    simp only [touchesWindow, hw, Bool.and_eq_true, decide_eq_true_eq]
    exact ⟨by omega, by omega⟩
  have ha : (s.params.base + regOffset r) % 4 = 0 := by omega
  simp [hostAccess, ht, ha]

/-- A host access does nothing, acts on one register, or is refused (R60, R62). -/
theorem hostAccess_cases (addr : Nat) (width : AccessWidth) (act : Reg → State) (s : State) :
    hostAccess addr width act s = .next s ∨ (∃ r, hostAccess addr width act s = .next (act r)) ∨
      hostAccess addr width act s = .refused .accessWidth ∨
      hostAccess addr width act s = .refused .misalignedAccess := by
  unfold hostAccess
  split
  · split
    · split
      · split
        · exact .inr (.inl ⟨_, rfl⟩)
        · exact .inr (.inr (.inr rfl))
      · exact .inr (.inr (.inr rfl))
    · exact .inr (.inr (.inl rfl))
  · exact .inl rfl

/-- The issue of a word to the machine (R199). -/
theorem State.issue_of_decode (w : Word) (i : Instr) (s : State) (h : decode w = some i) :
    s.issue w = { s with cmd := w, status := s.status.accepted, seq := .busy w } := by
  simp [State.issue, h]

/-- The issue of an illegal word (R105). -/
theorem State.issue_of_illegal (w : Word) (s : State) (h : decode w = none) :
    s.issue w = { s with cmd := w, status := s.status.rejected } := by
  simp [State.issue, h]

/-- What one turn can do: leave the machine, write one register, read one register, run one legal word, drop an illegal
one, or reset. -/
theorem takeTurn_cases (t : Turn) (s s' : State) (h : takeTurn t s = .next s') :
    s' = s ∨ (∃ r v, s' = s.writeReg r v) ∨
    (∃ addr r, s' = { (s.readReg r).2 with
      observed := s.observed ++ [{ addr := addr, value := (s.readReg r).1 }] }) ∨
    (∃ w i, s.seq = .busy w ∧ decode w = some i ∧ exec i s = .next s') ∨
    (∃ w, s.seq = .busy w ∧ decode w = none ∧ s' = { s with status := s.status.rejected, seq := .idle }) ∨
    (∃ made, s' = resetTurn made s) := by
  cases t with
  | write addr width v =>
    rcases hostAccess_cases addr width (fun r => s.writeReg r v) s with hc | ⟨r, hc⟩ | hc | hc <;>
      simp only [takeTurn, hostWrite, hc] at h <;> cases h
    · exact .inl rfl
    · exact .inr (.inl ⟨_, _, rfl⟩)
  | read addr width =>
    rcases hostAccess_cases addr width (fun r => { (s.readReg r).2 with
        observed := s.observed ++ [{ addr := addr, value := (s.readReg r).1 }] }) s with hc | ⟨r, hc⟩ | hc | hc <;>
      simp only [takeTurn, hostRead, hc] at h <;> cases h
    · exact .inl rfl
    · exact .inr (.inr (.inl ⟨_, _, rfl⟩))
  | sequencer =>
    simp only [takeTurn, sequencerTurn] at h
    cases hq : s.seq with
    | idle => rw [hq] at h; cases h; exact .inl rfl
    | busy w =>
      simp only [hq, runWord] at h
      cases hd : decode w with
      | none => rw [hd] at h; cases h; exact .inr (.inr (.inr (.inr (.inl ⟨w, rfl, hd, rfl⟩))))
      | some i => rw [hd] at h; exact .inr (.inr (.inr (.inl ⟨w, i, rfl, hd, h⟩)))
  | hardwareReset made => cases h; exact .inr (.inr (.inr (.inr (.inr ⟨made, rfl⟩))))

/-- A step is a turn of the state with that turn gone from its list (R69). -/
theorem step_cons (s : State) (t : Turn) (rest : List Turn) (h : s.turns = t :: rest) :
    step s = takeTurn t { s with turns := rest } := by
  simp [step, nextTurn, h]

/-- With nothing pending the sequencer moves. -/
theorem step_nil (s : State) (h : s.turns = []) : step s = takeTurn .sequencer s := by
  simp [step, nextTurn, h, takeTurn]

end Sys2Proof.Machine
end

