-- ==== Sys2Proof/Tests/Slice0.lean ====
section
/-! SUPPORT. Tests/Slice0.lean: the model's own tests. Expected results come from the spec's encodings (30_encoding.md) and
from its vectors (95_test_vectors.md), whose names stand in the docstrings; then, for each statement with hypotheses, a
named theorem that meets them all. -/

namespace Sys2Proof.Machine.Tests

/-! ## Helpers -/

/-- The check `p` holds of the state `exec` answers. -/
def after (i : Instr) (s : State) (p : State → Bool) : Bool :=
  match exec i s with
  | .next t => p t
  | .fault _ => false
  | .refused _ => false

/-- The check `p` holds of the state `step` answers. -/
def afterStep (s : State) (p : State → Bool) : Bool :=
  match step s with
  | .next t => p t
  | .fault _ => false
  | .refused _ => false

/-- The check `p` holds after a list of ops. -/
def afterOps (ops : List Instr) (s : State) (p : State → Bool) : Bool :=
  match runOps ops s with
  | .next t => p t
  | .fault _ => false
  | .refused _ => false

/-- `Script[...]` of 95_test_vectors.md: the reset state, the answers of the bus events fixed. -/
def script (answers : List Bool) : State :=
  { State.reset with
    bus := { State.reset.bus with env := { Environment.reset with answers := { known := answers, taken := 0 } } } }

/-- `RefEnv(D)` of 95_test_vectors.md. -/
def refEnv (devices : List Device) : State :=
  { State.reset with bus := { State.reset.bus with env := { Environment.reset with agent := .reference devices } } }

/-- The reset state with turns pending. -/
def withTurns (turns : List Turn) : State := { State.reset with turns := turns }

/-- The reset state running the word `w`. -/
def running (w : Word) (turns : List Turn) : State := { State.reset with cmd := w, seq := .busy w, turns := turns }

/-- A STATUS read in this state, its line sample being 1, returns `w`. -/
def statusReads (t : State) (w : Word) : Bool := t.regView true .status == w

/-- A 9-byte image, byte 0 first. -/
def image (bytes : List Byte) : Image := spOfBytes bytes

/-- Device A of 95_test_vectors.md. -/
def devA : Device :=
  { rom := 0xB4041691604CFF28#64, sp := image [0x50, 0x05, 0x4B, 0x46, 0x7F, 0xFF, 0x0C, 0x10, 0x1C], ee := 0x7F464B#24,
    power := true, alarm := false, busy := 0, st := .idle }

/-- Device B. -/
def devB : Device :=
  { devA with rom := 0x2900000000000128#64, sp := image [0x91, 0x01, 0x4B, 0x46, 0x7F, 0xFF, 0x0C, 0x10, 0x70] }

/-- Devices X0, X1, X2 (V-D1). -/
def devX0 : Device := { devA with rom := 0x4C0000000000A510#64 }
def devX1 : Device := { devA with rom := 0x360000000000A512#64 }
def devX2 : Device := { devA with rom := 0xBD0000000000A518#64 }

/-! ## WellFormed: one ill-formed term for each check -/

/-- R105, first case: opcode 0x00 is not in Table 2. -/
theorem test_wellformed_refuses_unassigned_opcode : wordWellFormed 0x00000000#32 = false := by decide
/-- R105, second case, one word of each format with a reserved bit (V-T5, V-T8, V-T15, V-E3). -/
theorem test_wellformed_refuses_reserved_bits :
    [0x00000130#32, 0x00000202#32, 0x0001CC04#32, 0x00000206#32].all (fun w => !reservedClear w) = true := by decide
/-- Format T has no reserved bit (R101). -/
theorem test_wellformed_takes_format_t : wordWellFormed 0xFFFFFF42#32 = true := by decide
/-- R102: a bit operand is 0 or 1. -/
theorem test_wellformed_refuses_bit_operand : operandsWellFormed .b [2] = false := by decide
/-- R102: a byte operand is 0..255. -/
theorem test_wellformed_refuses_byte_operand : operandsWellFormed .y [256] = false := by decide
/-- R102: the timeout is 0..65535, the level 0 or 1. -/
theorem test_wellformed_refuses_wait_operands :
    operandsWellFormed .w [1, 65536] = false ∧ operandsWellFormed .w [-1, 0] = false := by decide
/-- R102: alarm limits are −128..255, the configuration a byte. -/
theorem test_wellformed_refuses_triple_operands :
    operandsWellFormed .t [-129, 0, 0] = false ∧ operandsWellFormed .t [0, 256, 0] = false ∧
    operandsWellFormed .t [0, 0, -1] = false := by decide
/-- R108: an op with no operand takes none. -/
theorem test_wellformed_refuses_operand_count : operandsWellFormed .n [0] = false := by decide

/-! ## Decode: every constructor by a word written out from R101 and R103 -/

/-- Transport words, format by format: OP in bits 7:0, `b` in bit 8, the byte in 15:8, `T` in 31:16. -/
theorem test_decode_transport :
    decode 0b00000000000000000000000000000001#32 = some .reset ∧
    decode 0b00000000000000000000000100000010#32 = some (.writeBit true) ∧
    decode 0b00000000000000000000000000000011#32 = some .readBit ∧
    decode 0b00000000000000001100110000000100#32 = some (.writeByte 0xCC#8) ∧
    decode 0b00000000000000000000000000000101#32 = some .readByte ∧
    decode 0b00000000111100000000000100000110#32 = some (.waitLevel true 240#16) ∧
    decode 0b00000000000000000000000000000111#32 = some (.triplet false) := by decide

/-- Checksum and frame words. -/
theorem test_decode_checksum_and_frames :
    decode 0b00000000000000000000000000010000#32 = some .crcClear ∧
    decode 0b00000000000000000101111000010001#32 = some (.crcByte 0x5E#8) ∧
    decode 0b00000000000000000000000000100000#32 = some .romCheck ∧
    decode 0b00000000000000000000000000100001#32 = some .spCheck := by decide

/-- Addressing and function command words. -/
theorem test_decode_commands :
    decode 0b00000000000000000000000000110000#32 = some .selectAll ∧
    decode 0b00000000000000000000000000110001#32 = some .readRom ∧
    decode 0b00000000000000000000000000110010#32 = some .selectOne ∧
    decode 0b00000000000000000000000001000000#32 = some .convert ∧
    decode 0b00000000000000000000000001000001#32 = some .readSp ∧
    decode 0b01111111010001100100101101000010#32 = some (.writeSp 75#8 70#8 0x7F#8) ∧
    decode 0b00000000000000000000000001000011#32 = some .copySp ∧
    decode 0b00000000000000000000000001000100#32 = some .readPower := by decide

/-- Discovery words. -/
theorem test_decode_discovery :
    decode 0b00000000000000000000000001010000#32 = some .searchInit ∧
    decode 0b00000000000000000000000001010001#32 = some .search ∧
    decode 0b00000000000000000000000001010010#32 = some .searchAlarm := by decide

/-- R105: both ends of every range of unassigned opcodes, and a reserved bit in each format. -/
theorem test_decode_refuses_illegal_words :
    [0x00#32, 0x08#32, 0x0F#32, 0x12#32, 0x1F#32, 0x22#32, 0x2F#32, 0x33#32, 0x3F#32, 0x45#32, 0x4F#32, 0x53#32, 0xFF#32,
     0x00000101#32, 0x80000001#32, 0x00000202#32, 0x00010004#32, 0x00008006#32, 0x00000407#32, 0x00015E11#32].all
      (fun w => (decode w).isNone) = true := by decide

/-- The host's numbering of an opcode-table word is the command word's own (R100). -/
theorem test_decodeTableWord : decodeTableWord 32 0x00F00106 = some (.waitLevel true 240#16) := by decide

/-- The words of R108, and P7's. -/
theorem test_assemble :
    assemble ⟨"WRITE_BYTE", [0xCC]⟩ = some 0x0000CC04#32 ∧ assemble ⟨"WAIT_LEVEL", [1, 240]⟩ = some 0x00F00106#32 ∧
    assemble ⟨"WRITE_SP", [75, 70, 0x7F]⟩ = some 0x7F464B42#32 ∧ assemble ⟨"WRITE_SP", [-1, 10, 0x1F]⟩ = some 0x1F0AFF42#32 ∧
    assemble ⟨"TRIPLET", [1]⟩ = some 0x00000107#32 ∧ assemble ⟨"SEARCH", []⟩ = some 0x00000051#32 := by decide +kernel

/-- An unknown mnemonic, a missing operand, an operand out of range. -/
theorem test_assemble_refuses :
    assemble ⟨"NOP", []⟩ = none ∧ assemble ⟨"WRITE_BIT", []⟩ = none ∧ assemble ⟨"CRC_BYTE", [256]⟩ = none := by decide +kernel

/-- R108's lines as text: decimal, hex, binary and a negative alarm limit; a text that is no line. -/
theorem test_assembleText :
    assembleText "WRITE_BYTE 0xCC" = some 0x0000CC04#32 ∧ assembleText "WAIT_LEVEL 1, 240" = some 0x00F00106#32 ∧
    assembleText "WRITE_SP 75, 70, 0x7F" = some 0x7F464B42#32 ∧ assembleText "WRITE_SP -1, 0b1010, 0x1f" = some 0x1F0AFF42#32 ∧
    assembleText "SEARCH_INIT" = some 0x00000050#32 ∧ assembleText "WRITE_BYTE 0xG1" = none ∧ assembleText "CRC_BYTE 1 2" = none := by
  decide +kernel

/-! ## Transport (V-T1 to V-T20) -/

/-- V-T1, V-T3. -/
theorem test_reset_presence :
    after .reset (script [true, true]) (fun t => statusReads t 0x046#32 && t.bus.history == [.rst true true]) = true ∧
    after .reset (script [true, false]) (fun t => statusReads t 0x04E#32) = true := by decide +kernel
/-- V-T2, whatever `released` answers. -/
theorem test_reset_no_presence :
    after .reset (script [false, true]) (fun t => statusReads t 0x142#32) = true ∧
    after .reset (script [false, false]) (fun t => statusReads t 0x142#32) = true := by decide +kernel
/-- V-T4. -/
theorem test_writeBit :
    after (.writeBit true) State.reset (fun t => statusReads t 0x042#32 && t.data == 0#8 && t.bus.history == [.w true]) =
      true := by decide +kernel
/-- V-T6. -/
theorem test_readBit :
    after .readBit (script [true]) (fun t => t.data == 1#8 && t.bus.history == [.r true]) = true ∧
    after .readBit (script [false]) (fun t => t.data == 0#8) = true := by decide +kernel
/-- V-T7. -/
theorem test_writeByte :
    after (.writeByte 0xCC#8) State.reset (fun t =>
      t.bus.history == [.w false, .w false, .w true, .w true, .w false, .w false, .w true, .w true]) = true := by
  decide +kernel
/-- V-T9. -/
theorem test_readByte :
    after .readByte (script [true, false, false, false, true, false, false, true]) (fun t => t.data == 0x91#8) = true := by
  decide +kernel
/-- V-T11, V-T13. -/
theorem test_waitLevel_seen :
    after (.waitLevel true 240#16) (script [false, false, true])
      (fun t => t.data == 1#8 && t.bus.history == [.s false, .s false, .s true]) = true ∧
    after (.waitLevel false 0#16) (script [false]) (fun t => t.data == 1#8) = true := by decide +kernel
/-- V-T12, V-T14: T + 1 samples, and a timeout is no error. -/
theorem test_waitLevel_timeout :
    after (.waitLevel false 0#16) (script [true]) (fun t => t.data == 0#8 && t.bus.history == [.s true]) = true ∧
    after (.waitLevel false 2#16) (script [true, true, true])
      (fun t => statusReads t 0x042#32 && t.data == 0#8 && t.bus.history.length == 3) = true := by decide +kernel
/-- V-T16 to V-T19. -/
theorem test_triplet :
    after (.triplet true) (script [false, true]) (fun t => t.data == 0x2#8 && t.bus.history == [.r false, .r true, .w false]) = true ∧
    after (.triplet false) (script [true, false]) (fun t => t.data == 0x5#8) = true ∧
    after (.triplet false) (script [false, false]) (fun t => t.data == 0x8#8) = true ∧
    after (.triplet true) (script [false, false]) (fun t => t.data == 0xC#8) = true := by decide +kernel
/-- V-T20. -/
theorem test_triplet_protocol :
    after (.triplet true) (script [true, true])
      (fun t => t.data == 0x3#8 && statusReads t 0x242#32 && t.bus.history == [.r true, .r true]) = true := by decide +kernel

/-! ## Checksum (V-C1 to V-C3) -/

/-- V-C1. -/
theorem test_crc8_bytes :
    [0x01#8, 0x02#8, 0x04#8, 0x08#8, 0x10#8, 0x20#8, 0x40#8, 0x80#8, 0x28#8, 0x31#8, 0x8C#8, 0xFF#8].map (fun b => crc8 [b]) =
      [0x5E#8, 0xBC#8, 0x61#8, 0xC2#8, 0x9D#8, 0x23#8, 0x46#8, 0x8C#8, 0xE1#8, 0xE0#8, 0x2F#8, 0x35#8] := by decide +kernel
/-- V-C2. -/
theorem test_crc8_sequences :
    crc8 [0x28, 0xFF, 0x4C, 0x60, 0x91, 0x16, 0x04] = 0xB4#8 ∧ crc8 [0x50, 0x05, 0x4B, 0x46, 0x7F, 0xFF, 0x0C, 0x10] = 0x1C#8 ∧
    crc8 [0x02, 0x1C, 0xB8, 0x01, 0x00, 0x00, 0x00] = 0xA2#8 ∧ crc8 (List.replicate 8 0xFF#8) = 0xC9#8 := by decide +kernel
/-- V-C3. -/
theorem test_crcByte :
    after (.crcByte 0x5E#8) { State.reset with crc := 0x5E#8 } (fun t => t.crc == 0#8 && statusReads t 0x042#32) = true := by
  decide +kernel
/-- V-C3. -/
theorem test_crcClear : after .crcClear { State.reset with crc := 0x5E#8 } (fun t => t.crc == 0#8) = true := by decide +kernel

/-! ## Frames (V-F1 to V-F7) -/

/-- V-F1. -/
theorem test_decodeRom :
    decodeRom devA.rom =
      { familyCode := 0x28#8, serial := #v[0xFF#8, 0x4C#8, 0x60#8, 0x91#8, 0x16#8, 0x04#8], checksum := 0xB4#8 } ∧
    lowWord devA.rom = 0x604CFF28#32 ∧ highWord devA.rom = 0xB4041691#32 := by decide +kernel
/-- V-F2. -/
theorem test_romCheck :
    [0xB4041691604CFF28#64, 0xA200000001B81C02#64].all (fun x =>
      after .romCheck { State.reset with rom := x } (fun t => statusReads t 0x042#32 && t.rom == x)) = true ∧
    [0#64, 0xFFFFFFFFFFFFFFFF#64, 0xB4041691604CFF29#64, 0xB5041691604CFF28#64, 1#64].all (fun x =>
      after .romCheck { State.reset with rom := x } (fun t => statusReads t 0x342#32 && t.rom == x)) = true := by
  decide +kernel
/-- V-F3. -/
theorem test_spCheck :
    [devA.sp, 0#72].all (fun m => after .spCheck { State.reset with sp := m } (fun t => statusReads t 0x042#32)) = true ∧
    [image [0x50, 0x05, 0x4B, 0x46, 0x7F, 0xFF, 0x0C, 0x10, 0x1D], 0xFFFFFFFFFFFFFFFFFF#72].all (fun m =>
      after .spCheck { State.reset with sp := m } (fun t => statusReads t 0x342#32)) = true := by decide +kernel
/-- V-F7: rows 1, 2, 5, 6, 8, 9, 10, 14, 15 and 19. -/
theorem test_temperature :
    [(0x91#8, 0x01#8, 0x7F#8), (0x50#8, 0x05#8, 0x7F#8), (0x91#8, 0x01#8, 0x5F#8), (0x5E#8, 0xFF#8, 0x7F#8),
     (0x6F#8, 0xFE#8, 0x5F#8), (0x6F#8, 0xFE#8, 0x3F#8), (0x6F#8, 0xFE#8, 0x1F#8), (0x00#8, 0x80#8, 0x7F#8),
     (0xFF#8, 0x7F#8, 0x7F#8), (0x00#8, 0x00#8, 0x00#8)].map (fun b => tempWord (image [b.1, b.2.1, 0, 0, b.2.2, 0, 0, 0, 0])) =
      [0x30191#32, 0x30550#32, 0x20190#32, 0x3FF5E#32, 0x2FE6E#32, 0x1FE6C#32, 0x0FE68#32, 0x38000#32, 0x37FFF#32, 0#32] := by
  decide +kernel

/-! ## Addressing and function commands (V-A1 to V-N9) -/

/-- V-A1. -/
theorem test_selectAll :
    after .selectAll (refEnv [devA]) (fun t =>
      t.bus.history == [.w false, .w false, .w true, .w true, .w false, .w false, .w true, .w true]) = true := by decide +kernel
/-- V-A2, V-A3. -/
theorem test_readRom :
    afterOps [.reset, .readRom] (refEnv [devA]) (fun t => t.rom == devA.rom && statusReads t 0x046#32 &&
      t.bus.history.length == 73) = true ∧
    afterOps [.reset, .readRom] (refEnv []) (fun t => t.rom == 0#64 && statusReads t 0x342#32) = true := by decide +kernel
/-- V-A4, V-A5. -/
theorem test_readRom_several_devices :
    afterOps [.reset, .readRom] (refEnv [devX0, devX1]) (fun t => t.rom == 0#64 && t.status.err == .checksum) = true ∧
    afterOps [.reset, .readRom] (refEnv [{ devA with rom := 0x9E624C591550FF28#64 }, { devA with rom := 0x45D87083DAB26528#64 }])
      (fun t => t.rom == 0x0440400110106528#64 && t.status.err == .none) = true := by decide +kernel
/-- V-A6, V-A7. -/
theorem test_selectOne :
    afterOps [.reset, .selectOne, .readSp] { refEnv [devA, devB] with rom := devB.rom } (fun t =>
      t.sp == devB.sp && t.status.err == .none && tempWord t.sp == 0x30191#32 && t.bus.history.length == 153) = true ∧
    afterOps [.reset, .selectOne, .readSp] { refEnv [devA, devB] with rom := 0x128#64 } (fun t =>
      t.sp == 0#72 && t.status.err == .checksum) = true := by decide +kernel
/-- V-N1, V-N2. -/
theorem test_convert :
    afterOps [.reset, .selectAll, .convert] (refEnv [{ devA with busy := 3 }]) (fun t => t.polls == 3#32 && t.status.err == .none &&
      t.bus.history.drop 17 == [.r false, .r false, .r false, .r true]) = true ∧
    afterOps [.reset, .selectAll, .convert] (refEnv [devA]) (fun t => t.polls == 0#32) = true := by decide +kernel
/-- V-N3 and V-N4 with POLL_MAX = 4 (R8 lets a model choose it). -/
theorem test_convert_limit :
    afterOps [.reset, .selectAll, .convert] { refEnv [{ devA with busy := 20 }] with params := { Config.defaultParams with pollMax := 4 } }
      (fun t => t.polls == 4#32 && statusReads t 0x446#32 && t.bus.history.length == 21) = true ∧
    afterOps [.reset, .selectAll, .convert] { refEnv [{ devA with busy := 3 }] with params := { Config.defaultParams with pollMax := 4 } }
      (fun t => t.polls == 3#32 && t.status.err == .none) = true ∧
    Config.defaultPollMax = 14286 := by decide +kernel
/-- V-N6. -/
theorem test_readSp :
    afterOps [.reset, .selectAll, .readSp] (refEnv [devA]) (fun t => spWord0 t.sp == 0x464B0550#32 && spWord1 t.sp == 0x100CFF7F#32 &&
      spWord2 t.sp == 0x1C#32 && tempWord t.sp == 0x30550#32) = true := by decide +kernel
/-- V-N5. -/
theorem test_readSp_checksum :
    afterOps [.reset, .selectAll, .readSp]
      { refEnv [{ devA with sp := image [0x50, 0x05, 0x4B, 0x46, 0x7F, 0xFF, 0x0C, 0x10, 0x1D] }] with sp := devB.sp }
      (fun t => t.sp == devB.sp && statusReads t 0x346#32) = true := by decide +kernel
/-- V-N7: WRITE_SP leaves SP alone; the device's image and checksum follow. -/
theorem test_writeSp :
    afterOps [.reset, .selectAll, .writeSp 25#8 10#8 0x1F#8] (refEnv [devA]) (fun t => t.sp == 0#72) = true ∧
    afterOps [.reset, .selectAll, .writeSp 25#8 10#8 0x1F#8, .reset, .selectAll, .readSp] (refEnv [devA]) (fun t =>
      t.sp == image [0x50, 0x05, 0x19, 0x0A, 0x1F, 0xFF, 0x0C, 0x10, 0x04]) = true := by decide +kernel
/-- V-N8, from a device that holds 19 0A 1F already. -/
theorem test_copySp :
    afterOps [.reset, .selectAll, .copySp]
      (refEnv [{ devA with sp := image [0x50, 0x05, 0x19, 0x0A, 0x1F, 0xFF, 0x0C, 0x10, 0x04], busy := 2 }])
      (fun t => t.polls == 2#32 && t.status.err == .none &&
        match t.bus.env.agent with
        | .reference [d] => d.ee == 0x1F0A19#24
        | _ => false) = true := by decide +kernel
/-- V-N9. -/
theorem test_readPower :
    [([{ devA with power := false }], 0#8), ([devA], 1#8), ([], 1#8), ([devA, { devB with power := false }], 0#8)].all (fun c =>
      afterOps [.reset, .selectAll, .readPower] (refEnv c.1) (fun t => t.data == c.2)) = true := by decide +kernel

/-! ## Discovery (V-D1 to V-D9) -/

/-- The example of R186. -/
theorem test_searchInit :
    after .searchInit { State.reset with srchLen := 0xFFFFFFFE#32, srchPath := 5#64 }
      (fun t => t.srchLen == 0xFFFFFFFF#32 && t.srchPath == 0#64 && t.bus.history.isEmpty) = true := by decide +kernel
/-- V-D1, pass 2: the replayed 0 at position 1 is the next branch point. -/
theorem test_search_second_pass :
    afterOps [.reset, .search] { refEnv [devX0, devX1, devX2] with srchPath := devX0.rom, srchLen := 3#32 } (fun t =>
      t.rom == devX2.rom && t.srchPath == devX2.rom && t.srchLen == 1#32 && t.bus.history.length == 201) = true := by
  decide +kernel
/-- V-D9 and V-D1, pass 4. -/
theorem test_search_protocol_and_nomore :
    after .search (script [false, true, true, true]) (fun t => t.data == 1#8 && statusReads t 0x242#32 &&
      t.srchLen == 0xFFFFFFFF#32 && t.bus.history.drop 8 == [.r false, .r true, .w false, .r true, .r true]) = true ∧
    after .search { State.reset with srchLen := 0xFFFFFFFE#32 } (fun t => statusReads t 0x052#32 && t.bus.history.isEmpty) =
      true := by decide +kernel
/-- V-D6, pass 1. -/
theorem test_searchAlarm :
    afterOps [.searchInit, .reset, .searchAlarm] (refEnv [devX0, { devX1 with alarm := true }, { devX2 with alarm := true }])
      (fun t => t.rom == devX2.rom && t.srchLen == 1#32) = true := by decide +kernel
/-- V-D7. -/
theorem test_searchAlarm_no_device :
    afterOps [.searchInit, .reset, .searchAlarm] (refEnv [devX0]) (fun t => t.data == 0#8 && t.status.err == .protocol &&
      t.bus.history.drop 1 == writeSlots [0xEC#8] ++ [.r true, .r true]) = true := by decide +kernel

/-! ## Issue, window, reset (V-E1 to V-R2) -/

/-- V-E1, V-T5. -/
theorem test_issue_illegal :
    afterStep (withTurns [.write 0x04 .word 0x00000000#32]) (fun t => statusReads t 0x542#32 && t.seq == .idle) = true ∧
    afterStep (withTurns [.write 0x04 .word 0x00000202#32]) (fun t => statusReads t 0x542#32 && t.cmd == 0x202#32) = true := by
  decide +kernel
/-- V-E5. -/
theorem test_issue_legal :
    afterStep { withTurns [.write 0x04 .word 0x00000010#32] with status := { Status.reset with done := true, err := .checksum } }
      (fun t => statusReads t 0x041#32 && t.seq == .busy 0x10#32) = true := by decide +kernel
/-- V-E9, V-E10, V-E11. -/
theorem test_writes_while_busy :
    afterStep (running 0x05#32 [.write 0x14 .word 0x12345678#32]) (fun t => t.rom == 0#64 && t.status.ovr) = true ∧
    afterStep (running 0x05#32 [.write 0x04 .word 0x00000003#32]) (fun t => t.cmd == 0x05#32 && t.status.ovr) = true ∧
    afterStep (running 0x05#32 [.write 0x00 .word 0x00000001#32]) (fun t => t.ie && !t.status.ovr) = true := by decide +kernel
/-- V-E12. -/
theorem test_srchLen_writes :
    afterStep (withTurns [.write 0x34 .word 64#32]) (fun t => t.srchLen == 0xFFFFFFFF#32 && !t.status.ovr) = true ∧
    afterStep (withTurns [.write 0x34 .word 5#32]) (fun t => t.srchLen == 5#32) = true ∧
    afterStep (withTurns [.write 0x34 .word 0xFFFFFFFE#32]) (fun t => t.srchLen == 0xFFFFFFFE#32) = true := by decide +kernel
/-- V-E4, V-E7. -/
theorem test_acknowledge :
    afterStep { withTurns [.write 0x08 .word 0x22#32] with
        ie := true, status := { Status.reset with done := true, ovr := true, err := .timeout } }
      (fun t => statusReads t 0x440#32 && !t.irq) = true := by decide +kernel
/-- V-R1, read under RefEnv. -/
theorem test_reset_values :
    Reg.all.map (fun r => ((refEnv []).readReg r).1) =
      [0#32, 0#32, 0x40#32, 0#32, 0#32, 0#32, 0#32, 0#32, 0#32, 0#32, 0#32, 0#32, 0#32, 0xFFFFFFFF#32, 0#32, 0#32] := by
  decide +kernel
/-- V-R2: a READ_BYTE cut short after three slots. -/
theorem test_hardware_reset_during_an_op :
    afterStep (running 0x05#32 [.hardwareReset 3]) (fun t => t.data == 0#8 && t.seq == .idle && t.cmd == 0#32 &&
      t.bus.history.length == 3 && statusReads t 0x40#32) = true := by decide +kernel
/-- R62: an 8-bit access and an unaligned one are refused; one outside the window is not OWC's. -/
theorem test_access_widths :
    (match step (withTurns [.read 0x0C .byte]) with | .refused r => r == .accessWidth | _ => false) = true ∧
    (match step (withTurns [.write 0x0E .word 1#32]) with | .refused r => r == .misalignedAccess | _ => false) = true ∧
    afterStep (withTurns [.write 0x40 .byte 1#32]) (fun t => t == withTurns []) = true := by decide +kernel
/-- The host's fetch word runs next (CRC_BYTE 0x01, R135). -/
theorem test_withFetchWord : afterStep (State.reset.withFetchWord 32 0x00000111) (fun t => t.crc == 0x5E#8) = true := by
  decide +kernel

/-! ## The host's program notation (R110, R111) -/

/-- R111: ADDRESS and ACK. -/
theorem test_pseudo :
    hostPrims [.pseudo (.address devB.rom)] =
      [.sw .romLo (.imm 0x00000128), .sw .romHi (.imm 0x29000000)] ++ opPrims .reset ++ opPrims .selectOne ∧
    hostPrims [.pseudo .ack] = [.sw .status (.imm 0x22)] := by decide +kernel
/-- Two lines of P3: `hi <- (c << 24) | 0x041691` with c = 0xB4. -/
theorem test_host_expression :
    ({ HostState.start [] with vars := [("c", 0xB4)] }).eval (.or (.shl (.var "c") (.imm 24)) (.imm 0x041691)) =
      some 0xB4041691 := by decide +kernel

/-! ## Witnesses: for each statement with hypotheses, states and operands that meet them, at the ends of its ranges -/

/-- The devices of V-D1. -/
def walk : List Device := [devX0, devX1, devX2]

theorem participants_walk :
    participants .search walk = [0x4C0000000000A510#64, 0x360000000000A512#64, 0xBD0000000000A518#64] := rfl

theorem walk_valid : ∀ y ∈ participants .search walk, romValid y = true := by
  rw [participants_walk]
  exact List.all_eq_true.mp (show List.all [0x4C0000000000A510#64, 0x360000000000A512#64, 0xBD0000000000A518#64] romValid = true by
    decide +kernel)

/-- After its first pass the walk of V-D1 has the branch point 3. -/
theorem walk_branchPoint : isBranchPoint (participants .search walk) 0x4C0000000000A510#64 3#32 := by
  rw [participants_walk]
  refine .inl ⟨3, ⟨by decide, by decide, 0xBD0000000000A518#64, by decide, by decide, by decide⟩, ?_, rfl⟩
  intro j ⟨_, h0, y, hy, hag, h1⟩
  by_contra hlt
  simp only [List.mem_cons, List.not_mem_nil, or_false] at hy
  rcases hy with rfl | rfl | rfl
  · rw [h0] at h1
    cases h1
  · exact absurd (hag 1 (by omega)) (by decide)
  · exact absurd (hag 3 (by omega)) (by decide)

theorem meets_EncodeOfDecodeIsTheWord : decode 0x00000102#32 = some (.writeBit true) := by decide

theorem meets_AtMostOneRowMatchesAWord :
    ∃ (hj : 0 < opcodeTable.length) (hk : 21 < opcodeTable.length),
      0x00000001#32 &&& opcodeTable[0].mask = opcodeTable[0].pattern ∧
      0x00000052#32 &&& opcodeTable[21].mask = opcodeTable[21].pattern := by decide +kernel

/-- Both ends of each range of opcodes, assigned and not. -/
theorem meets_IllegalWordsAndTheirIssue :
    decode 0x00000000#32 = none ∧
    writesNext (withTurns [.write 4 .word 0#32]) .cmd 0#32 [] ∧ (withTurns [.write 4 .word 0#32]).seq = .idle ∧
    [0x01#32, 0x07#32, 0x10#32, 0x11#32, 0x20#32, 0x21#32, 0x30#32, 0x32#32, 0x40#32, 0x44#32, 0x50#32, 0x52#32,
     0x00000102#32, 0x0000FF04#32, 0xFFFF0106#32].all (fun w => (decode w).isSome) = true := by
  refine ⟨by decide, ⟨rfl, rfl⟩, rfl, by decide⟩

/-- The ends of the alarm limits' range (R102). -/
theorem meets_AssemblerMakesTheEncodedWord :
    assemble ⟨"WRITE_SP", [-128, 255, 0]⟩ = some 0x00FF8042#32 ∧ assemble ⟨"WRITE_SP", [255, -128, 255]⟩ = some 0xFF80FF42#32 ∧
    assemble ⟨"RESET", []⟩ = some 0x01#32 ∧ assemble ⟨"SEARCH_ALARM", []⟩ = some 0x52#32 := by
  decide +kernel

theorem meets_IssueOfACommandWord :
    (writesNext (withTurns [.write 4 .word 0x130#32]) .cmd 0x130#32 [] ∧ decode 0x130#32 = none) ∧
    (writesNext (withTurns [.write 4 .word 0x30#32]) .cmd 0x30#32 [] ∧ decode 0x30#32 = some .selectAll) ∧
    (writesNext (running 5#32 [.write 4 .word 3#32]) .cmd 3#32 [] ∧ (running 5#32 [.write 4 .word 3#32]).seq = .busy 5#32) := by
  refine ⟨⟨⟨rfl, rfl⟩, by decide⟩, ⟨⟨rfl, rfl⟩, by decide⟩, ⟨rfl, rfl⟩, rfl⟩

theorem meets_StepRunsTheAcceptedOperation :
    decode 5#32 = some .readByte ∧ (running 5#32 [.sequencer]).turns = [.sequencer] ∧ (running 5#32 []).turns = [] ∧
    (running 5#32 []).seq = .busy 5#32 := ⟨by decide, rfl, rfl, rfl⟩

theorem meets_CrcLaws :
    [0x28#8, 0xFF#8].length = [0x01#8, 0x80#8].length ∧ romValid devA.rom = true ∧ spValid devA.sp = true ∧ 63 < 64 ∧ 71 < 72 := by
  decide +kernel

theorem meets_ResetHandshakeResult : Instr.readBit ≠ .reset ∧ ∃ t, exec .readBit State.reset = .next t := ⟨by decide, _, rfl⟩

theorem meets_BusyPollCountsTheZeros :
    1 ≤ State.reset.params.pollMax ∧ 1 ≤ { State.reset with params := { Config.defaultParams with pollMax := 1 } }.params.pollMax ∧
    (Instr.convert = .convert ∧ 0x44#8 = State.reset.params.cmds.convertT) ∧
    (Instr.copySp = .copySp ∧ 0x48#8 = State.reset.params.cmds.copySp) := by decide

theorem meets_SearchWhenDoneReportsNoMore : { State.reset with srchLen := 0xFFFFFFFE#32 }.srchLen = 0xFFFFFFFE#32 := rfl

/-- START and both ends of the branch points (R30). -/
theorem meets_SearchPassFollowsTheBranchPoint :
    0xF0#8 = State.reset.params.cmds.searchRom ∧ 0xEC#8 = State.reset.params.cmds.alarmSearch ∧
    State.reset.srchLen ≠ 0xFFFFFFFE#32 ∧ { State.reset with srchLen := 0#32 }.srchLen ≠ 0xFFFFFFFE#32 ∧
    { State.reset with srchLen := 63#32 }.srchLen ≠ 0xFFFFFFFE#32 := by decide +kernel

/-- An error, a new ROM and a new SP. -/
theorem meets_NoOperationCommitsAnInvalidFrame :
    (∃ t, exec .romCheck State.reset = .next t ∧ State.reset.status.err = .none ∧ t.status.err ≠ .none) ∧
    (∃ t, exec .readRom (script (bitsOf devA.rom)) = .next t ∧ t.rom ≠ (script (bitsOf devA.rom)).rom) ∧
    (∃ t, exec .readSp (script (bitsOf devA.sp)) = .next t ∧ t.sp ≠ (script (bitsOf devA.sp)).sp) :=
  ⟨⟨_, rfl, rfl, by decide +kernel⟩, ⟨_, rfl, by decide +kernel⟩, ⟨_, rfl, by decide +kernel⟩⟩

/-- Every register changed by one of its writers. -/
theorem meets_RegistersHaveOnlyTheirWriters :
    (∃ t, exec .readBit (script [true]) = .next t ∧ t.data ≠ State.reset.data) ∧
    (∃ t, exec (.crcByte 1#8) State.reset = .next t ∧ t.crc ≠ State.reset.crc) ∧
    (∃ t, exec .searchInit { State.reset with srchLen := 5#32 } = .next t ∧ t.srchLen ≠ 5#32) ∧
    (∃ t, exec .convert (script [false, true]) = .next t ∧ t.polls ≠ State.reset.polls) ∧
    (∃ t, exec .reset (script [true, false]) = .next t ∧ t.status.presence ≠ State.reset.status.presence ∧
      t.status.short ≠ State.reset.status.short) ∧
    (∃ t, exec .search { State.reset with srchLen := 0xFFFFFFFE#32 } = .next t ∧ t.status.nomore ≠ false) :=
  ⟨⟨_, rfl, by decide +kernel⟩, ⟨_, rfl, by decide +kernel⟩, ⟨_, rfl, by decide +kernel⟩, ⟨_, rfl, by decide +kernel⟩,
    ⟨_, rfl, by decide +kernel⟩, ⟨_, rfl, by decide +kernel⟩⟩

/-- Each error raised once. -/
theorem meets_ErrorCodesHaveOnlyTheirRaisers :
    (∃ t, exec .reset (script [false, true]) = .next t ∧ t.status.err ≠ State.reset.status.err) ∧
    (∃ t, exec (.triplet false) (script [true, true]) = .next t ∧ t.status.err ≠ State.reset.status.err) ∧
    (∃ t, exec .romCheck State.reset = .next t ∧ t.status.err ≠ State.reset.status.err) ∧
    (∃ t, exec .copySp { script [false] with params := { Config.defaultParams with pollMax := 1 } } = .next t ∧
      t.status.err ≠ State.reset.status.err) :=
  ⟨⟨_, rfl, by decide +kernel⟩, ⟨_, rfl, by decide +kernel⟩, ⟨_, rfl, by decide +kernel⟩, ⟨_, rfl, by decide +kernel⟩⟩

/-- The first and the last word of the window. -/
theorem meets_HostReadsHaveNoSideEffect :
    readsNext (withTurns [.read 0x00 .word]) .ctrl [] ∧ readsNext (withTurns [.read 0x08 .word]) .status [] ∧
    readsNext (withTurns [.read 0x3C .word]) .reserved [] ∧
    (refEnv [devA]).bus.env.agent = .reference [devA] ∧ (refEnv [devA]).seq = .idle ∧ (refEnv [devA]).bus.drive = .float :=
  ⟨⟨rfl, rfl⟩, ⟨rfl, rfl⟩, ⟨rfl, rfl⟩, rfl, rfl, rfl⟩

/-- CMD, an RW-idle register, and SRCH_LEN at the ends of its legal and illegal values. -/
theorem meets_WritesWhileBusySetOverrun :
    writesNext (running 5#32 [.write 0x04 .word 3#32]) .cmd 3#32 [] ∧
    (writesNext (running 5#32 [.write 0x10 .word 3#32]) .crc 3#32 [] ∧ Reg.crc ∈ rwIdle) ∧
    writesNext (running 5#32 [.write 0x34 .word 63#32]) .srchLen 63#32 [] ∧ (63#32).toNat < 64 ∧
    writesNext (running 5#32 [.write 0x34 .word 64#32]) .srchLen 64#32 [] ∧
    ¬ (64#32 = 0xFFFFFFFF#32 ∨ 64#32 = 0xFFFFFFFE#32 ∨ (64#32).toNat < 64) ∧
    ¬ (0xFFFFFFFD#32 = 0xFFFFFFFF#32 ∨ 0xFFFFFFFD#32 = 0xFFFFFFFE#32 ∨ (0xFFFFFFFD#32).toNat < 64) ∧
    (running 5#32 []).seq = .busy 5#32 :=
  ⟨⟨rfl, rfl⟩, ⟨⟨rfl, rfl⟩, by decide⟩, ⟨rfl, rfl⟩, by decide, ⟨rfl, rfl⟩, by decide, by decide, rfl⟩

theorem meets_IdleWritesReadBack :
    (writesNext (withTurns [.write 0x24 .word 0xABCD#32]) .spW2 0xABCD#32 [] ∧ Reg.spW2 ∈ rwIdle) ∧
    (writesNext (withTurns [.write 0x34 .word 0#32]) .srchLen 0#32 [] ∧ Reg.srchLen ∈ rwIdle ∧ (0#32).toNat < 64) ∧
    (withTurns []).seq = .idle := ⟨⟨⟨rfl, rfl⟩, by decide⟩, ⟨⟨rfl, rfl⟩, by decide, by decide⟩, rfl⟩

/-- A read-only register, the reserved offset, and the ends of SRCH_LEN's illegal values. -/
theorem meets_IgnoredWritesChangeNothing :
    writesNext (withTurns [.write 0x0C .word 1#32]) .data 1#32 [] ∧
    writesNext (withTurns [.write 0x3C .word 1#32]) .reserved 1#32 [] ∧
    (writesNext (withTurns [.write 0x34 .word 64#32]) .srchLen 64#32 [] ∧ 64 ≤ (64#32).toNat) ∧
    (0xFFFFFFFD#32 ≠ 0xFFFFFFFF#32 ∧ 0xFFFFFFFD#32 ≠ 0xFFFFFFFE#32 ∧ 64 ≤ (0xFFFFFFFD#32).toNat) :=
  ⟨⟨rfl, rfl⟩, ⟨rfl, rfl⟩, ⟨⟨rfl, rfl⟩, by decide⟩, by decide⟩

theorem meets_ControlAndStatusWritesAreAlwaysTaken :
    writesNext (running 5#32 [.write 0x00 .word 1#32]) .ctrl 1#32 [] ∧
    writesNext (running 5#32 [.write 0x08 .word 0x22#32]) .status 0x22#32 [] := ⟨⟨rfl, rfl⟩, ⟨rfl, rfl⟩⟩

/-- The last byte below the window, the first above it, a byte at its last address, a word that straddles its start. -/
theorem meets_OnlyAlignedWordAccessesHaveAMeaning :
    (0x3FF + AccessWidth.byte.bytes ≤ 0x400 ∧ 0x400 + 0x40 ≤ 0x440) ∧
    (0x400 < 0x43F + AccessWidth.byte.bytes ∧ 0x43F < 0x400 + 0x40 ∧ AccessWidth.byte ≠ .word) ∧
    (0x400 < 0x3FD + AccessWidth.word.bytes ∧ 0x3FD < 0x400 + 0x40 ∧ 0x3FD % 4 ≠ 0) ∧
    { withTurns [.read 0x43F .byte] with params := { Config.defaultParams with base := 0x400 } }.turns = [.read 0x43F .byte] := by
  decide

theorem meets_InterruptFollowsCompletion :
    { State.reset with ie := true }.ie = true ∧
    (writesNext (withTurns [.write 4 .word 0x10#32]) .cmd 0x10#32 [] ∧ decode 0x10#32 = some .crcClear) ∧
    (writesNext (withTurns [.write 8 .word 2#32]) .status 2#32 [] ∧ (2#32).getLsbD 1 = true) :=
  ⟨rfl, ⟨⟨rfl, rfl⟩, by decide⟩, ⟨⟨rfl, rfl⟩, by decide⟩⟩

theorem meets_HardwareResetGivesTheResetValues :
    (running 5#32 [.hardwareReset 3, .sequencer]).turns = .hardwareReset 3 :: [.sequencer] := rfl

/-- A state in which an op runs, that meets the invariant, and its step. -/
theorem meets_EveryStepKeepsTheInvariant :
    (running 5#32 [.sequencer]).Inv ∧ ∃ t, step (running 5#32 [.sequencer]) = .next t := by
  refine ⟨⟨by unfold State.srchLenOk; decide, rfl, ?_, by unfold State.shortOk; decide, by unfold State.nomoreOk; decide, ?_⟩, ⟨_, rfl⟩⟩
  · intro w h
    cases h
    decide
  · intro _
    exact Nat.zero_le _

theorem meets_StepsKeepConfigurationAndExtendHistory : ∃ t, step (running 2#32 [.sequencer]) = .next t := ⟨_, rfl⟩

theorem meets_AlignedHostsNeverStopTheMachine :
    (withTurns [.write 4 .word 0x31#32, .sequencer, .read 8 .word]).params.base % 4 = 0 ∧
    ∀ t ∈ (withTurns [.write 4 .word 0x31#32, .sequencer, .read 8 .word]).turns, t.aligned := by
  refine ⟨rfl, ?_⟩
  intro t ht
  simp only [withTurns, List.mem_cons, List.not_mem_nil, or_false] at ht
  rcases ht with rfl | rfl | rfl <;> simp [Turn.aligned]

/-- As many answers fixed as the op takes, and one more. -/
theorem meets_AnswersAreTheNextDraws :
    ∃ t, exec .readBit (script [true]) = .next t ∧ (script [true]).bus.env.agent = .unconstrained ∧
      (answersOf (newEvents (script [true]) t)).length ≤ (script [true]).bus.env.answers.known.length :=
  ⟨_, rfl, rfl, by decide +kernel⟩

/-- Two environments that answer a read slot with 1: a script, and a line with no device on it. -/
theorem meets_BehaviourDependsOnlyOnTheAnswers :
    ∃ t t', exec .readBit (script [true]) = .next t ∧
      exec .readBit { script [true] with bus := { (script [true]).bus with env := (refEnv []).bus.env } } = .next t' ∧
      answersOf (newEvents (script [true]) t) =
        answersOf (newEvents { script [true] with bus := { (script [true]).bus with env := (refEnv []).bus.env } } t') :=
  ⟨_, _, rfl, rfl, by decide +kernel⟩

theorem meets_FrameOperationsDoNotTouchCrc :
    Instr.readRom ∈ [Instr.readRom, .search, .searchAlarm, .readSp, .romCheck, .spCheck] := by decide

/-- Branch point 3: paths that differ only from bit 3 on. -/
theorem meets_SearchReadsThePathOnlyBelowTheBranchPoint :
    ∀ j : Nat, j < 64 → (j : Int) < { State.reset with srchLen := 3#32, srchPath := 5#64 }.srchLen.toInt →
      (0xFFFFFFFFFFFFFFFD#64).getLsbD j = (5#64).getLsbD j := by
  intro j _ h
  have h3 : j < 3 := by
    have : (3#32).toInt = 3 := by decide
    simp only [this] at h
    omega
  interval_cases j <;> decide

theorem meets_OperationDurations :
    (∃ t, exec .readSp State.reset = .next t) ∧
    (∃ t, exec .search { State.reset with srchLen := 0xFFFFFFFE#32 } = .next t ∧ t.bus.history = []) :=
  ⟨⟨_, rfl⟩, _, rfl, rfl⟩

/-- Two devices, and the AND of their addresses. -/
theorem meets_ReadRomReadsTheAndOfAllAddresses :
    (refEnv [devX0, devX1]).params.cmds = Config.defaultCommands ∧ (refEnv [devX0, devX1]).bus.env.agent = .reference [devX0, devX1] ∧
    [devX0, devX1] ≠ [] ∧
    ∀ j < 64, (0x040000000000A510#64).getLsbD j = [devX0, devX1].all fun d => d.rom.getLsbD j :=
  ⟨rfl, rfl, by decide, by decide +kernel⟩

theorem meets_SelectedDeviceGivesItsImage :
    ∃ s : State, s.params.cmds = Config.defaultCommands ∧ s.bus.env.agent = .reference [devA, devB] ∧ devB ∈ [devA, devB] ∧
      (∀ d' ∈ [devA, devB], d'.rom = devB.rom → d'.sp = devB.sp) ∧ s.rom = devB.rom ∧ spValid devB.sp = true :=
  ⟨{ refEnv [devA, devB] with rom := devB.rom }, rfl, rfl, by decide +kernel, by decide +kernel, rfl, by decide +kernel⟩

theorem meets_WrittenLimitsAreReadBack :
    (refEnv [devA]).params.cmds = Config.defaultCommands ∧ (refEnv [devA]).bus.env.agent = .reference [devA] := ⟨rfl, rfl⟩

/-- The walk of V-D1 after its first pass. -/
theorem meets_SearchPassFindsTheNextAddress :
    ∃ s : State, s.params.cmds = Config.defaultCommands ∧ s.bus.env.agent = .reference walk ∧
      (∀ y ∈ participants .search walk, romValid y = true) ∧ 0x4C0000000000A510#64 ∈ participants .search walk ∧
      s.srchPath = 0x4C0000000000A510#64 ∧ isBranchPoint (participants .search walk) 0x4C0000000000A510#64 s.srchLen ∧
      s.srchLen ≠ 0xFFFFFFFE#32 :=
  ⟨{ refEnv walk with srchPath := 0x4C0000000000A510#64, srchLen := 3#32 }, rfl, rfl, walk_valid,
    by rw [participants_walk]; decide, rfl, walk_branchPoint, by decide⟩

theorem meets_DiscoveryFindsEveryAddressOnceInOrder :
    (refEnv walk).params.cmds = Config.defaultCommands ∧ (refEnv walk).bus.env.agent = .reference walk ∧
    (participants .search walk).Nodup ∧ participants .search walk ≠ [] ∧
    (∀ y ∈ participants .search walk, romValid y = true) ∧
    (refEnv walk).status.err = .none ∧ (refEnv walk).status.nomore = false :=
  ⟨rfl, rfl, by rw [participants_walk]; decide, by rw [participants_walk]; decide, walk_valid, rfl, rfl⟩

/-- A host at an op line, idle; and a host at a wait, an op running. -/
theorem meets_OpLineRunsTheOperationAndWaits :
    (State.reset.params.base % 4 = 0 ∧ (HostState.start [.op .reset]).status = .running ∧ State.reset.seq = .idle ∧
      (HostState.start [.op .reset]).program = [] ++ opPrims .reset ++ []) ∧
    ((running 5#32 []).seq = .busy 5#32 ∧ (HostState.start [.wait]).program = [] ++ waitPrims ++ []) :=
  ⟨⟨rfl, rfl, rfl, by decide +kernel⟩, rfl, by decide +kernel⟩

end Sys2Proof.Machine.Tests
end

section
/-! PROOF. What a step can do to the parameters (R7), the bus history (R75) and the host's list of observations: nothing
to the first, and an extension of the other two. -/

namespace Sys2Proof.Machine

/-! ## What operations and register accesses leave of the host's side -/

/-- The parameters and the host's side of the window are the same in both states. -/
def State.SameHost (s t : State) : Prop :=
  t.params = s.params ∧ t.turns = s.turns ∧ t.observed = s.observed

theorem State.commandAndPoll_sameHost (c : Byte) (s : State) : s.SameHost (s.commandAndPoll c) := by
  unfold State.commandAndPoll
  dsimp only
  split <;> exact ⟨rfl, rfl, rfl⟩

theorem State.searchPass_sameHost (c : Byte) (s : State) : s.SameHost (s.searchPass c) := by
  unfold State.searchPass
  dsimp only
  split
  · exact ⟨rfl, rfl, rfl⟩
  · split
    · exact ⟨rfl, rfl, rfl⟩
    · split <;> exact ⟨rfl, rfl, rfl⟩

/-- No operation acts on the parameters or on the host's side of the window (R200, R201). -/
theorem exec_sameHost (i : Instr) (s t : State) (h : exec i s = .next t) : s.SameHost t := by
  cases i with
  | writeBit | readBit | writeByte | readByte | waitLevel | crcClear | crcByte | selectAll | selectOne | writeSp
  | readPower | searchInit =>
    obtain rfl := Host.Outcome.next.inj h
    exact ⟨rfl, rfl, rfl⟩
  | romCheck | spCheck =>
    obtain rfl := Host.Outcome.next.inj h
    split <;> exact ⟨rfl, rfl, rfl⟩
  | reset | triplet | readRom | readSp =>
    obtain rfl := Host.Outcome.next.inj h
    dsimp only
    split <;> exact ⟨rfl, rfl, rfl⟩
  | convert | copySp =>
    obtain rfl := Host.Outcome.next.inj h
    exact s.commandAndPoll_sameHost _
  | search | searchAlarm =>
    obtain rfl := Host.Outcome.next.inj h
    exact s.searchPass_sameHost _

/-- What every operation appends to the history is its events (R75). -/
theorem exec_history (i : Instr) (s t : State) (h : exec i s = .next t) : s.bus.history <+: t.bus.history := by
  obtain ⟨t', es, b', ht, ⟨-, hes⟩, hb⟩ := exec_replays i s
  obtain rfl := Host.Outcome.next.inj (ht.symm.trans h)
  exact ⟨es, by rw [hb, Bus.release_history, hes]⟩

/-- A write taken only while idle leaves the host's side and the bus alone if the write it guards does. -/
theorem State.whenIdle_sameHost_bus {s t : State} (h : s.SameHost t ∧ t.bus = s.bus) :
    s.SameHost (s.whenIdle t) ∧ (s.whenIdle t).bus = s.bus := by
  unfold State.whenIdle
  split
  · exact ⟨⟨rfl, rfl, rfl⟩, rfl⟩
  · exact h

theorem State.issue_sameHost_bus (w : Word) (s : State) : s.SameHost (s.issue w) ∧ (s.issue w).bus = s.bus := by
  unfold State.issue
  split <;> exact ⟨⟨rfl, rfl, rfl⟩, rfl⟩

/-- A register write acts on OWC's registers only (R65). -/
theorem State.writeReg_sameHost_bus (r : Reg) (v : Word) (s : State) :
    s.SameHost (s.writeReg r v) ∧ (s.writeReg r v).bus = s.bus := by
  cases r with
  | ctrl | status | data | temp | polls | reserved => exact ⟨⟨rfl, rfl, rfl⟩, rfl⟩
  | cmd => exact State.whenIdle_sameHost_bus (s.issue_sameHost_bus v)
  | crc | romLo | romHi | spW0 | spW1 | spW2 | srchPathLo | srchPathHi =>
    exact State.whenIdle_sameHost_bus ⟨⟨rfl, rfl, rfl⟩, rfl⟩
  | srchLen =>
    unfold State.writeReg
    dsimp only
    split
    · exact State.whenIdle_sameHost_bus ⟨⟨rfl, rfl, rfl⟩, rfl⟩
    · exact ⟨⟨rfl, rfl, rfl⟩, rfl⟩

/-- A register read makes no bus event; the sample that STATUS draws is none (R23, R64). -/
theorem State.readReg_sameHost_history (r : Reg) (s : State) :
    s.SameHost (s.readReg r).2 ∧ (s.readReg r).2.bus.history = s.bus.history := by
  cases r <;> exact ⟨⟨rfl, rfl, rfl⟩, rfl⟩

/-! ## The history of an op cut short (R77, R221) -/

theorem Bus.redo_history (b : Bus) (e : BusEvent) : ∃ e', (b.redo e).history = b.history ++ [e'] := by
  cases e <;> exact ⟨_, rfl⟩

theorem Bus.foldl_redo_history (es : List BusEvent) (b : Bus) : b.history <+: (es.foldl Bus.redo b).history := by
  induction es generalizing b with
  | nil => exact List.prefix_rfl
  | cons e es ih =>
    obtain ⟨e', he⟩ := b.redo_history e
    have hstep : b.history <+: (b.redo e).history := by
      rw [he]
      exact List.prefix_append _ _
    exact hstep.trans (ih (b.redo e))

theorem Bus.abandon_history (events : List BusEvent) (made : Nat) (b : Bus) :
    b.history <+: (b.abandon events made).history :=
  Bus.foldl_redo_history (events.take made) b

/-! ## One step -/

/-- `t` has the parameters of `s`, and its two records start with those of `s`. -/
def State.Extends (s t : State) : Prop :=
  t.params = s.params ∧ s.bus.history <+: t.bus.history ∧ s.observed <+: t.observed

theorem State.SameHost.extends_of_history {s t : State} (h : s.SameHost t) (hb : s.bus.history <+: t.bus.history) :
    s.Extends t := by
  obtain ⟨hp, -, ho⟩ := h
  exact ⟨hp, hb, ho ▸ List.prefix_rfl⟩

theorem resetTurn_extends (made : Nat) (s : State) : s.Extends (resetTurn made s) :=
  ⟨rfl, Bus.abandon_history (pendingEvents s) made s.bus, List.prefix_rfl⟩

theorem takeTurn_extends (t : Turn) (s s' : State) (h : takeTurn t s = .next s') : s.Extends s' := by
  rcases takeTurn_cases t s s' h with rfl | ⟨r, v, rfl⟩ | ⟨addr, r, rfl⟩ | ⟨w, i, -, -, hexec⟩ | ⟨w, -, -, rfl⟩ |
    ⟨made, rfl⟩
  · exact ⟨rfl, List.prefix_rfl, List.prefix_rfl⟩
  · obtain ⟨hs, hb⟩ := s.writeReg_sameHost_bus r v
    exact hs.extends_of_history (hb ▸ List.prefix_rfl)
  · obtain ⟨⟨hp, -, -⟩, hh⟩ := s.readReg_sameHost_history r
    exact ⟨hp, hh ▸ List.prefix_rfl, List.prefix_append _ _⟩
  · exact (exec_sameHost i s s' hexec).extends_of_history (exec_history i s s' hexec)
  · exact ⟨rfl, List.prefix_rfl, List.prefix_rfl⟩
  · exact resetTurn_extends made s

/-- Taking a turn off the list of pending turns changes neither the parameters nor the records (R69). -/
theorem step_extends (s t : State) (h : step s = .next t) : s.Extends t := by
  cases hturns : s.turns with
  | nil =>
    rw [step_nil s hturns] at h
    exact takeTurn_extends _ s t h
  | cons turn rest =>
    rw [step_cons s turn rest hturns] at h
    exact takeTurn_extends turn { s with turns := rest } t h

/-- Settles O45: it holds, since every turn leaves the parameters alone and extends the two records. -/
theorem stepsKeepConfigurationAndExtendHistory : Obligations.StepsKeepConfigurationAndExtendHistory := by
  intro s t h
  obtain ⟨hparams, ⟨events, hevents⟩, ⟨seen, hseen⟩⟩ := step_extends s t h
  exact ⟨hparams, ⟨events, hevents.symm⟩, ⟨seen, hseen.symm⟩⟩

end Sys2Proof.Machine
end

section
/-! PROOF. How an op ends: which update of STATUS it makes, and which registers it writes. -/

namespace Sys2Proof.Machine

/-! ## The update of STATUS -/

/-- What the end of an op makes of STATUS: it completes or raises an error (R200, R201); a handshake gives its result
first (R112); and a search in the DONE state reports NOMORE (R188). -/
inductive StatusEnd : Instr → (Status → Status) → Prop where
  | completed (i : Instr) : StatusEnd i Status.completed
  | raised (i : Instr) (code : ErrorCode) : StatusEnd i (Status.raised code)
  | presence (released : Bool) : StatusEnd .reset fun st => (st.handshake true released).completed
  | noPresence (released : Bool) : StatusEnd .reset fun st => (st.handshake false released).raised .bus
  | noMore {i : Instr} (h : i = .search ∨ i = .searchAlarm) :
      StatusEnd i fun st => Status.completed { st with nomore := true }

/-- The state with other flags: STATUS and CTRL.IE (R33). -/
def State.withFlags (st : Status) (ie : Bool) (s : State) : State := { s with status := st, ie := ie }

/-- Two ends of an op, one of which a condition that reads no flag picks, are an end of it. -/
theorem StatusEnd.ite {i : Instr} {f g : Status → Status} (hf : StatusEnd i f) (hg : StatusEnd i g) (c : Prop)
    [Decidable c] (t u : State) :
    ∃ e, StatusEnd i e ∧ ∀ st ie, (if c then t.withFlags (f st) ie else u.withFlags (g st) ie) =
      (if c then t else u).withFlags (e st) ie := by
  split
  · exact ⟨f, hf, fun _ _ => rfl⟩
  · exact ⟨g, hg, fun _ _ => rfl⟩

/-- The busy poll completes or times out, from all flags alike (R33, R169). -/
theorem State.commandAndPoll_withFlags (i : Instr) (c : Byte) (s : State) :
    ∃ f, StatusEnd i f ∧
      ∀ st ie, (s.withFlags st ie).commandAndPoll c = (s.commandAndPoll c).withFlags (f st) ie := by
  cases hr : ((s.bus.writeByte c).poll s.params.pollMax 0).1 with
  | some n =>
    exact ⟨_, .completed i, fun st ie => by simp only [State.commandAndPoll, State.withFlags, hr]; rfl⟩
  | none =>
    exact ⟨_, .raised i .timeout, fun st ie => by simp only [State.commandAndPoll, State.withFlags, hr]; rfl⟩

/-- A discovery pass has one of its four ends, from all flags alike (R33, R188). -/
theorem State.searchPass_withFlags (i : Instr) (hi : i = .search ∨ i = .searchAlarm) (c : Byte) (s : State) :
    ∃ f, StatusEnd i f ∧ ∀ st ie, (s.withFlags st ie).searchPass c = (s.searchPass c).withFlags (f st) ie := by
  by_cases hd : s.srchLen = srchDone
  · exact ⟨_, .noMore hi, fun st ie => by simp only [State.searchPass, State.withFlags, hd, if_true]; rfl⟩
  cases hr : ((s.bus.writeByte c).searchFrom s.srchLen.toInt s.srchPath 64 0 0#64 none).1 with
  | noDevice n =>
    exact ⟨_, .raised i .protocol, fun st ie => by
      simp only [State.searchPass, State.withFlags, hd, if_false, hr]; rfl⟩
  | found x lz =>
    let b := ((s.bus.writeByte c).searchFrom s.srchLen.toInt s.srchPath 64 0 0#64 none).2
    obtain ⟨f, hf, hrun⟩ := (StatusEnd.completed i).ite (.raised i .checksum) (romValid x = true)
      { s with bus := b, rom := x, srchPath := x, srchLen := nextBranch lz }.complete
      ({ s with bus := b }.raiseError .checksum)
    refine ⟨f, hf, fun st ie => ?_⟩
    simp only [State.searchPass, State.withFlags, hd, if_false, hr]
    exact hrun st ie

/-- Every op makes one of the updates of `StatusEnd`, the same from all flags, and reads no flag (R33, R200, R201). -/
theorem exec_withFlags (i : Instr) (s t : State) (h : exec i s = .next t) :
    ∃ f, StatusEnd i f ∧ ∀ st ie, exec i (s.withFlags st ie) = .next (t.withFlags (f st) ie) := by
  cases i with
  | writeBit | readBit | writeByte | readByte | waitLevel | crcClear | crcByte | selectAll | selectOne | writeSp
  | readPower | searchInit =>
    obtain rfl := Host.Outcome.next.inj h
    exact ⟨_, .completed _, fun _ _ => rfl⟩
  | reset =>
    obtain rfl := Host.Outcome.next.inj h
    cases hp : s.bus.reset.1.1 with
    | true =>
      exact ⟨_, .presence s.bus.reset.1.2, fun _ _ => by simp only [exec, execReset, State.withFlags, hp]; rfl⟩
    | false =>
      exact ⟨_, .noPresence s.bus.reset.1.2, fun _ _ => by simp only [exec, execReset, State.withFlags, hp]; rfl⟩
  | triplet dir =>
    obtain rfl := Host.Outcome.next.inj h
    by_cases hc : pairClass s.bus.readSlot.1 s.bus.readSlot.2.readSlot.1 = .noDevice
    · exact ⟨_, .raised _ .protocol, fun _ _ => by simp only [exec, execTriplet, State.withFlags, hc]; rfl⟩
    · exact ⟨_, .completed _, fun _ _ => by simp only [exec, execTriplet, State.withFlags, hc]; rfl⟩
  | romCheck =>
    obtain rfl := Host.Outcome.next.inj h
    obtain ⟨f, hf, hrun⟩ := (StatusEnd.completed .romCheck).ite (.raised _ .checksum) (romValid s.rom = true)
      s.complete (s.raiseError .checksum)
    exact ⟨f, hf, fun st ie => congrArg Host.Outcome.next (hrun st ie)⟩
  | spCheck =>
    obtain rfl := Host.Outcome.next.inj h
    obtain ⟨f, hf, hrun⟩ := (StatusEnd.completed .spCheck).ite (.raised _ .checksum) (spValid s.sp = true)
      s.complete (s.raiseError .checksum)
    exact ⟨f, hf, fun st ie => congrArg Host.Outcome.next (hrun st ie)⟩
  | readRom =>
    obtain rfl := Host.Outcome.next.inj h
    let r := (s.bus.writeByte s.params.cmds.readRom).readBytes 8
    obtain ⟨f, hf, hrun⟩ := (StatusEnd.completed .readRom).ite (.raised _ .checksum)
      (romValid (romOfBytes r.1) = true)
      { s with bus := r.2, rom := romOfBytes r.1 }.complete ({ s with bus := r.2 }.raiseError .checksum)
    exact ⟨f, hf, fun st ie => congrArg Host.Outcome.next (hrun st ie)⟩
  | readSp =>
    obtain rfl := Host.Outcome.next.inj h
    let r := (s.bus.writeByte s.params.cmds.readSp).readBytes 9
    obtain ⟨f, hf, hrun⟩ := (StatusEnd.completed .readSp).ite (.raised _ .checksum)
      (spValid (spOfBytes r.1) = true)
      { s with bus := r.2, sp := spOfBytes r.1 }.complete ({ s with bus := r.2 }.raiseError .checksum)
    exact ⟨f, hf, fun st ie => congrArg Host.Outcome.next (hrun st ie)⟩
  | convert =>
    obtain rfl := Host.Outcome.next.inj h
    obtain ⟨f, hf, hrun⟩ := s.commandAndPoll_withFlags .convert s.params.cmds.convertT
    exact ⟨f, hf, fun st ie => congrArg Host.Outcome.next (hrun st ie)⟩
  | copySp =>
    obtain rfl := Host.Outcome.next.inj h
    obtain ⟨f, hf, hrun⟩ := s.commandAndPoll_withFlags .copySp s.params.cmds.copySp
    exact ⟨f, hf, fun st ie => congrArg Host.Outcome.next (hrun st ie)⟩
  | search =>
    obtain rfl := Host.Outcome.next.inj h
    obtain ⟨f, hf, hrun⟩ := s.searchPass_withFlags .search (.inl rfl) s.params.cmds.searchRom
    exact ⟨f, hf, fun st ie => congrArg Host.Outcome.next (hrun st ie)⟩
  | searchAlarm =>
    obtain rfl := Host.Outcome.next.inj h
    obtain ⟨f, hf, hrun⟩ := s.searchPass_withFlags .searchAlarm (.inr rfl) s.params.cmds.alarmSearch
    exact ⟨f, hf, fun st ie => congrArg Host.Outcome.next (hrun st ie)⟩

/-- STATUS and IE after an op. -/
theorem exec_flags (i : Instr) (s t : State) (h : exec i s = .next t) :
    t.ie = s.ie ∧ ∃ f, StatusEnd i f ∧ t.status = f s.status := by
  obtain ⟨f, hf, hrun⟩ := exec_withFlags i s t h
  have ht : t = t.withFlags (f s.status) s.ie := Host.Outcome.next.inj (h.symm.trans (hrun s.status s.ie))
  rw [ht]
  exact ⟨rfl, f, hf, rfl⟩

/-- An end of an op sets DONE (R200, R201). -/
theorem StatusEnd.done {i : Instr} {f : Status → Status} (hf : StatusEnd i f) (st : Status) : (f st).done = true := by
  cases hf <;> rfl

/-- Settles O50: it holds, since an op makes the same update of STATUS from all flags and writes nothing else by
them. -/
theorem noOperationReadsAFlag : Obligations.NoOperationReadsAFlag := by
  intro i s st ie
  obtain ⟨t, -, -, ht, -, -⟩ := exec_replays i s
  obtain ⟨f, hf, hrun⟩ := exec_withFlags i s t ht
  have hs : t = t.withFlags (f s.status) s.ie := Host.Outcome.next.inj (ht.symm.trans (hrun s.status s.ie))
  refine ⟨t, _, ht, hrun st ie, rfl, ?_⟩
  rw [hs]
  cases hf <;> simp [State.withFlags]

/-! ## Registers -/

/-- A command byte and the busy poll: POLLS gets a count of at most `POLL_MAX`, and the op completes or times out
(R169). -/
theorem State.commandAndPoll_cases (c : Byte) (s : State) : ∃ b n, n ≤ s.params.pollMax ∧
    (s.commandAndPoll c = { s with bus := b, polls := BitVec.ofNat 32 n }.complete ∨
      s.commandAndPoll c = { s with bus := b, polls := BitVec.ofNat 32 n }.raiseError .timeout) := by
  rcases Bus.poll_cases s.params.pollMax 0 (s.bus.writeByte c) with ⟨k, hk, hr, -⟩ | ⟨hr, -⟩
  · exact ⟨_, 0 + k, by omega, .inl (by simp only [State.commandAndPoll, hr]; rfl)⟩
  · exact ⟨_, _, le_rfl, .inr (by simp only [State.commandAndPoll, hr]; rfl)⟩

/-- The branch point that a pass over all positions leaves is a legal value of SRCH_LEN (R30, R188). -/
theorem Bus.searchFrom_nextBranch_legal (len : Int) (path : BitVec 64) (b b' : Bus) (x : RomCode) (lz : Option Nat)
    (h : b.searchFrom len path 64 0 0#64 none = (.found x lz, b')) : srchLenLegal (nextBranch lz) = true := by
  obtain ⟨b0, b1, hr⟩ := b.searchFrom_cases len path 64 0 0#64 none
  rw [h] at hr
  rcases hr with ⟨m, -, -, -, -, hno, -⟩ | ⟨-, -, hfound⟩
  · cases hno
  · obtain ⟨-, rfl⟩ := SearchEnd.found.inj hfound
    rcases lastZero_cases (fun k => pairClass (b0 k) (b1 k))
        (fun k => (pairClass (b0 k) (b1 k)).choose (collisionChoice len path (0 + k))) 64 with
      ⟨k, hk, -, -, hlast, -⟩ | ⟨hlast, -⟩
    · rw [hlast]
      simp [nextBranch, srchLenLegal]
      omega
    · rw [hlast]
      rfl

/-- A discovery pass reports NOMORE, finds an address and a branch point, or ends in PROTOCOL or CHECKSUM (R188). -/
theorem State.searchPass_cases (c : Byte) (s : State) :
    s.searchPass c = { s with status := { s.status with nomore := true } }.complete ∨
    (∃ b n, s.searchPass c = { s with bus := b, data := BitVec.ofNat 8 n }.raiseError .protocol) ∨
    (∃ b x len, romValid x = true ∧ srchLenLegal len = true ∧
      s.searchPass c = { s with bus := b, rom := x, srchPath := x, srchLen := len }.complete) ∨
    ∃ b, s.searchPass c = { s with bus := b }.raiseError .checksum := by
  unfold State.searchPass
  split
  · exact .inl rfl
  generalize hr : (s.bus.writeByte c).searchFrom s.srchLen.toInt s.srchPath 64 0 0#64 none = r
  obtain ⟨⟨x, lz⟩ | n, b⟩ := r
  · dsimp only
    split
    next hv => exact .inr (.inr (.inl ⟨b, x, _, hv, Bus.searchFrom_nextBranch_legal _ _ _ _ _ _ hr, rfl⟩))
    next => exact .inr (.inr (.inr ⟨b, rfl⟩))
  · exact .inr (.inl ⟨b, n, rfl⟩)

/-- CONVERT and COPY_SP are the busy poll, with their command byte (R170, R176). -/
theorem exec_poll {i : Instr} (hi : i = .convert ∨ i = .copySp) {s t : State} (h : exec i s = .next t) :
    ∃ c, t = s.commandAndPoll c := by
  rcases hi with rfl | rfl <;> exact ⟨_, (Host.Outcome.next.inj h).symm⟩

/-- SEARCH and SEARCH_ALARM are the discovery pass, with their command byte (R188, R190). -/
theorem exec_pass {i : Instr} (hi : i = .search ∨ i = .searchAlarm) {s t : State} (h : exec i s = .next t) :
    ∃ c, t = s.searchPass c := by
  rcases hi with rfl | rfl <;> exact ⟨_, (Host.Outcome.next.inj h).symm⟩

/-- Every op ends with SEQ idle (R200, R201). -/
theorem exec_seq (i : Instr) (s t : State) (h : exec i s = .next t) : t.seq = .idle := by
  cases i with
  | writeBit | readBit | writeByte | readByte | waitLevel | crcClear | crcByte | selectAll | selectOne | writeSp
  | readPower | searchInit =>
    obtain rfl := Host.Outcome.next.inj h
    rfl
  | romCheck | spCheck =>
    obtain rfl := Host.Outcome.next.inj h
    split <;> rfl
  | reset | triplet | readRom | readSp =>
    obtain rfl := Host.Outcome.next.inj h
    dsimp only
    split <;> rfl
  | convert | copySp =>
    obtain ⟨c, rfl⟩ := exec_poll (by simp) h
    obtain ⟨b, n, -, hc | hc⟩ := s.commandAndPoll_cases c
    all_goals rw [hc]; rfl
  | search | searchAlarm =>
    obtain ⟨c, rfl⟩ := exec_pass (by simp) h
    obtain hc | ⟨b, n, hc⟩ | ⟨b, x, len, -, -, hc⟩ | ⟨b, hc⟩ := s.searchPass_cases c
    all_goals rw [hc]; rfl

/-- Settles O32: it holds, since an op's staged writes are to its own registers and its end writes STATUS, SEQ and the
line. -/
theorem registersHaveOnlyTheirWriters : Obligations.RegistersHaveOnlyTheirWriters := by
  intro i s t h
  cases i with
  | writeBit | readBit | writeByte | readByte | waitLevel | crcClear | crcByte | selectAll | selectOne | writeSp
  | readPower | searchInit =>
    obtain rfl := Host.Outcome.next.inj h
    simp
  | romCheck | spCheck =>
    obtain rfl := Host.Outcome.next.inj h
    split <;> simp
  | reset | triplet | readRom | readSp =>
    obtain rfl := Host.Outcome.next.inj h
    dsimp only
    split <;> simp
  | convert | copySp =>
    obtain ⟨c, rfl⟩ := exec_poll (by simp) h
    obtain ⟨b, n, -, hc | hc⟩ := s.commandAndPoll_cases c
    all_goals simp [hc]
  | search | searchAlarm =>
    obtain ⟨c, rfl⟩ := exec_pass (by simp) h
    obtain hc | ⟨b, n, hc⟩ | ⟨b, x, len, -, -, hc⟩ | ⟨b, hc⟩ := s.searchPass_cases c
    all_goals simp [hc]

end Sys2Proof.Machine
end

section
/-! PROOF. The invariant of Safety.lean: it holds after a reset, and every turn keeps it. -/

namespace Sys2Proof.Machine

/-! ## Turns of the host and of the reset input -/

/-- The invariant is about these parts of the state. -/
theorem State.Inv.congr {s t : State} (h : s.Inv) (hlen : t.srchLen = s.srchLen) (hdrive : t.bus.drive = s.bus.drive)
    (hseq : t.seq = s.seq) (hcmd : t.cmd = s.cmd) (hstatus : t.status = s.status) (hparams : t.params = s.params)
    (hpolls : t.polls = s.polls) : t.Inv := by
  obtain ⟨h1, h2, h3, h4, h5, h6⟩ := h
  constructor
  · rwa [State.srchLenOk, hlen]
  · rwa [State.lineReleased, hdrive]
  · rwa [State.inFlightOk, hseq, hcmd, hstatus]
  · rwa [State.shortOk, hstatus]
  · rwa [State.nomoreOk, hstatus]
  · rwa [State.pollsOk, hparams, hpolls]

/-- A hardware reset establishes the invariant (R50, R220). -/
theorem State.hardwareReset_inv (s : State) : s.hardwareReset.Inv where
  srchLen := (by decide : srchLenLegal srchStart = true)
  released := rfl
  inFlight := fun _ h => nomatch h
  short := fun h => nomatch h
  nomore := fun h => nomatch h
  polls := fun _ => Nat.zero_le _

/-- Settles O43: it holds, the reset state being its own hardware reset. -/
theorem resetStateMeetsTheInvariant : Obligations.ResetStateMeetsTheInvariant :=
  State.hardwareReset_inv State.reset

/-- A write taken only while idle keeps the invariant if the write it guards does (R66, R67). -/
theorem State.Inv.whenIdle {s t : State} (h : s.Inv) (ht : s.seq = .idle → t.Inv) : (s.whenIdle t).Inv := by
  unfold State.whenIdle
  split
  next => exact ⟨h.srchLen, h.released, h.inFlight, h.short, h.nomore, h.polls⟩
  next hb => exact ht (s.busy_eq_false_iff.mp (by simpa using hb))

/-- The issue of a word puts a legal one in flight and completes an illegal one (R199). -/
theorem State.Inv.issue {s : State} (h : s.Inv) (hidle : s.seq = .idle) (w : Word) : (s.issue w).Inv := by
  cases hd : decode w with
  | none =>
    rw [s.issue_of_illegal w hd]
    have hidle' : ∀ v, s.seq ≠ .busy v := fun v hv => nomatch hidle.symm.trans hv
    exact ⟨h.srchLen, h.released, fun v hv => absurd hv (hidle' v), h.short, fun hn => (nomatch hn), h.polls⟩
  | some i =>
    rw [s.issue_of_decode w i hd]
    refine ⟨h.srchLen, h.released, fun v hv => ?_, h.short, fun hn => (nomatch hn), h.polls⟩
    cases hv
    exact ⟨rfl, by rw [hd]; rfl, rfl, rfl, rfl⟩

/-- W1C writes of STATUS leave an op in flight with DONE clear (R23). -/
theorem State.Inv.acknowledge {s : State} (h : s.Inv) (v : Word) : { s with status := s.status.acknowledge v }.Inv := by
  refine ⟨h.srchLen, h.released, fun w hw => ?_, h.short, h.nomore, h.polls⟩
  obtain ⟨hcmd, hlegal, hdone, hnomore, herr⟩ := h.inFlight w hw
  exact ⟨hcmd, hlegal, by simp [hdone], hnomore, herr⟩

/-- A host write keeps the invariant (R65). -/
theorem State.Inv.writeReg {s : State} (h : s.Inv) (r : Reg) (v : Word) : (s.writeReg r v).Inv := by
  cases r with
  | data | temp | polls | reserved => exact h
  | ctrl => exact h.congr rfl rfl rfl rfl rfl rfl rfl
  | status => exact h.acknowledge v
  | cmd => exact h.whenIdle fun hidle => h.issue hidle v
  | crc | romLo | romHi | spW0 | spW1 | spW2 | srchPathLo | srchPathHi =>
    exact h.whenIdle fun _ => h.congr rfl rfl rfl rfl rfl rfl rfl
  | srchLen =>
    unfold State.writeReg
    dsimp only
    split
    next hlegal => exact h.whenIdle fun _ => ⟨hlegal, h.released, h.inFlight, h.short, h.nomore, h.polls⟩
    next => exact h

/-- A host read changes only the levels that STATUS reads draw (R64). -/
theorem State.Inv.readReg {s : State} (h : s.Inv) (r : Reg) : (s.readReg r).2.Inv := by
  cases r with
  | status => exact h.congr rfl rfl rfl rfl rfl rfl rfl
  | _ => exact h

/-! ## The sequencer's turn -/

/-- An op leaves SRCH_LEN as it was, or at START or the branch point of its pass (R30, R186, R188). -/
theorem exec_srchLenOk {i : Instr} {s t : State} (hs : s.srchLenOk) (h : exec i s = .next t) : t.srchLenOk := by
  by_cases hne : t.srchLen = s.srchLen
  · rwa [State.srchLenOk, hne]
  obtain ⟨-, -, -, -, hwriters, -⟩ := registersHaveOnlyTheirWriters i s t h
  rcases hwriters (.inr hne) with rfl | hi
  · obtain rfl := Host.Outcome.next.inj h
    exact State.reset.hardwareReset_inv.srchLen
  · obtain ⟨c, rfl⟩ := exec_pass hi h
    obtain hc | ⟨b, n, hc⟩ | ⟨b, x, len, -, hlen, hc⟩ | ⟨b, hc⟩ := s.searchPass_cases c
    all_goals rw [hc]
    · exact hs
    · exact hs
    · exact hlen
    · exact hs

/-- An op leaves POLLS as it was, or at a count of its busy poll (R169). -/
theorem exec_pollsOk {i : Instr} {s t : State} (hs : s.pollsOk) (h : exec i s = .next t) : t.pollsOk := by
  obtain ⟨hparams, -⟩ := exec_sameHost i s t h
  by_cases hne : t.polls = s.polls
  · rwa [State.pollsOk, hne, hparams]
  obtain ⟨-, -, -, -, -, hwriters, -⟩ := registersHaveOnlyTheirWriters i s t h
  obtain ⟨c, rfl⟩ := exec_poll (hwriters hne) h
  obtain ⟨b, n, hn, hc | hc⟩ := s.commandAndPoll_cases c
  all_goals
    rw [hc]
    exact fun _ => (Nat.mod_le n (2 ^ 32)).trans hn

/-- An end of an op sets SHORT only with PRESENCE (R112). -/
theorem StatusEnd.short {i : Instr} {f : Status → Status} (hf : StatusEnd i f) {st : Status}
    (h : st.short = true → st.presence = true) : (f st).short = true → (f st).presence = true := by
  cases hf with
  | completed | raised | noMore => exact h
  | presence released => exact fun _ => rfl
  | noPresence released => exact fun hs => nomatch hs

/-- From the STATUS that the issue left, an op ends with NOMORE only where it raises no error (R188, R199). -/
theorem StatusEnd.nomore {i : Instr} {f : Status → Status} (hf : StatusEnd i f) {st : Status} (hn : st.nomore = false)
    (he : st.err = .none) : (f st).nomore = true → (f st).err = .none := by
  cases hf with
  | completed | raised | presence | noPresence => exact fun h => nomatch hn.symm.trans h
  | noMore => exact fun _ => he

/-- The op in flight ends in a state that meets the invariant (R200, R201). -/
theorem State.Inv.exec {s t : State} (h : s.Inv) {w : Word} (hseq : s.seq = .busy w) {i : Instr}
    (hexec : Machine.exec i s = .next t) : t.Inv := by
  obtain ⟨-, -, -, hnomore, herr⟩ := h.inFlight w hseq
  obtain ⟨-, f, hf, hstatus⟩ := exec_flags i s t hexec
  obtain ⟨t', -, b, ht, -, hbus⟩ := exec_replays i s
  obtain rfl := Host.Outcome.next.inj (ht.symm.trans hexec)
  constructor
  · exact exec_srchLenOk h.srchLen hexec
  · rw [State.lineReleased, hbus]
    rfl
  · exact fun v hv => nomatch (exec_seq i s _ hexec).symm.trans hv
  · rw [State.shortOk, hstatus]
    exact hf.short h.short
  · rw [State.nomoreOk, hstatus]
    exact hf.nomore hnomore herr
  · exact exec_pollsOk h.polls hexec

/-! ## Every turn -/

/-- Every turn keeps the invariant; the invariant rules out the turn that would drop an illegal word. -/
theorem State.Inv.takeTurn {s t : State} (h : s.Inv) {turn : Turn} (ht : Machine.takeTurn turn s = .next t) :
    t.Inv := by
  rcases takeTurn_cases turn s t ht with rfl | ⟨r, v, rfl⟩ | ⟨addr, r, rfl⟩ | ⟨w, i, hseq, -, hexec⟩ |
    ⟨w, hseq, hillegal, rfl⟩ | ⟨made, rfl⟩
  · exact h
  · exact h.writeReg r v
  · exact (h.readReg r).congr rfl rfl rfl rfl rfl rfl rfl
  · exact h.exec hseq hexec
  · obtain ⟨-, hlegal, -⟩ := h.inFlight w hseq
    simp [hillegal] at hlegal
  · exact State.hardwareReset_inv _

/-- Settles O44: it holds, since every turn keeps the invariant, which does not look at the list of turns. -/
theorem everyStepKeepsTheInvariant : Obligations.EveryStepKeepsTheInvariant := by
  intro s t h hstep
  cases hturns : s.turns with
  | nil =>
    rw [step_nil s hturns] at hstep
    exact h.takeTurn hstep
  | cons turn rest =>
    rw [step_cons s turn rest hturns] at hstep
    have hrest : { s with turns := rest }.Inv := h.congr rfl rfl rfl rfl rfl rfl rfl
    exact hrest.takeTurn hstep

end Sys2Proof.Machine
end

section
/-! PROOF. The register window: what a host write does to the machine and to what the registers read as, what they read
as after a reset, and the interrupt output. -/

namespace Sys2Proof.Machine

/-! ## Host writes -/

/-- A write of the host to a register writes that register (R65). -/
theorem step_write {s : State} {r : Reg} {v : Word} {rest : List Turn} (h : writesNext s r v rest) :
    step s = .next ({ s with turns := rest }.writeReg r v) := by
  obtain ⟨hbase, hturns⟩ := h
  rw [step_cons s _ _ hturns]
  exact hostAccess_reg { s with turns := rest } r _ hbase

theorem State.whenIdle_of_idle {s t : State} (h : s.seq = .idle) : s.whenIdle t = t := by
  simp [State.whenIdle, State.busy, h]

theorem State.whenIdle_of_busy {s t : State} {w : Word} (h : s.seq = .busy w) : s.whenIdle t = s.overrun := by
  simp [State.whenIdle, State.busy, h]

/-- The legal values of SRCH_LEN, as R30 lists them. -/
theorem srchLenLegal_iff (v : Word) :
    srchLenLegal v = true ↔ v = 0xFFFFFFFF#32 ∨ v = 0xFFFFFFFE#32 ∨ v.toNat < 64 := by
  simp [srchLenLegal, or_assoc]

theorem State.writeReg_srchLen_of_legal {v : Word} (hv : srchLenLegal v = true) (s : State) :
    s.writeReg .srchLen v = s.whenIdle { s with srchLen := v } := by
  simp [State.writeReg, hv]

theorem State.writeReg_srchLen_of_illegal {v : Word} (hv : ¬ srchLenLegal v = true) (s : State) :
    s.writeReg .srchLen v = s := by
  simp [State.writeReg, hv]

/-- Settles O37: it holds, since such a write makes the state it finds. -/
theorem ignoredWritesChangeNothing : Obligations.IgnoredWritesChangeNothing := by
  intro s r v rest h hr
  rw [step_write h]
  rcases hr with hr | ⟨rfl, hstart, hdone, h64⟩
  · simp only [List.mem_cons, List.not_mem_nil, or_false] at hr
    rcases hr with rfl | rfl | rfl | rfl <;> rfl
  · have hv : ¬ srchLenLegal v = true := by
      rw [srchLenLegal_iff]
      rintro (h | h | h)
      · exact hstart h
      · exact hdone h
      · omega
    rw [State.writeReg_srchLen_of_illegal hv]

/-- Settles O38: it holds, since neither write asks whether an op runs. -/
theorem controlAndStatusWritesAreAlwaysTaken : Obligations.ControlAndStatusWritesAreAlwaysTaken := by
  intro s v rest
  refine ⟨step_write, fun h => ?_⟩
  rw [step_write h]
  have hclear : ∀ b c : Bool, (b && !c) = if c then false else b := by decide
  simp only [State.writeReg, Status.acknowledge, hclear]

/-- While an op runs, a write that is taken only while idle sets OVR (R66, R67). -/
theorem State.writeReg_of_busy {s : State} {w : Word} (h : s.seq = .busy w) {r : Reg} {v : Word}
    (hr : r = .cmd ∨ r ∈ rwIdle) (hv : r = .srchLen → srchLenLegal v = true) : s.writeReg r v = s.overrun := by
  have hbusy : ∀ t, s.whenIdle t = s.overrun := fun t => State.whenIdle_of_busy h
  cases r with
  | ctrl | status | data | temp | polls | reserved => simp [rwIdle] at hr
  | srchLen => rw [State.writeReg_srchLen_of_legal (hv rfl), hbusy]
  | _ => exact hbusy _

/-- Settles O35: it holds, since each of these writes is taken only while idle. -/
theorem writesWhileBusySetOverrun : Obligations.WritesWhileBusySetOverrun := by
  intro s r v w rest h hseq
  rw [step_write h]
  have hbusy : { s with turns := rest }.seq = .busy w := hseq
  refine ⟨fun hr => ?_, ?_⟩
  · rw [State.writeReg_of_busy hbusy]
    · rfl
    · rcases hr with rfl | ⟨hr, -⟩ | ⟨rfl, -⟩
      · exact .inl rfl
      · exact .inr hr
      · exact .inr (by decide)
    · rintro rfl
      rw [srchLenLegal_iff]
      simpa using hr
  · rintro rfl hv
    rw [State.writeReg_srchLen_of_illegal (by rwa [srchLenLegal_iff])]

/-! ## What a register reads as after a write (R26, R27, R29) -/

@[simp] theorem lowWord_withLowWord (x : BitVec 64) (v : Word) : lowWord (withLowWord x v) = v :=
  BitVec.extractLsb'_append_eq_right

@[simp] theorem highWord_withLowWord (x : BitVec 64) (v : Word) : highWord (withLowWord x v) = highWord x :=
  BitVec.extractLsb'_append_eq_left

@[simp] theorem lowWord_withHighWord (x : BitVec 64) (v : Word) : lowWord (withHighWord x v) = lowWord x :=
  BitVec.extractLsb'_append_eq_right

@[simp] theorem highWord_withHighWord (x : BitVec 64) (v : Word) : highWord (withHighWord x v) = v :=
  BitVec.extractLsb'_append_eq_left

/-- A piece of a piece of a value. -/
theorem extractLsb'_extractLsb'_of_le {w b m a n : Nat} (x : BitVec w) (h : a + n ≤ m) :
    (x.extractLsb' b m).extractLsb' a n = x.extractLsb' (b + a) n := by
  apply BitVec.eq_of_getLsbD_eq
  intro i hi
  have ha : a + i < m := by omega
  simp [hi, ha, Nat.add_assoc]

/-- Four bytes of an image that stand side by side are one piece of it (R63). -/
theorem byteAt_append_four (s : Image) (k : Nat) :
    byteAt s (k + 3) ++ byteAt s (k + 2) ++ byteAt s (k + 1) ++ byteAt s k = s.extractLsb' (8 * k) 32 := by
  have h2 : byteAt s (k + 3) ++ byteAt s (k + 2) = s.extractLsb' (8 * (k + 2)) 16 :=
    BitVec.extractLsb'_append_extractLsb'_eq_extractLsb' (by omega)
  have h3 : s.extractLsb' (8 * (k + 2)) 16 ++ byteAt s (k + 1) = s.extractLsb' (8 * (k + 1)) 24 :=
    BitVec.extractLsb'_append_extractLsb'_eq_extractLsb' (by omega)
  rw [h2, h3]
  exact BitVec.extractLsb'_append_extractLsb'_eq_extractLsb' (by omega)

theorem spWord0_eq (s : Image) : spWord0 s = s.extractLsb' 0 32 := byteAt_append_four s 0

theorem spWord1_eq (s : Image) : spWord1 s = s.extractLsb' 32 32 := byteAt_append_four s 4

theorem spWord2_eq (s : Image) : spWord2 s = (s.extractLsb' 64 8).setWidth 32 := rfl

@[simp] theorem spWord0_withSpWord0 (s : Image) (v : Word) : spWord0 (withSpWord0 s v) = v := by
  rw [spWord0_eq]
  exact BitVec.extractLsb'_append_eq_right

@[simp] theorem spWord1_withSpWord0 (s : Image) (v : Word) : spWord1 (withSpWord0 s v) = spWord1 s := by
  rw [spWord1_eq, spWord1_eq]
  exact (BitVec.extractLsb'_append_eq_of_le le_rfl).trans (extractLsb'_extractLsb'_of_le s (by decide))

@[simp] theorem spWord2_withSpWord0 (s : Image) (v : Word) : spWord2 (withSpWord0 s v) = spWord2 s := by
  rw [spWord2_eq, spWord2_eq]
  exact congrArg _
    ((BitVec.extractLsb'_append_eq_of_le (by decide)).trans (extractLsb'_extractLsb'_of_le s (by decide)))

@[simp] theorem spWord0_withSpWord1 (s : Image) (v : Word) : spWord0 (withSpWord1 s v) = spWord0 s := by
  rw [spWord0_eq, spWord0_eq]
  exact BitVec.extractLsb'_append_eq_right

@[simp] theorem spWord1_withSpWord1 (s : Image) (v : Word) : spWord1 (withSpWord1 s v) = v := by
  rw [spWord1_eq]
  exact (BitVec.extractLsb'_append_eq_of_le le_rfl).trans BitVec.extractLsb'_append_eq_right

@[simp] theorem spWord2_withSpWord1 (s : Image) (v : Word) : spWord2 (withSpWord1 s v) = spWord2 s := by
  rw [spWord2_eq, spWord2_eq]
  exact congrArg _ ((BitVec.extractLsb'_append_eq_of_le (by decide)).trans BitVec.extractLsb'_append_eq_left)

@[simp] theorem spWord0_withSpWord2 (s : Image) (v : Word) : spWord0 (withSpWord2 s v) = spWord0 s := by
  rw [spWord0_eq, spWord0_eq]
  exact (BitVec.extractLsb'_append_eq_of_add_le (by decide)).trans (extractLsb'_extractLsb'_of_le s (by decide))

@[simp] theorem spWord1_withSpWord2 (s : Image) (v : Word) : spWord1 (withSpWord2 s v) = spWord1 s := by
  rw [spWord1_eq, spWord1_eq]
  exact (BitVec.extractLsb'_append_eq_of_add_le (by decide)).trans (extractLsb'_extractLsb'_of_le s (by decide))

/-- The low byte of a written word, as CRC and SP_W2 read back (R25, R27). -/
theorem lowByte_setWidth (v : Word) : (v.extractLsb' 0 8).setWidth 32 = v &&& 0xFF#32 := by
  apply BitVec.eq_of_getLsbD_eq
  intro i hi
  have hmask : (0xFF#32).getLsbD i = decide (i < 8) := by
    interval_cases i <;> rfl
  rw [BitVec.getLsbD_and, hmask]
  simp [hi, Bool.and_comm]

@[simp] theorem spWord2_withSpWord2 (s : Image) (v : Word) : spWord2 (withSpWord2 s v) = v &&& 0xFF#32 := by
  rw [spWord2_eq, ← lowByte_setWidth]
  exact congrArg _ BitVec.extractLsb'_append_eq_left

/-- While idle a write to an RW-idle register changes no field but the one that holds it (R67). -/
theorem State.writeReg_of_idle {s : State} (h : s.seq = .idle) {r : Reg} (hr : r ∈ rwIdle) (v : Word) :
    ∃ c x y p l, s.writeReg r v = { s with crc := c, rom := x, sp := y, srchPath := p, srchLen := l } := by
  have hidle : ∀ t, s.whenIdle t = t := fun t => State.whenIdle_of_idle h
  cases r with
  | ctrl | cmd | status | data | temp | polls | reserved => simp [rwIdle] at hr
  | srchLen =>
    by_cases hv : srchLenLegal v = true
    · exact ⟨_, _, _, _, _, (s.writeReg_srchLen_of_legal hv).trans (hidle _)⟩
    · exact ⟨_, _, _, _, _, s.writeReg_srchLen_of_illegal hv⟩
  | _ => exact ⟨_, _, _, _, _, hidle _⟩

/-- While idle an RW-idle register reads as what was written to it, its low byte for CRC and SP_W2 (R24 to R30). -/
theorem State.regView_writeReg_same {s : State} (h : s.seq = .idle) {r : Reg} (hr : r ∈ rwIdle) {v : Word}
    (hv : r = .srchLen → srchLenLegal v = true) (line : Bool) :
    (s.writeReg r v).regView line r = if r = .crc ∨ r = .spW2 then v &&& 0xFF#32 else v := by
  have hidle : ∀ t, s.whenIdle t = t := fun t => State.whenIdle_of_idle h
  cases r with
  | ctrl | cmd | status | data | temp | polls | reserved => simp [rwIdle] at hr
  | srchLen => simp [State.writeReg_srchLen_of_legal (hv rfl), hidle, State.regView]
  | crc => simp [State.writeReg, hidle, State.regView, lowByte_setWidth]
  | _ => simp [State.writeReg, hidle, State.regView]

/-- While idle a write to an RW-idle register changes the view of no other, but TEMP with SP (R28). -/
theorem State.regView_writeReg_other {s : State} (h : s.seq = .idle) {r : Reg} (hr : r ∈ rwIdle) {v : Word}
    (hv : r = .srchLen → srchLenLegal v = true) (line : Bool) {r' : Reg} (hne : r' ≠ r)
    (htemp : r' = .temp → r ∉ [.spW0, .spW1, .spW2]) : (s.writeReg r v).regView line r' = s.regView line r' := by
  have hidle : ∀ t, s.whenIdle t = t := fun t => State.whenIdle_of_idle h
  cases r with
  | ctrl | cmd | status | data | temp | polls | reserved => simp [rwIdle] at hr
  | srchLen =>
    rw [State.writeReg_srchLen_of_legal (hv rfl), hidle]
    cases r' <;> simp_all [State.regView, State.busy]
  | _ =>
    simp only [State.writeReg, hidle]
    cases r' <;> simp_all [State.regView, State.busy]

/-- Settles O36: it holds, since the write replaces one register's field and the views of the others read other bits. -/
theorem idleWritesReadBack : Obligations.IdleWritesReadBack := by
  intro s r v rest h hseq hr hlegal
  have hv : r = .srchLen → srchLenLegal v = true := fun he => (srchLenLegal_iff v).mpr (hlegal he)
  have hidle : { s with turns := rest }.seq = .idle := hseq
  refine ⟨_, step_write h, State.regView_writeReg_same hidle hr hv, fun line r' hne htemp => ?_,
    fun hsp line => ?_, ?_⟩
  · exact State.regView_writeReg_other hidle hr hv line hne fun he => absurd he htemp
  · refine State.regView_writeReg_other hidle hr hv line ?_ fun _ => hsp
    rintro rfl
    simp [rwIdle] at hr
  · obtain ⟨c, x, y, p, l, heq⟩ := State.writeReg_of_idle hidle hr v
    rw [heq]
    exact ⟨rfl, rfl, rfl, rfl, rfl, rfl, rfl, rfl, rfl⟩

/-! ## Reset (R50, R220) -/

/-- The registers of the reset state, by R50's table. -/
theorem State.regView_reset (line : Bool) (r : Reg) :
    State.reset.regView line r =
      if r = .srchLen then 0xFFFFFFFF#32 else if r = .status then (if line then 0x40#32 else 0#32) else 0#32 := by
  cases line <;> cases r <;> decide

/-- Settles O42: it holds, by evaluation of the one state it speaks of. -/
theorem resetStateReadsAsTheTable : Obligations.ResetStateReadsAsTheTable :=
  ⟨rfl, rfl, rfl, rfl, State.regView_reset⟩

/-- After a hardware reset every register reads as in the reset state (R220). -/
theorem State.regView_hardwareReset (s : State) (line : Bool) (r : Reg) :
    s.hardwareReset.regView line r = State.reset.regView line r := by
  cases r <;> rfl

/-- After the reset input the environment is not the reference one (R77, R221). -/
theorem Environment.unsettle_agent (e : Environment) (devices : List Device) :
    e.unsettle.agent ≠ .reference devices := by
  unfold Environment.unsettle
  split <;> simp_all

/-- Settles O41: it holds, since the reset builds every register from the reset state, whatever the bus became. -/
theorem hardwareResetGivesTheResetValues : Obligations.HardwareResetGivesTheResetValues := by
  intro s made rest h
  refine ⟨_, step_cons s _ rest h, rfl, rfl, rfl, Environment.unsettle_agent _, fun line r => ?_, rfl, rfl, rfl⟩
  exact (State.regView_hardwareReset _ line r).trans (State.regView_reset line r)

/-! ## The interrupt (R44, R204) -/

/-- Settles O40: it holds, since every end of an op sets DONE, and the issue and the acknowledgement clear it. -/
theorem interruptFollowsCompletion : Obligations.InterruptFollowsCompletion := by
  refine ⟨fun s => rfl, fun i s hie => ?_, fun s w i rest h hseq hdecode => ?_, fun s v rest h hv => ?_⟩
  · obtain ⟨t, -, -, ht, -, -⟩ := exec_replays i s
    obtain ⟨hie', f, hf, hst⟩ := exec_flags i s t ht
    exact ⟨t, ht, by simp [State.irq, hie', hie, hst, hf.done]⟩
  · refine ⟨_, step_write h, ?_⟩
    have hissue : { s with turns := rest }.writeReg .cmd w = { s with turns := rest }.issue w :=
      State.whenIdle_of_idle hseq
    rw [hissue, State.issue_of_decode w i _ hdecode]
    simp [State.irq]
  · exact ⟨_, step_write h, by simp [State.irq, State.writeReg, hv], rfl⟩

end Sys2Proof.Machine
end

section
/-! PROOF. A discovery pass reads SRCH_PATH below its branch point only (R29, R188). -/

namespace Sys2Proof.Machine

/-- The choice at a collision looks at the path below the branch point (R188 step 3). -/
theorem collisionChoice_congr {len : Int} {p q : BitVec 64} {i : Nat}
    (h : (i : Int) < len → p.getLsbD i = q.getLsbD i) : collisionChoice len p i = collisionChoice len q i := by
  unfold collisionChoice
  split
  next hi => exact h hi
  next => rfl

/-- Two paths that agree below the branch point, at the positions that are left, give the same pass. -/
theorem Bus.searchFrom_congr {len : Int} {p q : BitVec 64} (n i : Nat) (x : RomCode) (lz : Option Nat) (b : Bus)
    (h : ∀ j : Nat, j < i + n → (j : Int) < len → p.getLsbD j = q.getLsbD j) :
    b.searchFrom len p n i x lz = b.searchFrom len q n i x lz := by
  induction n generalizing i x lz b with
  | zero => rfl
  | succ n ih =>
    have hchoice : collisionChoice len p i = collisionChoice len q i := collisionChoice_congr (h i (by omega))
    rw [Bus.searchFrom_succ, Bus.searchFrom_succ, hchoice, ih _ _ _ _ fun j hj => h j (by omega)]

/-- A discovery pass from another path that agrees below SRCH_LEN (R29). -/
theorem State.searchPass_withPath (c : Byte) (s : State) (p : BitVec 64)
    (h : ∀ j : Nat, j < 64 → (j : Int) < s.srchLen.toInt → p.getLsbD j = s.srchPath.getLsbD j) :
    { s with srchPath := p }.searchPass c = s.searchPass c ∨
    (s.searchPass c).srchPath = s.srchPath ∧
      { s with srchPath := p }.searchPass c = { s.searchPass c with srchPath := p } := by
  have hloop := Bus.searchFrom_congr 64 0 0#64 none (s.bus.writeByte c) (by simpa using h)
  unfold State.searchPass
  dsimp only
  rw [hloop]
  split
  · exact .inr ⟨rfl, rfl⟩
  split
  · exact .inr ⟨rfl, rfl⟩
  · split
    · exact .inl rfl
    · exact .inr ⟨rfl, rfl⟩

/-- Settles O51: it holds, since the two runs make the same choices, and only a pass that finds an address writes the
path. -/
theorem searchReadsThePathOnlyBelowTheBranchPoint : Obligations.SearchReadsThePathOnlyBelowTheBranchPoint := by
  intro op s p hop h
  have hc : ∃ c, exec op s = .next (s.searchPass c) ∧
      exec op { s with srchPath := p } = .next ({ s with srchPath := p }.searchPass c) := by
    rcases hop with rfl | rfl <;> exact ⟨_, rfl, rfl⟩
  obtain ⟨c, hs, hp⟩ := hc
  refine ⟨_, _, hs, hp, ?_⟩
  rcases s.searchPass_withPath c p h with heq | ⟨hpath, heq⟩
  · rw [heq]
    exact ⟨rfl, .inl rfl⟩
  · rw [heq]
    exact ⟨rfl, .inr ⟨hpath, rfl⟩⟩

end Sys2Proof.Machine
end

section
/-! PROOF. The decoder reads an operation back from its own word (R103, R104), and a step runs the operation that the
accepted word decodes to (R32, R200). -/

namespace Sys2Proof

/-! ## Rows of the opcode table -/

/-- Every row looks at the whole opcode and at the reserved bits of its format, which are to be 0 (R101, R103). -/
theorem opcodeTable_mask_pattern : ∀ r ∈ opcodeTable,
    r.mask = 0xFF#32 ||| r.format.reservedBits ∧ r.pattern = (fieldOp r.pattern).setWidth 32 ∧
      fieldOp r.mask = 0xFF#8 := by
  decide

/-- No opcode has two rows (R103). -/
theorem opcodeTable_opcodes_nodup : (opcodeTable.map fun r => fieldOp r.pattern).Nodup := by decide

/-- A row that selects a word has its opcode. -/
theorem OpcodeRow.fieldOp_of_selects {r : OpcodeRow} (hr : r ∈ opcodeTable) {w : Word} (h : r.selects w = true) :
    fieldOp w = fieldOp r.pattern := by
  obtain ⟨-, -, hmask⟩ := opcodeTable_mask_pattern r hr
  have hw : w &&& r.mask = r.pattern := by simpa [OpcodeRow.selects] using h
  have hand : fieldOp (w &&& r.mask) = fieldOp w &&& fieldOp r.mask := BitVec.extractLsb'_and
  rw [← hw, hand, hmask]
  exact BitVec.and_allOnes.symm

/-- A row selects the words of its opcode whose reserved bits are 0 (R103, R105). -/
theorem OpcodeRow.selects_of_fields {r : OpcodeRow} (hr : r ∈ opcodeTable) {w : Word}
    (hop : fieldOp w = fieldOp r.pattern) (hres : w &&& r.format.reservedBits = 0#32) : r.selects w = true := by
  obtain ⟨hmask, hpat, -⟩ := opcodeTable_mask_pattern r hr
  have hlow : w &&& 0xFF#32 = r.pattern := by
    rw [hpat, ← hop]
    exact (Machine.lowByte_setWidth w).symm
  simp [OpcodeRow.selects, hmask, BitVec.and_or_distrib_left, hlow, hres]

/-- A word decodes by the row that selects it: no other row has its opcode (R103, R104). -/
theorem decode_of_selects {r : OpcodeRow} (hr : r ∈ opcodeTable) {w : Word} (h : r.selects w = true) :
    decode w = some (r.build w) := by
  cases hd : decode w with
  | none => simp [decode_none w hd r hr] at h
  | some i =>
    obtain ⟨r', hr', hsel, rfl⟩ := decode_some w i hd
    have hop : fieldOp r'.pattern = fieldOp r.pattern :=
      (OpcodeRow.fieldOp_of_selects hr' hsel).symm.trans (OpcodeRow.fieldOp_of_selects hr h)
    rw [List.inj_on_of_nodup_map opcodeTable_opcodes_nodup hr' hr hop]

/-- A word written as its four bytes decodes by the row of its opcode, where its reserved bits are 0. -/
theorem decode_wordT {op a b c : Byte} (k : Nat) (hk : k < opcodeTable.length)
    (hop : op = fieldOp opcodeTable[k].pattern) (hres : wordT op a b c &&& opcodeTable[k].format.reservedBits = 0#32) :
    decode (wordT op a b c) = some (opcodeTable[k].build (wordT op a b c)) :=
  decode_of_selects (List.getElem_mem hk)
    (OpcodeRow.selects_of_fields (List.getElem_mem hk) ((fieldOp_wordT op a b c).trans hop) hres)

/-- The level of WAIT_LEVEL and the bit of format B (R101). -/
@[simp] theorem fieldBit_wordT (op : Byte) (v : Bool) (b c : Byte) :
    fieldBit (wordT op (0#7 ++ BitVec.ofBool v) b c) = v := by
  rw [fieldBit, wordT_getLsbD]
  cases v <;> rfl

/-- The timeout of WAIT_LEVEL stands in `B` and `C` (R101). -/
@[simp] theorem fieldT_wordT (op a : Byte) (t : BitVec 16) :
    fieldT (wordT op a (t.extractLsb' 0 8) (t.extractLsb' 8 8)) = t := by
  apply BitVec.eq_of_getLsbD_eq
  intro i hi
  have h8 : ¬ 16 + i < 8 := by omega
  have h16 : ¬ 16 + i < 16 := by omega
  simp only [fieldT, BitVec.getLsbD_extractLsb', wordT_getLsbD, hi, h8, h16, decide_true, Bool.true_and, if_false]
  split
  next h24 => simp [show i < 8 by omega]
  next h24 => simp [show 16 + i - 24 < 8 by omega, show 8 + (16 + i - 24) = i by omega]

/-- The decoder reads every operation back from its word (R101, R103). -/
theorem decode_encode (i : Instr) : decode (encode i) = some i := by
  cases i with
  | writeByte v =>
    rw [encode, wordY_eq, decode_wordT 3 (by decide) (by decide) (Laws.EncodeWellFormed.reserved_y _ _)]
    exact congrArg (some ∘ Instr.writeByte) (fieldA_wordT _ _ _ _)
  | crcByte v =>
    rw [encode, wordY_eq, decode_wordT 8 (by decide) (by decide) (Laws.EncodeWellFormed.reserved_y _ _)]
    exact congrArg (some ∘ Instr.crcByte) (fieldA_wordT _ _ _ _)
  | waitLevel level t =>
    rw [encode, wordW_eq, decode_wordT 5 (by decide) (by decide) (Laws.EncodeWellFormed.reserved_w _ _ _ _)]
    change some (Instr.waitLevel (fieldBit _) (fieldT _)) = _
    rw [fieldBit_wordT, fieldT_wordT]
  | writeSp high low config =>
    rw [encode, decode_wordT 16 (by decide) (by decide) BitVec.and_zero]
    change some (Instr.writeSp (fieldA _) (fieldB _) (fieldC _)) = _
    rw [fieldA_wordT, fieldB_wordT, fieldC_wordT]
  | writeBit b | triplet b => cases b <;> decide
  | _ => decide

end Sys2Proof

namespace Sys2Proof.Machine

/-- Settles O8: it holds, since the sequencer's turn runs the accepted word, and the word that `withFetchWord` issues is
the operation's own. -/
theorem stepRunsTheAcceptedOperation : Obligations.StepRunsTheAcceptedOperation := by
  refine ⟨fun s w i rest hseq hdecode hturns => ?_, fun s i => ?_⟩
  · have hturn : step s = takeTurn .sequencer { s with turns := rest } := by
      rcases hturns with hturns | ⟨hturns, rfl⟩
      · exact step_cons s _ rest hturns
      · rw [← hturns]
        exact step_nil s hturns
    rw [hturn]
    simp only [takeTurn, sequencerTurn, runWord, hseq, hdecode]
  · have hword : tableWord 32 (encode i).toNat = encode i := by
      rw [tableWord, Nat.mod_eq_of_lt (encode i).isLt, BitVec.ofNat_toNat, BitVec.setWidth_eq]
    have hissue : s.withFetchWord 32 (encode i).toNat = { s with
        cmd := encode i, seq := .busy (encode i), status := s.status.accepted, turns := .sequencer :: s.turns } := by
      rw [State.withFetchWord, hword, State.withCommand, State.issue_of_decode _ i _ (decode_encode i)]
    rw [hissue, step_cons _ .sequencer s.turns rfl]
    simp only [takeTurn, sequencerTurn, runWord, decode_encode]
    rfl

end Sys2Proof.Machine
end

section
/-! PROOF. Accesses of the host to the window: which of them have a meaning, that aligned ones never stop the machine,
and what a read returns (R60, R62, R64). -/

namespace Sys2Proof.Machine

/-! ## Which accesses have a meaning (R60, R62) -/

/-- The turns of the host are accesses to the window (R64, R65). -/
theorem step_access {s : State} {addr : Nat} {width : AccessWidth} {v : Word} {turn : Turn} {rest : List Turn}
    (hturn : turn = .write addr width v ∨ turn = .read addr width) (hturns : s.turns = turn :: rest) :
    ∃ act, step s = hostAccess addr width act { s with turns := rest } := by
  rw [step_cons s turn rest hturns]
  rcases hturn with rfl | rfl <;> exact ⟨_, rfl⟩

/-- An access reaches the window when one of its bytes lies in it (R60). -/
theorem touchesWindow_iff (base addr : Nat) (width : AccessWidth) :
    touchesWindow base addr width = true ↔ base < addr + width.bytes ∧ addr < base + 0x40 := by
  rw [touchesWindow, Bool.and_eq_true, decide_eq_true_iff, decide_eq_true_iff, Config.windowBytes]

/-- Settles O39: it holds, by the three branches that decide whether an access has a meaning. -/
theorem onlyAlignedWordAccessesHaveAMeaning : Obligations.OnlyAlignedWordAccessesHaveAMeaning := by
  intro s addr width v rest turn hturn hturns
  obtain ⟨act, hstep⟩ := step_access hturn hturns
  rw [hstep]
  unfold hostAccess
  refine ⟨fun hout => ?_, fun hlo hhi hwidth => ?_, fun hlo hhi hwidth halign => ?_⟩
  · rw [if_neg]
    rw [touchesWindow_iff]
    dsimp only
    omega
  · rw [if_pos ((touchesWindow_iff _ _ _).mpr ⟨hlo, hhi⟩), if_neg hwidth]
  · rw [if_pos ((touchesWindow_iff _ _ _).mpr ⟨hlo, hhi⟩), if_pos hwidth, if_neg fun h => halign h.1]

/-! ## Aligned accesses never stop the machine (R62) -/

/-- An aligned 32-bit access is never refused (R62). -/
theorem hostAccess_aligned {s : State} {addr : Nat} (act : Reg → State) (hbase : s.params.base % 4 = 0)
    (haddr : addr % 4 = 0) : ∃ t, hostAccess addr .word act s = .next t := by
  unfold hostAccess
  split
  next htouch =>
    obtain ⟨hlo, hhi⟩ := (touchesWindow_iff _ _ _).mp htouch
    have hbytes : AccessWidth.word.bytes = 4 := rfl
    have hle : s.params.base ≤ addr := by omega
    have hoff : (addr - s.params.base) % 4 = 0 := by omega
    have hlen : (addr - s.params.base) / 4 < Reg.all.length := by
      have : Reg.all.length = 16 := rfl
      omega
    have hreg : regAtOffset (addr - s.params.base) = some Reg.all[(addr - s.params.base) / 4] := by
      rw [regAtOffset, if_pos hoff, List.getElem?_eq_getElem hlen]
    rw [if_pos rfl, if_pos ⟨haddr, hle⟩, hreg]
    exact ⟨_, rfl⟩
  next => exact ⟨s, rfl⟩

/-- A turn of the sequencer is never refused (R200). -/
theorem sequencerTurn_next (s : State) : ∃ t, sequencerTurn s = .next t := by
  unfold sequencerTurn
  split
  · exact ⟨_, rfl⟩
  · unfold runWord
    split
    · obtain ⟨t, -, -, ht, -, -⟩ := exec_replays _ s
      exact ⟨t, ht⟩
    · exact ⟨_, rfl⟩

/-- An aligned turn is taken (R62). -/
theorem takeTurn_aligned {s : State} {turn : Turn} (hbase : s.params.base % 4 = 0) (hturn : turn.aligned) :
    ∃ t, takeTurn turn s = .next t := by
  cases turn with
  | write addr width v =>
    obtain ⟨rfl, haddr⟩ := hturn
    exact hostAccess_aligned _ hbase haddr
  | read addr width =>
    obtain ⟨rfl, haddr⟩ := hturn
    exact hostAccess_aligned _ hbase haddr
  | sequencer => exact sequencerTurn_next s
  | hardwareReset made => exact ⟨_, rfl⟩

/-- A turn leaves the turns that are pending after it (R69). -/
theorem takeTurn_turns {s t : State} {turn : Turn} (h : takeTurn turn s = .next t) : t.turns = s.turns := by
  rcases takeTurn_cases turn s t h with rfl | ⟨r, v, rfl⟩ | ⟨addr, r, rfl⟩ | ⟨w, i, -, -, hexec⟩ | ⟨w, -, -, rfl⟩ |
    ⟨made, rfl⟩
  · rfl
  · obtain ⟨⟨-, hturns, -⟩, -⟩ := s.writeReg_sameHost_bus r v
    exact hturns
  · obtain ⟨⟨-, hturns, -⟩, -⟩ := s.readReg_sameHost_history r
    exact hturns
  · obtain ⟨-, hturns, -⟩ := exec_sameHost i s t hexec
    exact hturns
  · rfl
  · rfl

/-- With aligned accesses pending a step is taken, and what is pending after it is aligned (R62). -/
theorem step_aligned {s : State} (hbase : s.params.base % 4 = 0) (hturns : ∀ turn ∈ s.turns, turn.aligned) :
    ∃ t, step s = .next t ∧ ∀ turn ∈ t.turns, turn.aligned := by
  cases hs : s.turns with
  | nil =>
    obtain ⟨t, ht⟩ := sequencerTurn_next s
    refine ⟨t, (step_nil s hs).trans ht, ?_⟩
    rw [takeTurn_turns (turn := .sequencer) ht]
    exact hturns
  | cons turn rest =>
    have hall : ∀ u ∈ turn :: rest, u.aligned := hs ▸ hturns
    obtain ⟨t, ht⟩ := takeTurn_aligned (s := { s with turns := rest }) hbase (hall turn (by simp))
    refine ⟨t, (step_cons s turn rest hs).trans ht, ?_⟩
    rw [takeTurn_turns ht]
    exact fun u hu => hall u (List.mem_cons_of_mem turn hu)

/-- A run goes on from the state its first step answers. -/
theorem run_succ_of_next {M : Host.Core} {n : Nat} {s t : M.State} (h : M.step s = .next t) :
    M.run (n + 1) s = M.run n t := by
  simp only [Host.Core.run, h]

/-- Settles O46: it holds, by induction on the number of steps, each of which keeps the parameters and leaves aligned
accesses pending. -/
theorem alignedHostsNeverStopTheMachine : Obligations.AlignedHostsNeverStopTheMachine := by
  intro n
  induction n with
  | zero => exact fun s _ _ => ⟨s, rfl⟩
  | succ n ih =>
    intro s hbase hturns
    obtain ⟨t, hstep, hturns'⟩ := step_aligned hbase hturns
    obtain ⟨hparams, -⟩ := step_extends s t hstep
    obtain ⟨u, hu⟩ := ih t (hparams ▸ hbase) hturns'
    exact ⟨u, (run_succ_of_next (M := Sys2Proof.core) hstep).trans hu⟩

/-! ## Host reads (R64) -/

/-- A read of the host from a register reads that register (R64). -/
theorem step_read {s : State} {r : Reg} {rest : List Turn} (h : readsNext s r rest) :
    step s = .next { ({ s with turns := rest }.readReg r).2 with
      observed := s.observed ++
        [{ addr := s.params.base + regOffset r, value := ({ s with turns := rest }.readReg r).1 }] } := by
  obtain ⟨hbase, hturns⟩ := h
  rw [step_cons s _ _ hturns]
  exact hostAccess_reg { s with turns := rest } r _ hbase

/-- The sample of the line that a read of STATUS draws leaves the agent and the answers of the bus events (R23, R64). -/
theorem Environment.onLine_frame (busy : Bool) (e : Environment) :
    (e.onLine busy).2.agent = e.agent ∧ (e.onLine busy).2.answers = e.answers := by
  unfold Environment.onLine
  split <;> exact ⟨rfl, rfl⟩

/-- With OWC idle a released line reads 1 under the reference environment (R64). -/
theorem State.line_of_reference {s : State} {ds : List Device} (hagent : s.bus.env.agent = .reference ds)
    (hseq : s.seq = .idle) (hdrive : s.bus.drive = .float) :
    s.bus.lineLevel (s.bus.env.onLine s.busy).1 = true := by
  have hbusy : s.busy = false := s.busy_eq_false_iff.mpr hseq
  simp [Bus.lineLevel, hdrive, hbusy, Environment.onLine, hagent]

/-- The single bits of a STATUS word (R23). -/
theorem statusWord_bits (busy line : Bool) (st : Status) :
    (statusWord busy line st).getLsbD 0 = busy ∧ (statusWord busy line st).getLsbD 1 = st.done ∧
    (statusWord busy line st).getLsbD 2 = st.presence ∧ (statusWord busy line st).getLsbD 3 = st.short ∧
    (statusWord busy line st).getLsbD 4 = st.nomore ∧ (statusWord busy line st).getLsbD 5 = st.ovr ∧
    (statusWord busy line st).getLsbD 6 = line ∧ (statusWord busy line st).getLsbD 7 = false := by
  simp only [statusWord, BitVec.getLsbD_append, BitVec.getLsbD_ofBool, BitVec.getLsbD_zero]
  simp

/-- ERR stands in bits 10:8 of a STATUS word, and the bits above it are 0 (R23). -/
theorem statusWord_err (busy line : Bool) (st : Status) :
    (statusWord busy line st).extractLsb' 8 3 = st.err.code ∧ (statusWord busy line st).extractLsb' 11 21 = 0#21 := by
  have hle : ∀ {n m a k : Nat} (x : BitVec n) (y : BitVec m), m ≤ a →
      (x ++ y).extractLsb' a k = x.extractLsb' (a - m) k :=
    fun x y h => BitVec.extractLsb'_append_eq_of_le h
  simp (disch := decide) only [statusWord, hle]
  exact ⟨BitVec.extractLsb'_append_eq_right, BitVec.extractLsb'_eq_self⟩

/-- Settles O34: it holds, since a read of STATUS alone acts on the state, by the sample it draws, and a register's view
is made of its own fields. -/
theorem hostReadsHaveNoSideEffect : Obligations.HostReadsHaveNoSideEffect := by
  refine ⟨fun s r rest h => ?_, fun s line => ?_⟩
  · rw [step_read h]
    cases r with
    | status =>
      obtain ⟨hagent, hanswers⟩ := s.bus.env.onLine_frame s.busy
      exact ⟨_, (s.bus.env.onLine s.busy).2, rfl, hagent, hanswers, fun hr => absurd rfl hr,
        fun ds _ href hseq hdrive => s.line_of_reference href hseq hdrive⟩
    | _ => exact ⟨false, s.bus.env, rfl, rfl, rfl, fun _ => rfl, fun _ hr => nomatch hr⟩
  · obtain ⟨h0, h1, h2, h3, h4, h5, h6, h7⟩ := statusWord_bits s.busy line s.status
    obtain ⟨herr, hhigh⟩ := statusWord_err s.busy line s.status
    refine ⟨?_, h1, h2, h3, h4, h5, h6, h7, herr, hhigh, ?_, rfl, rfl, rfl, rfl, rfl, spWord0_eq s.sp, spWord1_eq s.sp,
      rfl, ?_, rfl, rfl, rfl, rfl, rfl⟩
    · rw [← s.busy_eq_true_iff]
      exact iff_of_eq (congrArg (· = true) h0)
    · cases h : s.ie <;> simp [State.regView, h]
    · have hres : tempRes s.sp = s.sp.extractLsb' 37 2 := extractLsb'_extractLsb'_of_le s.sp (by decide)
      rw [← hres]
      rfl

end Sys2Proof.Machine
end

section
/-! PROOF. An op and the answers of the bus environment (R75): what it draws from the unconstrained environment, and
that it depends on nothing else. -/

namespace Sys2Proof.Machine

/-! ## The draws of the unconstrained environment -/

/-- The first of the events that lead from a bus to another is made again with the answer it holds (R75). -/
theorem Bus.Replays.uncons {b b' : Bus} {e : BusEvent} {es : List BusEvent} (h : b.Replays (e :: es) b') :
    (b.redo e).history = b.history ++ [e] ∧ (b.redo e).Replays es b' := by
  obtain ⟨hfold, hhist⟩ := h
  obtain ⟨e', he'⟩ := b.redo_history e
  obtain ⟨fs, hfs⟩ := Bus.foldl_redo_history es (b.redo e)
  have hfinal : b.history ++ e' :: fs = b.history ++ e :: es := by
    rw [← hhist, ← hfold, List.foldl_cons, ← hfs, he']
    simp
  obtain ⟨rfl, rfl⟩ := List.cons.inj (List.append_cancel_left hfinal)
  exact ⟨he', hfold, by rw [hhist, he']; simp⟩

theorem answersOf_append (es fs : List BusEvent) : answersOf (es ++ fs) = answersOf es ++ answersOf fs :=
  List.flatMap_append

/-- The answers `as` are drawn: they were the next of the fixed ones, and the agent, the counter and the levels of the
line stay. -/
structure Environment.Draws (e : Environment) (as : List Bool) (e' : Environment) : Prop where
  known : e.answers.known = as ++ e'.answers.known
  taken : e'.answers.taken = e.answers.taken
  agent : e'.agent = e.agent
  line : e'.line = e.line

/-- No answer is drawn where nothing is read. -/
theorem Environment.Draws.refl (e : Environment) : e.Draws [] e := ⟨rfl, rfl, rfl, rfl⟩

theorem Environment.Draws.trans {e e' e'' : Environment} {as as' : List Bool} (h : e.Draws as e')
    (h' : e'.Draws as' e'') : e.Draws (as ++ as') e'' :=
  ⟨by rw [h.known, h'.known, List.append_assoc], h'.taken.trans h.taken, h'.agent.trans h.agent,
    h'.line.trans h.line⟩

/-- One draw takes the next fixed answer, while there is one (R75). -/
theorem Environment.draw_draws {e : Environment} (h : 1 ≤ e.answers.known.length) : e.Draws [e.draw.1] e.draw.2 := by
  obtain ⟨agent, ⟨known, taken⟩, line⟩ := e
  cases known with
  | nil => simp at h
  | cons a rest => exact ⟨rfl, rfl, rfl, rfl⟩

/-- A handshake takes the next two (R75, R76). -/
theorem Environment.onReset_draws {e : Environment} (hagent : e.agent = .unconstrained)
    (h : 2 ≤ e.answers.known.length) : e.Draws [e.onReset.1.1, e.onReset.1.2] e.onReset.2 := by
  have hreset : e.onReset = ((e.draw.1, e.draw.2.draw.1), e.draw.2.draw.2) := by simp [Environment.onReset, hagent]
  have hfirst := Environment.draw_draws (e := e) (by omega)
  have hlen : 1 ≤ e.draw.2.answers.known.length := by
    rw [hfirst.known] at h
    simpa using h
  rw [hreset]
  exact hfirst.trans (Environment.draw_draws hlen)

/-- One event of the history draws the answers it holds (R75). -/
theorem Bus.redo_draws {b : Bus} {e : BusEvent} (hagent : b.env.agent = .unconstrained)
    (he : (b.redo e).history = b.history ++ [e]) (hlen : (answersOf [e]).length ≤ b.env.answers.known.length) :
    b.env.Draws (answersOf [e]) (b.redo e).env := by
  cases e with
  | rst p r =>
    have hans : b.env.onReset.1 = (p, r) := by simpa [Bus.redo, Bus.reset_eq, Prod.ext_iff] using he
    have := Environment.onReset_draws hagent hlen
    rwa [hans] at this
  | w v =>
    have henv : b.env.onWrite v = b.env := by simp [Environment.onWrite, hagent]
    rw [Bus.redo, Bus.writeSlot_eq, henv]
    exact Environment.Draws.refl b.env
  | r a =>
    have hread : b.env.onRead = b.env.draw := by simp [Environment.onRead, hagent]
    have hans : b.env.draw.1 = a := by simpa [Bus.redo, Bus.readSlot_eq, hread] using he
    rw [Bus.redo, Bus.readSlot_eq, hread, ← hans]
    exact Environment.draw_draws hlen
  | s a =>
    have hread : b.env.onSample = b.env.draw := by simp [Environment.onSample, hagent]
    have hans : b.env.draw.1 = a := by simpa [Bus.redo, Bus.sample_eq, hread] using he
    rw [Bus.redo, Bus.sample_eq, hread, ← hans]
    exact Environment.draw_draws hlen

/-- A list of events draws the answers it holds, in order (R75). -/
theorem Bus.Replays.draws {b b' : Bus} {es : List BusEvent} (h : b.Replays es b')
    (hagent : b.env.agent = .unconstrained) (hlen : (answersOf es).length ≤ b.env.answers.known.length) :
    b.env.Draws (answersOf es) b'.env := by
  induction es generalizing b with
  | nil =>
    obtain ⟨rfl, -⟩ := h
    exact Environment.Draws.refl _
  | cons e es ih =>
    obtain ⟨he, hrest⟩ := h.uncons
    have happ : answersOf (e :: es) = answersOf [e] ++ answersOf es := answersOf_append [e] es
    rw [happ, List.length_append] at hlen
    have hfirst := Bus.redo_draws hagent he (by omega)
    have hlen' : (answersOf es).length ≤ (b.redo e).env.answers.known.length := by
      rw [hfirst.known, List.length_append] at hlen
      omega
    rw [happ]
    exact hfirst.trans (ih hrest (hfirst.agent.trans hagent) hlen')

/-- The events a run added to the history. -/
theorem newEvents_eq {s t : State} {es : List BusEvent} (h : t.bus.history = s.bus.history ++ es) :
    newEvents s t = es := by
  rw [newEvents, h, List.drop_left]

/-- Settles O47: it holds, by induction on the events of the op, each of which draws the answers it records. -/
theorem answersAreTheNextDraws : Obligations.AnswersAreTheNextDraws := by
  intro i s t hagent hexec hlen
  obtain ⟨t', es, b', ht, hreplays, hbus⟩ := exec_replays i s
  obtain rfl := Host.Outcome.next.inj (ht.symm.trans hexec)
  have hnew : newEvents s t' = es := newEvents_eq (by rw [hbus, Bus.release_history, hreplays.2])
  rw [hnew] at hlen ⊢
  obtain ⟨hknown, htaken, hagent', hline⟩ := hreplays.draws hagent hlen
  rw [hbus]
  exact ⟨hknown, htaken, hagent'.trans hagent, hline⟩

/-! ## Nothing but the answers -/

section
variable {α β : Type}

/-- A piece of an op: it leads from a bus to another and gives a result. -/
abbrev Bus.Piece (α : Type) : Type := Bus → α × Bus

/-- One piece and then another, which may depend on the result of the first. -/
def Bus.Piece.andThen (f : Bus.Piece α) (g : α → Bus.Piece β) : Bus.Piece β := fun b => g (f b).1 (f b).2

/-- A piece of an op that makes no event. -/
def Bus.Piece.result (a : α) : Bus.Piece α := fun b => (a, b)

/-- From two buses with one history, a piece whose answers agree as far as both go gives one result and makes the same
events (R75). The list `answers` holds what the whole op reads. -/
structure Bus.Piece.ByAnswers (f : Bus.Piece α) : Prop where
  extends_history : ∀ b, b.history <+: (f b).2.history
  determined : ∀ {b c : Bus} {answers : List Bool}, b.history = c.history →
    answersOf (f b).2.history <+: answers → answersOf (f c).2.history <+: answers →
    (f b).1 = (f c).1 ∧ (f b).2.history = (f c).2.history

theorem Bus.Piece.ByAnswers.result (a : α) : (Bus.Piece.result a).ByAnswers where
  extends_history := fun _ => List.prefix_rfl
  determined := fun h _ _ => ⟨rfl, h⟩

theorem answersOf_prefix {es fs : List BusEvent} (h : es <+: fs) : answersOf es <+: answersOf fs := by
  obtain ⟨gs, rfl⟩ := h
  rw [answersOf_append]
  exact List.prefix_append _ _

/-- Pieces one after another read their answers one after another. -/
theorem Bus.Piece.ByAnswers.andThen {f : Bus.Piece α} {g : α → Bus.Piece β} (hf : f.ByAnswers)
    (hg : ∀ a, (g a).ByAnswers) : (f.andThen g).ByAnswers where
  extends_history := fun b => (hf.extends_history b).trans ((hg _).extends_history _)
  determined := by
    intro b c answers hbc hb hc
    obtain ⟨hres, hhist⟩ := hf.determined hbc
      ((answersOf_prefix ((hg _).extends_history _)).trans hb)
      ((answersOf_prefix ((hg _).extends_history _)).trans hc)
    unfold Bus.Piece.andThen at hc ⊢
    rw [← hres] at hc ⊢
    exact (hg _).determined hhist hb hc

/-- A choice between two pieces, made of what is known before them. -/
theorem Bus.Piece.ByAnswers.ite {f g : Bus.Piece α} (c : Prop) [Decidable c] (hf : f.ByAnswers) (hg : g.ByAnswers) :
    Bus.Piece.ByAnswers (if c then f else g) := by
  split
  · exact hf
  · exact hg

/-- A piece that makes one event, whose answers tell its result. -/
theorem Bus.Piece.ByAnswers.of_event {f : Bus.Piece α} (event : α → BusEvent)
    (hevent : ∀ b, (f b).2.history = b.history ++ [event (f b).1])
    (hlength : ∀ a a', (answersOf [event a]).length = (answersOf [event a']).length)
    (hinj : ∀ a a', answersOf [event a] = answersOf [event a'] → a = a') : f.ByAnswers where
  extends_history := fun b => hevent b ▸ List.prefix_append _ _
  determined := by
    intro b c answers hbc hb hc
    rw [hevent, answersOf_append, hbc] at hb
    rw [hevent, answersOf_append] at hc
    have hlen := hlength (f b).1 (f c).1
    have hans := (List.prefix_of_prefix_length_le hb hc (by simp [hlen])).eq_of_length (by simp [hlen])
    have hres := hinj _ _ (List.append_cancel_left hans)
    exact ⟨hres, by rw [hevent, hevent, hbc, hres]⟩

end

/-! ### The pieces that ops are made of -/

/-- A piece that leads on and gives no result. -/
abbrev Bus.Piece.act (g : Bus → Bus) : Bus.Piece Unit := fun b => ((), g b)

theorem Bus.reset_byAnswers : Bus.Piece.ByAnswers Bus.reset :=
  .of_event (fun a => .rst a.1 a.2) Bus.reset_history (fun _ _ => rfl) fun a a' h => by
    simpa [answersOf, Prod.ext_iff] using h

theorem Bus.readSlot_byAnswers : Bus.Piece.ByAnswers Bus.readSlot :=
  .of_event .r Bus.readSlot_history (fun _ _ => rfl) fun a a' h => by simpa [answersOf] using h

theorem Bus.sample_byAnswers : Bus.Piece.ByAnswers Bus.sample :=
  .of_event .s Bus.sample_history (fun _ _ => rfl) fun a a' h => by simpa [answersOf] using h

theorem Bus.writeSlot_byAnswers (v : Bool) : (Bus.Piece.act (Bus.writeSlot v)).ByAnswers :=
  .of_event (fun _ => .w v) (Bus.writeSlot_history v) (fun _ _ => rfl) fun _ _ _ => rfl

theorem Bus.writeBits_byAnswers (vs : List Bool) : (Bus.Piece.act (Bus.writeBits vs)).ByAnswers := by
  induction vs with
  | nil => exact .result ()
  | cons v vs ih => exact (Bus.writeSlot_byAnswers v).andThen fun _ => ih

theorem Bus.writeByte_byAnswers (v : Byte) : (Bus.Piece.act (Bus.writeByte v)).ByAnswers :=
  Bus.writeBits_byAnswers (bitsOf v)

theorem Bus.writeBytes_byAnswers (vs : List Byte) : (Bus.Piece.act (Bus.writeBytes vs)).ByAnswers := by
  induction vs with
  | nil => exact .result ()
  | cons v vs ih => exact (Bus.writeByte_byAnswers v).andThen fun _ => ih

theorem Bus.readBits_byAnswers (n : Nat) : Bus.Piece.ByAnswers (Bus.readBits n) := by
  induction n with
  | zero => exact .result []
  | succ n ih => exact Bus.readSlot_byAnswers.andThen fun a => ih.andThen fun as => .result (a :: as)

theorem Bus.readByte_byAnswers : Bus.Piece.ByAnswers Bus.readByte :=
  (Bus.readBits_byAnswers 8).andThen fun as => .result (byteOfBits as)

theorem Bus.readBytes_byAnswers (n : Nat) : Bus.Piece.ByAnswers (Bus.readBytes n) := by
  induction n with
  | zero => exact .result []
  | succ n ih => exact Bus.readByte_byAnswers.andThen fun v => ih.andThen fun vs => .result (v :: vs)

theorem Bus.waitLevel_byAnswers (level : Bool) (n : Nat) : Bus.Piece.ByAnswers (Bus.waitLevel level n) := by
  induction n with
  | zero => exact .result false
  | succ n ih =>
    have hsucc : Bus.waitLevel level (n + 1) = Bus.Piece.andThen Bus.sample fun a =>
        if a = level then Bus.Piece.result true else Bus.waitLevel level n := by
      funext b
      rw [Bus.waitLevel, Bus.Piece.andThen]
      split <;> rfl
    rw [hsucc]
    exact Bus.sample_byAnswers.andThen fun a => .ite _ (.result true) ih

theorem Bus.poll_byAnswers (max n : Nat) : Bus.Piece.ByAnswers (Bus.poll max n) := by
  induction max generalizing n with
  | zero => exact .result none
  | succ max ih =>
    have hsucc : Bus.poll (max + 1) n = Bus.Piece.andThen Bus.readSlot fun a =>
        if a then Bus.Piece.result (some n) else Bus.poll max (n + 1) := by
      funext b
      rw [Bus.poll, Bus.Piece.andThen]
      split <;> rfl
    rw [hsucc]
    exact Bus.readSlot_byAnswers.andThen fun a => .ite _ (.result (some n)) (ih (n + 1))

theorem Bus.searchFrom_byAnswers (len : Int) (path : BitVec 64) (n i : Nat) (x : RomCode) (lz : Option Nat) :
    Bus.Piece.ByAnswers (Bus.searchFrom len path n i x lz) := by
  induction n generalizing i x lz with
  | zero => exact .result (SearchEnd.found x lz)
  | succ n ih =>
    have hsucc : Bus.searchFrom len path (n + 1) i x lz = Bus.Piece.andThen Bus.readSlot fun a0 =>
        Bus.Piece.andThen Bus.readSlot fun a1 =>
          let d := (pairClass a0 a1).choose (collisionChoice len path i)
          if pairClass a0 a1 = .noDevice then Bus.Piece.result (.noDevice i)
          else (Bus.Piece.act (Bus.writeSlot d)).andThen fun _ =>
            Bus.searchFrom len path n (i + 1) (setBit x i d)
              (if pairClass a0 a1 = .collision ∧ d = false then some i else lz) := by
      funext b
      rw [Bus.searchFrom_succ, Bus.Piece.andThen, Bus.Piece.andThen]
      split <;> rfl
    rw [hsucc]
    exact Bus.readSlot_byAnswers.andThen fun a0 => Bus.readSlot_byAnswers.andThen fun a1 =>
      .ite _ (.result _) ((Bus.writeSlot_byAnswers _).andThen fun _ => ih _ _ _)

/-! ### The ops -/

/-- A discovery pass is a piece, whose result is the state it ends in but for the bus (R188). -/
theorem searchPass_byAnswers (c : Byte) (s : State) : ∃ f : Bus.Piece State, f.ByAnswers ∧
    ∀ b, { s with bus := b }.searchPass c = { (f b).1 with bus := (f b).2.release } := by
  by_cases hd : s.srchLen = srchDone
  · refine ⟨_, .result { s with status := { s.status with nomore := true } }.complete, fun b => ?_⟩
    rw [State.searchPass, if_pos hd]
    rfl
  · refine ⟨_, (Bus.writeByte_byAnswers c).andThen fun _ =>
      (Bus.searchFrom_byAnswers s.srchLen.toInt s.srchPath 64 0 0#64 none).andThen fun r => .result (match r with
        | .noDevice i => { s with data := BitVec.ofNat 8 i }.raiseError .protocol
        | .found x lastZero =>
          if romValid x then { s with rom := x, srchPath := x, srchLen := nextBranch lastZero }.complete
          else s.raiseError .checksum), fun b => ?_⟩
    rw [State.searchPass, if_neg hd]
    cases hr : ((b.writeByte c).searchFrom s.srchLen.toInt s.srchPath 64 0 0#64 none).1 with
    | noDevice i =>
      simp only [Bus.Piece.andThen, Bus.Piece.result, hr]
      rfl
    | found x lz =>
      simp only [Bus.Piece.andThen, Bus.Piece.result, hr]
      split <;> rfl

/-- So is a command byte with the busy poll (R169). -/
theorem commandAndPoll_byAnswers (c : Byte) (s : State) : ∃ f : Bus.Piece State, f.ByAnswers ∧
    ∀ b, { s with bus := b }.commandAndPoll c = { (f b).1 with bus := (f b).2.release } := by
  refine ⟨_, (Bus.writeByte_byAnswers c).andThen fun _ =>
    (Bus.poll_byAnswers s.params.pollMax 0).andThen fun r => .result (match r with
      | some n => { s with polls := BitVec.ofNat 32 n }.complete
      | none => { s with polls := BitVec.ofNat 32 s.params.pollMax }.raiseError .timeout), fun b => ?_⟩
  rw [State.commandAndPoll]
  cases hr : ((b.writeByte c).poll s.params.pollMax 0).1 with
  | some n =>
    simp only [Bus.Piece.andThen, Bus.Piece.result, hr]
    rfl
  | none =>
    simp only [Bus.Piece.andThen, Bus.Piece.result, hr]
    rfl

/-- Every op is a piece, whose result is the state it ends in but for the bus (R75). -/
theorem exec_byAnswers (i : Instr) (s : State) : ∃ f : Bus.Piece State, f.ByAnswers ∧
    ∀ b, exec i { s with bus := b } = .next { (f b).1 with bus := (f b).2.release } := by
  cases i with
  | reset =>
    refine ⟨_, Bus.reset_byAnswers.andThen fun a => .ite (a.1 = true)
      (.result { s with status := s.status.handshake a.1 a.2 }.complete)
      (.result ({ s with status := s.status.handshake a.1 a.2 }.raiseError .bus)), fun b => ?_⟩
    simp only [exec, execReset, Bus.Piece.andThen]
    split <;> rfl
  | writeBit v => exact ⟨_, (Bus.writeSlot_byAnswers v).andThen fun _ => .result s.complete, fun _ => rfl⟩
  | readBit =>
    exact ⟨_, Bus.readSlot_byAnswers.andThen fun a =>
      .result { s with data := (BitVec.ofBool a).setWidth 8 }.complete, fun _ => rfl⟩
  | writeByte v => exact ⟨_, (Bus.writeByte_byAnswers v).andThen fun _ => .result s.complete, fun _ => rfl⟩
  | readByte => exact ⟨_, Bus.readByte_byAnswers.andThen fun v => .result { s with data := v }.complete, fun _ => rfl⟩
  | waitLevel level t =>
    exact ⟨_, (Bus.waitLevel_byAnswers level (waitSamples t)).andThen fun a =>
      .result { s with data := (BitVec.ofBool a).setWidth 8 }.complete, fun _ => rfl⟩
  | triplet dir =>
    refine ⟨_, Bus.readSlot_byAnswers.andThen fun a0 => Bus.readSlot_byAnswers.andThen fun a1 =>
      .ite (pairClass a0 a1 = .noDevice) (.result ({ s with data := 0x03#8 }.raiseError .protocol))
        ((Bus.writeSlot_byAnswers ((pairClass a0 a1).choose dir)).andThen fun _ => .result { s with
          data := (BitVec.ofBool (decide (pairClass a0 a1 = PairClass.collision)) ++
            BitVec.ofBool ((pairClass a0 a1).choose dir) ++ BitVec.ofBool a1 ++
            BitVec.ofBool a0).setWidth 8 }.complete),
      fun b => ?_⟩
    simp only [exec, execTriplet, Bus.Piece.andThen]
    split <;> rfl
  | crcClear => exact ⟨_, .result { s with crc := 0x00#8 }.complete, fun _ => rfl⟩
  | crcByte v => exact ⟨_, .result { s with crc := crc8Update s.crc v }.complete, fun _ => rfl⟩
  | romCheck =>
    refine ⟨_, .result (if romValid s.rom then s.complete else s.raiseError .checksum), fun b => ?_⟩
    simp only [exec, execRomCheck, Bus.Piece.result]
    split <;> rfl
  | spCheck =>
    refine ⟨_, .result (if spValid s.sp then s.complete else s.raiseError .checksum), fun b => ?_⟩
    simp only [exec, execSpCheck, Bus.Piece.result]
    split <;> rfl
  | selectAll =>
    exact ⟨_, (Bus.writeByte_byAnswers s.params.cmds.skipRom).andThen fun _ => .result s.complete, fun _ => rfl⟩
  | readRom =>
    refine ⟨_, (Bus.writeByte_byAnswers s.params.cmds.readRom).andThen fun _ => (Bus.readBytes_byAnswers 8).andThen
      fun vs => .result (if romValid (romOfBytes vs) then { s with rom := romOfBytes vs }.complete
        else s.raiseError .checksum), fun b => ?_⟩
    simp only [exec, execReadRom, Bus.Piece.andThen, Bus.Piece.result]
    split <;> rfl
  | selectOne =>
    exact ⟨_, (Bus.writeByte_byAnswers s.params.cmds.matchRom).andThen fun _ =>
      (Bus.writeBytes_byAnswers (romBytes s.rom)).andThen fun _ => .result s.complete, fun _ => rfl⟩
  | convert =>
    obtain ⟨f, hf, hrun⟩ := commandAndPoll_byAnswers s.params.cmds.convertT s
    exact ⟨f, hf, fun b => congrArg Host.Outcome.next (hrun b)⟩
  | readSp =>
    refine ⟨_, (Bus.writeByte_byAnswers s.params.cmds.readSp).andThen fun _ => (Bus.readBytes_byAnswers 9).andThen
      fun vs => .result (if spValid (spOfBytes vs) then { s with sp := spOfBytes vs }.complete
        else s.raiseError .checksum), fun b => ?_⟩
    simp only [exec, execReadSp, Bus.Piece.andThen, Bus.Piece.result]
    split <;> rfl
  | writeSp high low config =>
    exact ⟨_, (Bus.writeBytes_byAnswers [s.params.cmds.writeSp, high, low, config]).andThen fun _ =>
      .result s.complete, fun _ => rfl⟩
  | copySp =>
    obtain ⟨f, hf, hrun⟩ := commandAndPoll_byAnswers s.params.cmds.copySp s
    exact ⟨f, hf, fun b => congrArg Host.Outcome.next (hrun b)⟩
  | readPower =>
    exact ⟨_, (Bus.writeByte_byAnswers s.params.cmds.readPower).andThen fun _ => Bus.readSlot_byAnswers.andThen
      fun a => .result { s with data := (BitVec.ofBool a).setWidth 8 }.complete, fun _ => rfl⟩
  | searchInit => exact ⟨_, .result { s with srchPath := 0#64, srchLen := srchStart }.complete, fun _ => rfl⟩
  | search =>
    obtain ⟨f, hf, hrun⟩ := searchPass_byAnswers s.params.cmds.searchRom s
    exact ⟨f, hf, fun b => congrArg Host.Outcome.next (hrun b)⟩
  | searchAlarm =>
    obtain ⟨f, hf, hrun⟩ := searchPass_byAnswers s.params.cmds.alarmSearch s
    exact ⟨f, hf, fun b => congrArg Host.Outcome.next (hrun b)⟩

/-- The answers of a bus history after an op: those before it, and those of its events. -/
theorem answersOf_history {i : Instr} {s t : State} (h : exec i s = .next t) :
    answersOf t.bus.history = answersOf s.bus.history ++ answersOf (newEvents s t) := by
  obtain ⟨es, hes⟩ := exec_history i s t h
  rw [newEvents_eq hes.symm, ← hes, answersOf_append]

/-- Settles O48: it holds, since every op is made of pieces that give one result and make the same events on the same
answers. -/
theorem behaviourDependsOnlyOnTheAnswers : Obligations.BehaviourDependsOnlyOnTheAnswers := by
  intro i s t t' e hexec hexec' hanswers
  obtain ⟨f, hf, hrun⟩ := exec_byAnswers i s
  have hall : answersOf t.bus.history = answersOf t'.bus.history := by
    rw [answersOf_history hexec, answersOf_history hexec', hanswers]
  obtain rfl := Host.Outcome.next.inj (hexec.symm.trans (hrun s.bus))
  obtain rfl := Host.Outcome.next.inj (hexec'.symm.trans (hrun { s.bus with env := e }))
  obtain ⟨hres, hhist⟩ := hf.determined (b := s.bus) (c := { s.bus with env := e }) rfl List.prefix_rfl
    (hall ▸ List.prefix_rfl)
  rw [← hres]
  simp only [Bus.release, hhist]

end Sys2Proof.Machine
end

section
/-! PROOF. The reference environment (R84): what its devices answer and become, slot by slot and byte by byte. -/

namespace Sys2Proof.Machine

/-! ## Bits of bytes -/

theorem bitsOf_injective {v w : Byte} (h : bitsOf v = bitsOf w) : v = w := by
  rw [← byteOfBits_bitsOf v, h, byteOfBits_bitsOf]

/-- Bytes are told by their bits. -/
theorem flatMap_bitsOf_injective {vs ws : List Byte} (hlen : vs.length = ws.length)
    (h : vs.flatMap bitsOf = ws.flatMap bitsOf) : vs = ws := by
  induction vs generalizing ws with
  | nil => exact (List.length_eq_zero_iff.mp hlen.symm).symm
  | cons v vs ih =>
    obtain _ | ⟨w, ws⟩ := ws
    · simp at hlen
    · obtain ⟨hv, hvs⟩ := List.append_inj h (by simp)
      rw [bitsOf_injective hv, ih (by simpa using hlen) hvs]

/-- The bits of the first bytes of a frame are its first bits (R63, R71). -/
theorem flatMap_bitsOf_bytesOf {n : Nat} (x : BitVec n) (count : Nat) :
    (bytesOf x count).flatMap bitsOf = (List.range (8 * count)).map x.getLsbD := by
  induction count with
  | zero => rfl
  | succ count ih =>
    have hbyte : bitsOf (byteAt x count) = (List.range 8).map fun j => x.getLsbD (8 * count + j) := by
      apply List.map_congr_left
      intro j hj
      simp [byteAt, List.mem_range.mp hj]
    have hlast : bytesOf x (count + 1) = bytesOf x count ++ [byteAt x count] := by simp [bytesOf, List.range_succ]
    rw [hlast, List.flatMap_append, ih, Nat.mul_succ, List.range_add, List.map_append, List.map_map]
    simpa [Function.comp_def] using hbyte

/-- Bytes are sent as their bits. -/
theorem Bus.writeBytes_eq_writeBits (vs : List Byte) (b : Bus) : b.writeBytes vs = b.writeBits (vs.flatMap bitsOf) := by
  induction vs generalizing b with
  | nil => rfl
  | cons v vs ih =>
    rw [Bus.writeBytes_cons, ih, List.flatMap_cons]
    exact (List.foldl_append ..).symm

theorem Bus.readBits_add (m n : Nat) (b : Bus) :
    b.readBits (m + n) = ((b.readBits m).1 ++ ((b.readBits m).2.readBits n).1, ((b.readBits m).2.readBits n).2) := by
  induction m generalizing b with
  | zero => simp
  | succ m ih => simp [Nat.succ_add, Bus.readBits_succ, ih]

/-- Bytes are read as their bits. -/
theorem Bus.readBytes_eq_readBits (n : Nat) (b : Bus) :
    (b.readBytes n).1.flatMap bitsOf = (b.readBits (8 * n)).1 ∧ (b.readBytes n).2 = (b.readBits (8 * n)).2 := by
  induction n generalizing b with
  | zero => exact ⟨rfl, rfl⟩
  | succ n ih =>
    obtain ⟨hbits, hbus⟩ := ih b.readByte.2
    have hbyte : bitsOf b.readByte.1 = (b.readBits 8).1 := bitsOf_byteOfBits _ (by simp)
    rw [Nat.mul_succ, Nat.add_comm (8 * n), Bus.readBits_add, Bus.readBytes_succ, List.flatMap_cons, hbits, hbyte]
    exact ⟨rfl, hbus⟩

/-! ## The devices on the line -/

/-- The devices `ds` are the reference environment on the line. -/
def Bus.Hears (b : Bus) (ds : List Device) : Prop := b.env.agent = .reference ds

/-- A device after a list of write slots. -/
def Device.afterWrites (bits : List Bool) (d : Device) : Device := bits.foldl (fun d v => d.afterWrite v) d

@[simp] theorem Device.afterWrites_nil (d : Device) : d.afterWrites [] = d := rfl
@[simp] theorem Device.afterWrites_cons (v : Bool) (vs : List Bool) (d : Device) :
    d.afterWrites (v :: vs) = (d.afterWrite v).afterWrites vs := rfl
theorem Device.afterWrites_append (vs ws : List Bool) (d : Device) :
    d.afterWrites (vs ++ ws) = (d.afterWrites vs).afterWrites ws := List.foldl_append ..

section
variable {b : Bus} {ds : List Device}

/-- A handshake puts every device in ROMCMD, and is answered by presence if there is one. -/
theorem Bus.Hears.reset (h : b.Hears ds) :
    b.reset.1 = (!ds.isEmpty, true) ∧ b.reset.2.Hears (ds.map Device.afterReset) := by
  unfold Bus.Hears at h ⊢
  simp [Bus.reset_eq, Environment.onReset, h]

theorem Bus.Hears.writeSlot (h : b.Hears ds) (v : Bool) : (b.writeSlot v).Hears (ds.map (Device.afterWrite v)) := by
  unfold Bus.Hears at h ⊢
  simp [Bus.writeSlot_eq, Environment.onWrite, h]

/-- A read slot is answered by the AND of the devices' outputs (R76). -/
theorem Bus.Hears.readSlot (h : b.Hears ds) :
    b.readSlot.1 = ds.all Device.output ∧ b.readSlot.2.Hears (ds.map Device.afterRead) := by
  unfold Bus.Hears at h ⊢
  simp [Bus.readSlot_eq, Environment.onRead, h]

theorem Bus.Hears.sample (h : b.Hears ds) : b.sample.2.Hears ds := by
  unfold Bus.Hears at h ⊢
  simp [Bus.sample_eq, Environment.onSample, h]

theorem Bus.Hears.writeBits (h : b.Hears ds) (vs : List Bool) :
    (b.writeBits vs).Hears (ds.map (Device.afterWrites vs)) := by
  induction vs generalizing b ds with
  | nil =>
    have hid : Device.afterWrites [] = id := rfl
    rwa [hid, List.map_id]
  | cons v vs ih =>
    have := ih (h.writeSlot v)
    rwa [List.map_map] at this

theorem Bus.Hears.writeByte (h : b.Hears ds) (v : Byte) :
    (b.writeByte v).Hears (ds.map (Device.afterWrites (bitsOf v))) :=
  h.writeBits (bitsOf v)

theorem Bus.Hears.writeBytes (h : b.Hears ds) (vs : List Byte) :
    (b.writeBytes vs).Hears (ds.map (Device.afterWrites (vs.flatMap bitsOf))) :=
  b.writeBytes_eq_writeBits vs ▸ h.writeBits _

/-- Read slots are answered, each in its turn, by the AND of what the devices put out then. -/
theorem Bus.Hears.readBits (h : b.Hears ds) (n : Nat) :
    (b.readBits n).1 = (List.range n).map (fun i => ds.all fun d => (Device.afterRead^[i] d).output) := by
  induction n generalizing b ds with
  | zero => rfl
  | succ n ih =>
    obtain ⟨hbit, hrest⟩ := h.readSlot
    rw [Bus.readBits_succ, hbit, ih hrest, List.range_succ_eq_map, List.map_cons, List.map_map]
    simp only [List.all_map]
    rfl

/-- Where the devices together put out a frame, its bytes are read (R71, R76). -/
theorem Bus.Hears.readBytes (h : b.Hears ds) {n count : Nat} (x : BitVec n) (hn : n = 8 * count)
    (hx : ∀ i < n, (ds.all fun d => (Device.afterRead^[i] d).output) = x.getLsbD i) :
    (b.readBytes count).1 = bytesOf x count := by
  apply flatMap_bitsOf_injective (by simp)
  obtain ⟨hbits, -⟩ := Bus.readBytes_eq_readBits count b
  rw [hbits, h.readBits, flatMap_bitsOf_bytesOf, ← hn]
  exact List.map_congr_left fun i hi => hx i (List.mem_range.mp hi)

end

/-! ## One device -/

@[simp] theorem Device.afterReset_st (d : Device) : d.afterReset.st = .romCmd [] := rfl
@[simp] theorem Device.afterReset_rom (d : Device) : d.afterReset.rom = d.rom := rfl
@[simp] theorem Device.afterReset_sp (d : Device) : d.afterReset.sp = d.sp := rfl
@[simp] theorem Device.afterReset_alarm (d : Device) : d.afterReset.alarm = d.alarm := rfl

section
variable {d : Device}

/-- A complete ROM command byte (R84). -/
theorem Device.afterWrites_romCmd (h : d.st = .romCmd []) (c : Byte) :
    d.afterWrites (bitsOf c) = { d with st := d.romCommand c } := by
  have hbits : ∀ bits : List Bool, bits.length = 8 →
      d.afterWrites bits = { d with st := d.romCommand (byteOfBits bits) } := by
    intro bits hlen
    match bits, hlen with
    | [_, _, _, _, _, _, _, _], _ => simp [Device.afterWrite, h, Device.romCommand]
  rw [hbits _ (bitsOf_length c), byteOfBits_bitsOf]

/-- What a function command makes of a device does not depend on the bits collected so far. -/
theorem Device.functionCommand_withSt (c : Byte) (d : Device) (st : DeviceState) :
    { d with st := st }.functionCommand c = d.functionCommand c := by
  simp only [Device.functionCommand]

/-- A complete function command byte (R84). -/
theorem Device.afterWrites_fnCmd (h : d.st = .fnCmd []) (c : Byte) :
    d.afterWrites (bitsOf c) = d.functionCommand c := by
  have hbits : ∀ bits : List Bool, bits.length = 8 → d.afterWrites bits = d.functionCommand (byteOfBits bits) := by
    intro bits hlen
    match bits, hlen with
    | [_, _, _, _, _, _, _, _], _ => simp [Device.afterWrite, h, Device.functionCommand_withSt]
  rw [hbits _ (bitsOf_length c), byteOfBits_bitsOf]

/-- A complete byte of a WRITE_SP (R84). -/
theorem Device.afterWrites_wsp {k : Nat} (h : d.st = .wsp k []) (v : Byte) :
    d.afterWrites (bitsOf v) = { d.storeByte k v with st := if k = 2 then .idle else .wsp (k + 1) [] } := by
  have hbits : ∀ bits : List Bool, bits.length = 8 → d.afterWrites bits =
      { d.storeByte k (byteOfBits bits) with st := if k = 2 then .idle else .wsp (k + 1) [] } := by
    intro bits hlen
    match bits, hlen with
    | [_, _, _, _, _, _, _, _], _ => by_cases hk : k = 2 <;> simp [Device.afterWrite, h, Device.storeByte, hk]
  rw [hbits _ (bitsOf_length v), byteOfBits_bitsOf]

/-! The command bytes, at the defaults of R109. -/

theorem Device.afterWrites_skipRom (h : d.st = .romCmd []) :
    d.afterWrites (bitsOf Config.defaultCommands.skipRom) = { d with st := .fnCmd [] } := by
  rw [Device.afterWrites_romCmd h, Device.romCommand, if_pos rfl]

theorem Device.afterWrites_readRom (h : d.st = .romCmd []) :
    d.afterWrites (bitsOf Config.defaultCommands.readRom) = { d with st := .tx (bitsOf d.rom) .fnCmd } := by
  rw [Device.afterWrites_romCmd h, Device.romCommand, if_neg (by decide), if_pos rfl]

theorem Device.afterWrites_matchRom (h : d.st = .romCmd []) :
    d.afterWrites (bitsOf Config.defaultCommands.matchRom) = { d with st := .matching 0 } := by
  rw [Device.afterWrites_romCmd h, Device.romCommand, if_neg (by decide), if_neg (by decide), if_pos rfl]

theorem Device.afterWrites_searchRom (h : d.st = .romCmd []) :
    d.afterWrites (bitsOf Config.defaultCommands.searchRom) = { d with st := .searching 0 .bit } := by
  rw [Device.afterWrites_romCmd h, Device.romCommand, if_neg (by decide), if_neg (by decide), if_neg (by decide),
    if_pos rfl]

theorem Device.afterWrites_alarmSearch (h : d.st = .romCmd []) :
    d.afterWrites (bitsOf Config.defaultCommands.alarmSearch) =
      { d with st := if d.alarm then .searching 0 .bit else .idle } := by
  rw [Device.afterWrites_romCmd h, Device.romCommand, if_neg (by decide), if_neg (by decide), if_neg (by decide),
    if_neg (by decide), if_pos rfl]

theorem Device.afterWrites_readSp (h : d.st = .fnCmd []) :
    d.afterWrites (bitsOf Config.defaultCommands.readSp) = { d with st := .tx (bitsOf d.sp) .idle } := by
  rw [Device.afterWrites_fnCmd h, Device.functionCommand, if_neg (by decide), if_pos rfl]

theorem Device.afterWrites_writeSp (h : d.st = .fnCmd []) :
    d.afterWrites (bitsOf Config.defaultCommands.writeSp) = { d with st := .wsp 0 [] } := by
  rw [Device.afterWrites_fnCmd h, Device.functionCommand, if_neg (by decide), if_neg (by decide), if_pos rfl]

theorem Device.afterWrites_idle (h : d.st = .idle) (vs : List Bool) : d.afterWrites vs = d := by
  induction vs with
  | nil => rfl
  | cons v vs ih =>
    have hd : d.afterWrite v = d := by simp [Device.afterWrite, h]
    rw [Device.afterWrites_cons, hd, ih]

theorem Device.output_idle (h : d.st = .idle) (i : Nat) : (Device.afterRead^[i] d).output = true := by
  have hd : d.afterRead = d := by simp [Device.afterRead, h]
  rw [Function.iterate_fixed hd]
  simp [Device.output, h]

/-- A device that matches hears the rest of an address and is selected by its own (R84, R164). -/
theorem Device.afterWrites_matching {n : Nat} (h : d.st = .matching n) {bits : List Bool} (hne : bits ≠ [])
    (hlen : n + bits.length = 64) :
    d.afterWrites bits = { d with st := if bits = (bitsOf d.rom).drop n then .fnCmd [] else .idle } := by
  induction bits generalizing n d with
  | nil => exact absurd rfl hne
  | cons v vs ih =>
    have hn : n < (bitsOf d.rom).length := by simp at hlen ⊢; omega
    have hbit : (bitsOf d.rom)[n] = d.rom.getLsbD n := by simp [bitsOf]
    rw [Device.afterWrites_cons, List.drop_eq_getElem_cons hn, hbit]
    simp only [Device.afterWrite, h, List.cons.injEq]
    by_cases hv : v = d.rom.getLsbD n
    · by_cases hlast : n + 1 = 64
      · have hvs : vs = [] := by
          simp at hlen
          exact List.length_eq_zero_iff.mp (by omega)
        simp [hv, hlast, hvs]
      · have hvs : vs ≠ [] := by
          rintro rfl
          simp at hlen
          omega
        simp only [hv, hlast, bne_self_eq_false, Bool.false_eq_true, if_false, true_and]
        rw [ih rfl hvs (by simp at hlen ⊢; omega)]
    · have hidle : { d with st := .idle }.afterWrites vs = { d with st := .idle } := Device.afterWrites_idle rfl vs
      simp [hv, hidle]

/-- A device in the middle of a transmission puts out its next bits, one a read slot (R84). -/
theorem Device.output_tx {bits : List Bool} {next : AfterTx} (h : d.st = .tx bits next) {i : Nat}
    (hi : i < bits.length) : (Device.afterRead^[i] d).output = bits[i] := by
  induction i generalizing d bits with
  | zero =>
    obtain _ | ⟨v, vs⟩ := bits
    · simp at hi
    · simp [Device.output, h]
  | succ i ih =>
    obtain _ | ⟨v, vs⟩ := bits
    · simp at hi
    · have hvs : i < vs.length := by simpa using hi
      have hst : d.afterRead.st = .tx vs next := by
        have : vs ≠ [] := List.ne_nil_of_length_pos (by omega)
        simp [Device.afterRead, h, txAfter, this]
      rw [Function.iterate_succ_apply, ih hst hvs]
      rfl

/-- A device that transmits a frame puts out its bits (R84). -/
theorem Device.output_tx_bitsOf {n : Nat} {x : BitVec n} {next : AfterTx} (h : d.st = .tx (bitsOf x) next) {i : Nat}
    (hi : i < n) : (Device.afterRead^[i] d).output = x.getLsbD i := by
  rw [Device.output_tx h (by simpa using hi)]
  simp [bitsOf]

end

end Sys2Proof.Machine
end

section
/-! PROOF. Transactions with the reference devices (R84): the address that READ_ROM reads, the image of a selected
device, and the limits that WRITE_SP writes. -/

namespace Sys2Proof.Machine

/-! ## A list of ops -/

theorem runOps_nil (s : State) : runOps [] s = .next s := rfl

theorem runOps_cons {i : Instr} {rest : List Instr} {s t : State} (h : exec i s = .next t) :
    runOps (i :: rest) s = runOps rest t := by
  simp only [runOps, h]

theorem runOps_append {is js : List Instr} {s t : State} (h : runOps is s = .next t) :
    runOps (is ++ js) s = runOps js t := by
  induction is generalizing s with
  | nil =>
    obtain rfl := Host.Outcome.next.inj h
    rfl
  | cons i is ih =>
    obtain ⟨u, -, -, hu, -, -⟩ := exec_replays i s
    rw [runOps_cons hu] at h
    rw [List.cons_append, runOps_cons hu, ih h]

/-! ## The ops on a bus with devices on it -/

/-- An op made its events, which left the bus at `b`, and completed (R200). -/
def State.doneOn (s : State) (b : Bus) : State := { s with bus := b }.complete

/-- A RESET that saw presence completed (R112). -/
def State.presentOn (s : State) (b : Bus) : State :=
  { s with bus := b, status := s.status.handshake true true }.complete

@[simp] theorem State.doneOn_params (s : State) (b : Bus) : (s.doneOn b).params = s.params := rfl
@[simp] theorem State.presentOn_params (s : State) (b : Bus) : (s.presentOn b).params = s.params := rfl
@[simp] theorem State.presentOn_rom (s : State) (b : Bus) : (s.presentOn b).rom = s.rom := rfl
@[simp] theorem State.presentOn_bus (s : State) (b : Bus) : (s.presentOn b).bus = b.release := rfl

section
variable {s : State} {ds : List Device}

/-- RESET sees the devices (R84, R112). -/
theorem exec_reset_of_hears (h : s.bus.Hears ds) (hne : ds ≠ []) :
    ∃ b : Bus, exec .reset s = .next (s.presentOn b) ∧
      b.Hears (ds.map Device.afterReset) ∧ b.history.length = s.bus.history.length + 1 := by
  obtain ⟨hanswer, hears⟩ := h.reset
  have hpresence : s.bus.reset.1 = (true, true) := by simp [hanswer, hne]
  refine ⟨s.bus.reset.2, ?_, hears, by simp⟩
  simp only [exec, execReset, hpresence, if_true, State.presentOn]

theorem exec_selectAll_of_hears (h : s.bus.Hears ds) :
    ∃ b : Bus, exec .selectAll s = .next (s.doneOn b) ∧
      b.Hears (ds.map (Device.afterWrites (bitsOf s.params.cmds.skipRom))) :=
  ⟨_, rfl, h.writeByte _⟩

theorem exec_selectOne_of_hears (h : s.bus.Hears ds) :
    ∃ b : Bus, exec .selectOne s = .next (s.doneOn b) ∧
      b.Hears ((ds.map (Device.afterWrites (bitsOf s.params.cmds.matchRom))).map
        (Device.afterWrites ((romBytes s.rom).flatMap bitsOf))) :=
  ⟨_, rfl, (h.writeByte _).writeBytes _⟩

theorem exec_writeSp_of_hears (h : s.bus.Hears ds) (high low config : Byte) :
    ∃ b : Bus, exec (.writeSp high low config) s = .next (s.doneOn b) ∧
      b.Hears (ds.map (Device.afterWrites ([s.params.cmds.writeSp, high, low, config].flatMap bitsOf))) :=
  ⟨_, rfl, h.writeBytes _⟩

/-- READ_ROM, where the devices together put out the address `x` (R162). -/
theorem exec_readRom_of_hears {x : RomCode} (h : s.bus.Hears ds)
    (hx : ∀ i < 64, (ds.all fun d =>
      (Device.afterRead^[i] (d.afterWrites (bitsOf s.params.cmds.readRom))).output) = x.getLsbD i) :
    ∃ b : Bus, exec .readRom s = .next (if romValid x then { s.doneOn b with rom := x }
      else { s with bus := b }.raiseError .checksum) := by
  have hread := (h.writeByte s.params.cmds.readRom).readBytes (count := 8) x rfl
    (by simpa only [List.all_map, Function.comp_def] using hx)
  have hrom : romOfBytes (bytesOf x 8) = x := romOfBytes_romBytes x
  exact ⟨((s.bus.writeByte s.params.cmds.readRom).readBytes 8).2, by
    simp only [exec, execReadRom, hread, hrom]
    rfl⟩

/-- READ_SP, where the devices together put out the valid image `x` (R172). -/
theorem exec_readSp_of_hears {x : Image} (h : s.bus.Hears ds)
    (hx : ∀ i < 72, (ds.all fun d =>
      (Device.afterRead^[i] (d.afterWrites (bitsOf s.params.cmds.readSp))).output) = x.getLsbD i)
    (hvalid : spValid x = true) :
    ∃ b : Bus, exec .readSp s = .next { s.doneOn b with sp := x } := by
  have hread := (h.writeByte s.params.cmds.readSp).readBytes (count := 9) x rfl
    (by simpa only [List.all_map, Function.comp_def] using hx)
  have hsp : spOfBytes (bytesOf x 9) = x := spOfBytes_spBytes x
  exact ⟨((s.bus.writeByte s.params.cmds.readSp).readBytes 9).2, by
    simp only [exec, execReadSp, hread, hsp, hvalid, if_true]
    rfl⟩

end

/-! ## READ_ROM (R162, R163) -/

/-- After a RESET and the command byte of READ_ROM a device transmits its address (R84). -/
theorem Device.output_readRom {d : Device} (h : d.st = .romCmd []) {i : Nat} (hi : i < 64) :
    (Device.afterRead^[i] (d.afterWrites (bitsOf Config.defaultCommands.readRom))).output = d.rom.getLsbD i := by
  rw [Device.afterWrites_readRom h, Device.output_tx_bitsOf rfl hi]

/-- Settles O56: it holds, since every device transmits its address, and the line is the AND of them. -/
theorem readRomReadsTheAndOfAllAddresses : Obligations.ReadRomReadsTheAndOfAllAddresses := by
  intro s ds x hcmds hagent hne hx
  obtain ⟨b₁, hreset, hb₁, -⟩ := exec_reset_of_hears hagent hne
  obtain ⟨b₂, hread⟩ := exec_readRom_of_hears (s := s.presentOn b₁) (x := x) hb₁ fun i hi => by
      simp only [State.presentOn_params, hcmds, List.all_map, Function.comp_def,
        Device.output_readRom (Device.afterReset_st _) hi, Device.afterReset_rom, hx i hi]
  refine ⟨_, (runOps_cons hreset).trans ((runOps_cons hread).trans (runOps_nil _)), fun hvalid => ?_, fun hvalid => ?_⟩
  · rw [if_pos hvalid]
    exact ⟨rfl, rfl⟩
  · rw [if_neg (by simp [hvalid])]
    exact ⟨rfl, rfl⟩

/-! ## SELECT_ONE and READ_SP (R164, R172) -/

/-- SELECT_ONE selects the devices that have its address (R84). -/
theorem Device.afterWrites_selectOne {d : Device} (h : d.st = .romCmd []) (x : RomCode) :
    (d.afterWrites (bitsOf Config.defaultCommands.matchRom)).afterWrites ((romBytes x).flatMap bitsOf) =
      { d with st := if x = d.rom then .fnCmd [] else .idle } := by
  have hbits : ∀ y : RomCode, (romBytes y).flatMap bitsOf = bitsOf y := fun y => flatMap_bitsOf_bytesOf y 8
  have hinj : bitsOf x = bitsOf d.rom ↔ x = d.rom := by
    refine ⟨fun heq => ?_, fun heq => heq ▸ rfl⟩
    rw [← hbits, ← hbits d.rom] at heq
    rw [← romOfBytes_romBytes x, flatMap_bitsOf_injective (by simp [romBytes]) heq, romOfBytes_romBytes]
  have hmatch := Device.afterWrites_matching (d := { d with st := .matching 0 }) (n := 0) rfl (bits := bitsOf x)
    (List.ne_nil_of_length_pos (by simp)) (by simp)
  rw [List.drop_zero] at hmatch
  simp only [hinj] at hmatch
  rw [Device.afterWrites_matchRom h, hbits]
  exact hmatch

/-- After the command byte of READ_SP a selected device transmits its image (R84). -/
theorem Device.output_readSp {d : Device} (h : d.st = .fnCmd []) {i : Nat} (hi : i < 72) :
    (Device.afterRead^[i] (d.afterWrites (bitsOf Config.defaultCommands.readSp))).output = d.sp.getLsbD i := by
  rw [Device.afterWrites_readSp h, Device.output_tx_bitsOf rfl hi]

/-- After SELECT_ONE of the address `x` and the command byte of READ_SP, the devices that have it transmit their image,
and the others leave the line alone (R84). -/
theorem Device.output_selectOne_readSp {d : Device} (h : d.st = .romCmd []) (x : RomCode) {i : Nat} (hi : i < 72) :
    (Device.afterRead^[i] (((d.afterWrites (bitsOf Config.defaultCommands.matchRom)).afterWrites
      ((romBytes x).flatMap bitsOf)).afterWrites (bitsOf Config.defaultCommands.readSp))).output =
      if x = d.rom then d.sp.getLsbD i else true := by
  rw [Device.afterWrites_selectOne h]
  by_cases hx : x = d.rom
  · rw [if_pos hx, if_pos hx, Device.output_readSp rfl hi]
  · rw [if_neg hx, if_neg hx, Device.afterWrites_idle rfl, Device.output_idle rfl]

/-- Settles O57: it holds, since the devices that were not selected leave the line alone, and the others transmit the
same image. -/
theorem selectedDeviceGivesItsImage : Obligations.SelectedDeviceGivesItsImage := by
  intro s ds d hcmds hagent hd hsame hrom hvalid
  have hline : ∀ i, (ds.all fun d' => if d.rom = d'.rom then d'.sp.getLsbD i else true) = d.sp.getLsbD i := by
    intro i
    rw [Bool.eq_iff_iff, List.all_eq_true]
    refine ⟨fun h => by simpa using h d hd, fun h d' hd' => ?_⟩
    by_cases hx : d.rom = d'.rom
    · rw [if_pos hx, hsame d' hd' hx.symm, h]
    · rw [if_neg hx]
  obtain ⟨b₁, hreset, hb₁, -⟩ := exec_reset_of_hears hagent (List.ne_nil_of_mem hd)
  obtain ⟨b₂, hselect, hb₂⟩ := exec_selectOne_of_hears (s := s.presentOn b₁) hb₁
  obtain ⟨b₃, hread⟩ := exec_readSp_of_hears (s := (s.presentOn b₁).doneOn b₂) (x := d.sp) hb₂ (fun i hi => by
    simp only [State.doneOn_params, State.presentOn_params, State.presentOn_rom, hcmds, hrom, List.all_map,
      Function.comp_def, Device.output_selectOne_readSp (Device.afterReset_st _) _ hi, Device.afterReset_rom,
      Device.afterReset_sp]
    exact hline i) hvalid
  exact ⟨_, (runOps_cons hreset).trans ((runOps_cons hselect).trans (runOps_cons hread)), rfl, rfl, rfl⟩

/-! ## WRITE_SP and READ_SP (R172, R174) -/

/-- A byte of an image with a byte replaced (R63). -/
theorem byteAt_setByte (x : Image) (k : Nat) (v : Byte) {j : Nat} (hj : j < 9) :
    byteAt (setByte x k v) j = if j = k then v else byteAt x j := by
  apply BitVec.eq_of_getLsbD_eq
  intro i hi
  have hn : 8 * j + i < 72 := by omega
  have hmask : (0xFF#8).getLsbD (8 * j + i - 8 * k) = decide (8 * j + i - 8 * k < 8) := BitVec.getLsbD_allOnes
  have hbit : (byteAt (setByte x k v) j).getLsbD i =
      (x.getLsbD (8 * j + i) && !(!decide (8 * j + i < 8 * k) && decide (8 * j + i - 8 * k < 8)) ||
        (!decide (8 * j + i < 8 * k) && v.getLsbD (8 * j + i - 8 * k))) := by
    simp only [byteAt, setByte, BitVec.getLsbD_extractLsb', BitVec.getLsbD_or, BitVec.getLsbD_and, BitVec.getLsbD_not,
      BitVec.getLsbD_shiftLeft, BitVec.getLsbD_setWidth, hmask, hi, hn, Nat.sub_lt_of_lt hn, decide_true, Bool.true_and]
  rw [hbit]
  split
  next hjk =>
    subst hjk
    simp [hi]
  next hjk =>
    have hother : 8 * j + i < 8 * k ∨ 8 ≤ 8 * j + i - 8 * k := by omega
    have hx : (byteAt x j).getLsbD i = x.getLsbD (8 * j + i) := by simp [byteAt, hi]
    rw [hx]
    rcases hother with hlt | hge
    · simp [hlt]
    · have hv : v.getLsbD (8 * j + i - 8 * k) = false := BitVec.getLsbD_of_ge v _ hge
      simp [hv, Nat.not_lt.mpr hge]

/-- The image of a device with a byte replaced and the checksum made right (R84). -/
theorem byteAt_storeByte (d : Device) (k : Nat) (v : Byte) {j : Nat} (hj : j < 8) :
    byteAt (d.storeByte k v).sp j = if j = 2 + k then v else byteAt d.sp j := by
  rw [Device.storeByte, byteAt_setByte _ _ _ (by omega), if_neg (by omega), byteAt_setByte _ _ _ (by omega)]

theorem spValid_storeByte (d : Device) (k : Nat) (v : Byte) : spValid (d.storeByte k v).sp = true := by
  have htake : ∀ (x : Image) (c : Byte), (spBytes (setByte x 8 c)).take 8 = (spBytes x).take 8 := by
    intro x c
    have hj : ∀ j < 8, byteAt (setByte x 8 c) j = byteAt x j := fun j hj => by
      rw [byteAt_setByte _ _ _ (by omega), if_neg (by omega)]
    simpa [spBytes, bytesOf, ← List.map_take, List.take_range] using hj
  rw [spValid, Device.storeByte, htake, byteAt_setByte _ _ _ (by decide), if_pos rfl, beq_self_eq_true]

/-- The device with its function command to come (R84). -/
def Device.selected (d : Device) : Device := { d with st := .fnCmd [] }

theorem Device.afterReset_afterWrites_skipRom (d : Device) :
    d.afterReset.afterWrites (bitsOf Config.defaultCommands.skipRom) = d.selected :=
  Device.afterWrites_skipRom rfl

/-- The device after a complete WRITE_SP (R84, R174). -/
def Device.written (high low config : Byte) (d : Device) : Device :=
  ((d.storeByte 0 high).storeByte 1 low).storeByte 2 config

theorem Device.selected_afterWrites_writeSp (d : Device) (high low config : Byte) :
    d.selected.afterWrites ([Config.defaultCommands.writeSp, high, low, config].flatMap bitsOf) =
      { d.written high low config with st := .idle } := by
  simp only [List.flatMap_cons, List.flatMap_nil, Device.afterWrites_append]
  rw [Device.afterWrites_writeSp rfl, Device.afterWrites_wsp rfl, Device.afterWrites_wsp rfl,
    Device.afterWrites_wsp rfl]
  rfl

/-- Two and three bytes of an image that stand side by side are one piece of it (R63). -/
theorem byteAt_append_two (x : Image) (k : Nat) : byteAt x (k + 1) ++ byteAt x k = x.extractLsb' (8 * k) 16 :=
  BitVec.extractLsb'_append_extractLsb'_eq_extractLsb' (by omega)

theorem byteAt_append_three (x : Image) (k : Nat) :
    byteAt x (k + 2) ++ byteAt x (k + 1) ++ byteAt x k = x.extractLsb' (8 * k) 24 := by
  rw [byteAt_append_two]
  exact BitVec.extractLsb'_append_extractLsb'_eq_extractLsb' (by omega)

/-- The image after a complete WRITE_SP: the three bytes, the device's own bytes elsewhere, and the right checksum. -/
theorem Device.written_sp (high low config : Byte) (d : Device) :
    (d.written high low config).sp.extractLsb' 16 24 = config ++ low ++ high ∧
    (d.written high low config).sp.extractLsb' 0 16 = d.sp.extractLsb' 0 16 ∧
    (d.written high low config).sp.extractLsb' 40 24 = d.sp.extractLsb' 40 24 := by
  have hbyte : ∀ j < 8, byteAt (d.written high low config).sp j =
      if j = 4 then config else if j = 3 then low else if j = 2 then high else byteAt d.sp j := by
    intro j hj
    rw [Device.written, byteAt_storeByte _ _ _ hj, byteAt_storeByte _ _ _ hj, byteAt_storeByte _ _ _ hj]
  rw [← byteAt_append_three _ 2, ← byteAt_append_two _ 0, ← byteAt_append_two _ 0, ← byteAt_append_three _ 5,
    ← byteAt_append_three _ 5]
  simp [hbyte]

/-- RESET and SELECT_ALL select every device (R84, R160). -/
theorem runOps_reset_selectAll {s : State} {ds : List Device} (hcmds : s.params.cmds = Config.defaultCommands)
    (h : s.bus.Hears ds) (hne : ds ≠ []) :
    ∃ b₁ b₂ : Bus, runOps [.reset, .selectAll] s = .next ((s.presentOn b₁).doneOn b₂) ∧
      b₂.Hears (ds.map Device.selected) := by
  obtain ⟨b₁, hreset, hb₁, -⟩ := exec_reset_of_hears h hne
  obtain ⟨b₂, hselect, hb₂⟩ := exec_selectAll_of_hears (s := s.presentOn b₁) hb₁
  have hskip : Device.afterWrites (bitsOf Config.defaultCommands.skipRom) ∘ Device.afterReset = Device.selected := by
    funext d
    rw [Function.comp_apply, Device.afterReset_afterWrites_skipRom]
  rw [State.presentOn_params, hcmds, List.map_map, hskip] at hb₂
  exact ⟨b₁, b₂, (runOps_cons hreset).trans (runOps_cons hselect), hb₂⟩

/-- Settles O58: it holds, since the device stores the three bytes with the right checksum, and transmits its image at
the next READ_SP. -/
theorem writtenLimitsAreReadBack : Obligations.WrittenLimitsAreReadBack := by
  intro s d high low config hcmds hagent
  obtain ⟨b₁, b₂, hselect, hb₂⟩ := runOps_reset_selectAll hcmds hagent (by simp)
  obtain ⟨b₃, hwrite, hb₃⟩ := exec_writeSp_of_hears (s := (s.presentOn b₁).doneOn b₂) hb₂ high low config
  obtain ⟨b₄, b₅, hselect', hb₅⟩ := runOps_reset_selectAll (s := ((s.presentOn b₁).doneOn b₂).doneOn b₃) hcmds hb₃
    (by simp)
  obtain ⟨b₆, hread⟩ := exec_readSp_of_hears (s := ((((s.presentOn b₁).doneOn b₂).doneOn b₃).presentOn b₄).doneOn b₅)
    (x := (d.written high low config).sp) hb₅ (fun i hi => by
      simp only [State.doneOn_params, State.presentOn_params, hcmds, List.map_cons, List.map_nil, List.all_cons,
        List.all_nil, Bool.and_true, Device.selected_afterWrites_writeSp,
        Device.output_readSp (d := Device.selected _) rfl hi]
      rfl)
    (spValid_storeByte _ _ _)
  obtain ⟨hwritten, hbelow, habove⟩ := Device.written_sp high low config d
  exact ⟨_, (runOps_append hselect).trans ((runOps_cons hwrite).trans ((runOps_append hselect').trans
    (runOps_cons hread))), hwritten, hbelow, habove, spValid_storeByte _ _ _, rfl⟩

end Sys2Proof.Machine
end

section
/-! PROOF. A discovery pass over the reference devices (R84, R188): the address it finds and the branch point it
leaves. -/

namespace Sys2Proof.Machine

/-! ## The order of the bit-reversed key (R189) -/

/-- Two addresses that are not equal differ at a first position. -/
theorem exists_first_difference {x y : RomCode} (h : x ≠ y) :
    ∃ k < 64, (∀ j < k, x.getLsbD j = y.getLsbD j) ∧ x.getLsbD k ≠ y.getLsbD k := by
  have hdiff : ∃ k, k < 64 ∧ x.getLsbD k ≠ y.getLsbD k := by
    by_contra hno
    push Not at hno
    exact h (BitVec.eq_of_getLsbD_eq hno)
  classical
  obtain ⟨hlt, hne⟩ := Nat.find_spec hdiff
  refine ⟨Nat.find hdiff, hlt, fun j hj => ?_, hne⟩
  have hmin := Nat.find_min hdiff hj
  push Not at hmin
  exact hmin (hj.trans hlt)

theorem foundBefore_trichotomy (x y : RomCode) : x = y ∨ foundBefore x y ∨ foundBefore y x := by
  by_cases h : x = y
  · exact .inl h
  · obtain ⟨k, hk, hbelow, hne⟩ := exists_first_difference h
    cases hx : x.getLsbD k with
    | false => exact .inr (.inl ⟨k, hk, hbelow, hx, by simpa [hx] using hne.symm⟩)
    | true => exact .inr (.inr ⟨k, hk, fun j hj => (hbelow j hj).symm, by simpa [hx] using hne.symm, hx⟩)

theorem foundBefore_irrefl (x : RomCode) : ¬ foundBefore x x := by
  rintro ⟨k, -, -, h0, h1⟩
  simp [h0] at h1

theorem foundBefore_trans {x y z : RomCode} (hxy : foundBefore x y) (hyz : foundBefore y z) : foundBefore x z := by
  obtain ⟨k, hk, hbelow, hx, hy⟩ := hxy
  obtain ⟨l, hl, hbelow', hy', hz⟩ := hyz
  rcases Nat.lt_trichotomy k l with hlt | rfl | hgt
  · exact ⟨k, hk, fun j hj => (hbelow j hj).trans (hbelow' j (hj.trans hlt)), hx, (hbelow' k hlt).symm.trans hy⟩
  · simp [hy] at hy'
  · exact ⟨l, hl, fun j hj => (hbelow j (hj.trans hgt)).trans (hbelow' j hj), (hbelow l hgt).trans hy', hz⟩

/-- An address has an open branch where another one is found after it (R188, R189). -/
theorem exists_openBranch_iff {roms : List RomCode} {x : RomCode} :
    (∃ k, openBranch roms x k) ↔ ∃ z ∈ roms, foundBefore x z := by
  constructor
  · rintro ⟨k, hk, hx, z, hz, hbelow, hzk⟩
    exact ⟨z, hz, k, hk, fun j hj => (hbelow j hj).symm, hx, hzk⟩
  · rintro ⟨z, hz, k, hk, hbelow, hx, hzk⟩
    exact ⟨k, hk, hx, z, hz, fun j hj => (hbelow j hj).symm, hzk⟩

/-- The branch point is DONE exactly when no other address is found after the address (R188). -/
theorem isBranchPoint_done_iff {roms : List RomCode} {x : RomCode} {len : Word} (h : isBranchPoint roms x len) :
    len = srchDone ↔ ∀ z ∈ roms, ¬ foundBefore x z := by
  rcases h with ⟨k, hopen, -, rfl⟩ | ⟨hnone, rfl⟩
  · obtain ⟨z, hz, hbefore⟩ := exists_openBranch_iff.mp ⟨k, hopen⟩
    refine iff_of_false (fun heq => ?_) fun hno => hno z hz hbefore
    have hk : k < 64 := hopen.1
    have := congrArg BitVec.toNat heq
    simp [srchDone] at this
    omega
  · refine iff_of_true rfl fun z hz hbefore => ?_
    obtain ⟨k, hopen⟩ := exists_openBranch_iff.mpr ⟨z, hz, hbefore⟩
    exact hnone k hopen

/-! ## What a pass decides -/

/-- From position `i` on, `y` is the address of `roms` that the pass decides on, `choice` being its choices at
collisions: where another address that agrees with `y` so far differs from it, `y` has the bit chosen (R188). -/
structure ChosenFrom (i : Nat) (roms : List RomCode) (choice : Nat → Bool) (y : RomCode) : Prop where
  mem : y ∈ roms
  bit : ∀ j, i ≤ j → j < 64 →
    (∃ z ∈ roms, (∀ m < j, z.getLsbD m = y.getLsbD m) ∧ z.getLsbD j ≠ y.getLsbD j) → y.getLsbD j = choice j

/-- From position `i` on, the last collision where 0 was chosen is the last open branch of `y`; where there is none, it
is the one before (R188). -/
def LastOpenFrom (i : Nat) (roms : List RomCode) (y : RomCode) (before last : Option Nat) : Prop :=
  (∃ k, i ≤ k ∧ openBranch roms y k ∧ (∀ j, openBranch roms y j → j ≤ k) ∧ last = some k) ∨
  ((∀ j, i ≤ j → ¬ openBranch roms y j) ∧ last = before)

/-- Of the addresses that agree with the one decided on below `k`, it is the first, where the choices from `k` on
are 0. -/
theorem ChosenFrom.first {roms : List RomCode} {choice : Nat → Bool} {y : RomCode} (h : ChosenFrom 0 roms choice y)
    {k : Nat} (hchoice : ∀ j, k ≤ j → choice j = false) {z : RomCode} (hz : z ∈ roms)
    (hbelow : ∀ j < k, z.getLsbD j = y.getLsbD j) : z = y ∨ foundBefore y z := by
  by_cases heq : z = y
  · exact .inl heq
  · obtain ⟨j, hj, hagree, hne⟩ := exists_first_difference heq
    have hkj : k ≤ j := by
      by_contra hlt
      exact hne (hbelow j (by omega))
    have hy : y.getLsbD j = false := (h.bit j (Nat.zero_le j) hj ⟨z, hz, hagree, hne⟩).trans (hchoice j hkj)
    exact .inr ⟨j, hj, fun m hm => (hagree m hm).symm, hy, by simpa [hy] using hne⟩

/-- With the path and the branch point that `x` left, the address decided on is the next one after `x` (R189). -/
theorem ChosenFrom.next {roms : List RomCode} {x y : RomCode} {k : Nat} (hx : x ∈ roms) (hopen : openBranch roms x k)
    (hlast : ∀ j, openBranch roms x j → j ≤ k) (h : ChosenFrom 0 roms (collisionChoice k x) y) :
    foundBefore x y ∧ ∀ z ∈ roms, foundBefore x z → z = y ∨ foundBefore y z := by
  obtain ⟨hk, hxk, w, hw, hwbelow, hwk⟩ := hopen
  have hbelow : ∀ j < k, x.getLsbD j = y.getLsbD j := by
    intro j
    induction j using Nat.strong_induction_on with
    | _ j ih =>
      intro hj
      by_contra hne
      have hchosen := h.bit j (Nat.zero_le j) (by omega) ⟨x, hx, fun m hm => ih m hm (hm.trans hj), hne⟩
      simp [collisionChoice, hj] at hchosen
      exact hne hchosen.symm
  have hyk : y.getLsbD k = true := by
    by_contra hne
    have hyk : y.getLsbD k = false := by simpa using hne
    have hchosen := h.bit k (Nat.zero_le k) hk
      ⟨w, hw, fun m hm => (hwbelow m hm).trans (hbelow m hm), by simp [hwk, hyk]⟩
    simp [collisionChoice, hyk] at hchosen
  refine ⟨⟨k, hk, hbelow, hxk, hyk⟩, fun z hz hxz => ?_⟩
  obtain ⟨l, hl, hzbelow, hxl, hzl⟩ := hxz
  have hlk : l ≤ k := hlast l ⟨hl, hxl, z, hz, fun j hj => (hzbelow j hj).symm, hzl⟩
  rcases Nat.lt_or_eq_of_le hlk with hlt | rfl
  · exact .inr ⟨l, hl, fun j hj => (hbelow j (hj.trans hlt)).symm.trans (hzbelow j hj),
      (hbelow l hlt).symm.trans hxl, hzl⟩
  · refine h.first (k := l + 1) (fun j hj => ?_) hz fun j hj => ?_
    · have hnlt : ¬ (j : Int) < l := by omega
      have hne : ¬ (j : Int) = l := by omega
      simp only [collisionChoice, hnlt, hne, if_false]
    · rcases Nat.lt_or_eq_of_le (Nat.le_of_lt_succ hj) with hlt | rfl
      · exact (hzbelow j hlt).symm.trans (hbelow j hlt)
      · rw [hzl, hyk]

/-- From START every collision is decided for 0. -/
theorem collisionChoice_start (path : BitVec 64) (j : Nat) : collisionChoice srchStart.toInt path j = false := by
  have hstart : srchStart.toInt = -1 := by decide
  have hnlt : ¬ (j : Int) < -1 := by omega
  have hne : ¬ (j : Int) = -1 := by omega
  simp only [collisionChoice, hstart, hnlt, hne, if_false]

/-! ## One position of a pass -/

/-- The pair that the devices with the addresses `roms` put out at a position, and the bit chosen (R128, R188): at least
one of them has it, and another one does not exactly at a collision, which the caller decides. -/
theorem pairClass_of_reads {roms : List RomCode} (hne : roms ≠ []) (i : Nat) (choice : Bool) :
    let c := pairClass (roms.all fun x => x.getLsbD i) (roms.all fun x => !x.getLsbD i)
    c ≠ .noDevice ∧ (∃ z ∈ roms, z.getLsbD i = c.choose choice) ∧
      (c = .collision ↔ ∃ z ∈ roms, z.getLsbD i ≠ c.choose choice) ∧ (c = .collision → c.choose choice = choice) := by
  obtain ⟨w, hw⟩ := List.exists_mem_of_ne_nil roms hne
  cases h1 : roms.all fun x => x.getLsbD i with
  | true =>
    rw [List.all_eq_true] at h1
    have h0 : (roms.all fun x => !x.getLsbD i) = false := by
      rw [List.all_eq_false]
      exact ⟨w, hw, by simp [h1 w hw]⟩
    refine ⟨by simp [h0, pairClass], ⟨w, hw, by simp [h0, pairClass, PairClass.choose, h1 w hw]⟩, ?_, ?_⟩
    · simp only [h0, pairClass, PairClass.choose, reduceCtorEq, false_iff, not_exists, not_and, not_not]
      exact h1
    · simp [h0, pairClass]
  | false =>
    rw [List.all_eq_false] at h1
    obtain ⟨z, hz, hz0⟩ := h1
    cases h0 : roms.all fun x => !x.getLsbD i with
    | true =>
      rw [List.all_eq_true] at h0
      refine ⟨by simp [pairClass], ⟨z, hz, by simpa [pairClass, PairClass.choose] using hz0⟩, ?_, by simp [pairClass]⟩
      simpa [pairClass, PairClass.choose] using h0
    | false =>
      rw [List.all_eq_false] at h0
      obtain ⟨o, ho, ho1⟩ := h0
      refine ⟨by simp [pairClass], ?_, ?_, by simp [pairClass, PairClass.choose]⟩
      · cases choice
        · exact ⟨z, hz, by simpa [pairClass, PairClass.choose] using hz0⟩
        · exact ⟨o, ho, by simpa [pairClass, PairClass.choose] using ho1⟩
      · cases choice
        · exact iff_of_true rfl ⟨o, ho, by simpa [pairClass, PairClass.choose] using ho1⟩
        · exact iff_of_true rfl ⟨z, hz, by simpa [pairClass, PairClass.choose] using hz0⟩

section
variable {roms : List RomCode} {i : Nat} {y : RomCode} {v : Bool}

/-- The addresses that are left after a position agree with the one decided on there. -/
theorem mem_of_agree {j : Nat} (hy : y ∈ roms.filter fun z => z.getLsbD i == v) (hij : i < j) {z : RomCode}
    (hz : z ∈ roms) (hagree : ∀ m < j, z.getLsbD m = y.getLsbD m) : z ∈ roms.filter fun z => z.getLsbD i == v := by
  obtain ⟨-, hyi⟩ := List.mem_filter.mp hy
  exact List.mem_filter.mpr ⟨hz, by rw [hagree i hij]; exact hyi⟩

theorem openBranch_filter {j : Nat} (hy : y ∈ roms.filter fun z => z.getLsbD i == v) (hij : i < j) :
    openBranch (roms.filter fun z => z.getLsbD i == v) y j ↔ openBranch roms y j := by
  constructor
  · rintro ⟨hj, hyj, z, hz, hagree, hzj⟩
    exact ⟨hj, hyj, z, List.mem_of_mem_filter hz, hagree, hzj⟩
  · rintro ⟨hj, hyj, z, hz, hagree, hzj⟩
    exact ⟨hj, hyj, z, mem_of_agree hy hij hz hagree, hagree, hzj⟩

/-- What is decided from the next position on is decided from this one on, where the choice here is the bit of a
collision. -/
theorem ChosenFrom.of_filter {choice : Nat → Bool}
    (h : ChosenFrom (i + 1) (roms.filter fun z => z.getLsbD i == v) choice y)
    (hchoice : (∃ z ∈ roms, z.getLsbD i ≠ v) → v = choice i) : ChosenFrom i roms choice y := by
  obtain ⟨hy, hrest⟩ := h
  obtain ⟨hmem, hyi⟩ := List.mem_filter.mp hy
  have hyi : y.getLsbD i = v := by simpa using hyi
  refine ⟨hmem, fun j hij hj hdiff => ?_⟩
  obtain ⟨z, hz, hagree, hne⟩ := hdiff
  rcases Nat.lt_or_eq_of_le hij with hlt | rfl
  · exact hrest j hlt hj ⟨z, mem_of_agree hy hlt hz hagree, hagree, hne⟩
  · rw [hyi] at hne ⊢
    exact hchoice ⟨z, hz, hne⟩

/-- The last open branch from the next position on, and the collision here, give the last one from this position on. -/
theorem LastOpenFrom.of_filter {before last : Option Nat} {collision : Prop} [Decidable collision]
    (hy : y ∈ roms.filter fun z => z.getLsbD i == v) (hi : i < 64)
    (hagree : ∀ z ∈ roms, ∀ j < i, z.getLsbD j = y.getLsbD j)
    (hcollision : collision ↔ ∃ z ∈ roms, z.getLsbD i ≠ v)
    (h : LastOpenFrom (i + 1) (roms.filter fun z => z.getLsbD i == v) y
      (if collision ∧ v = false then some i else before) last) :
    LastOpenFrom i roms y before last := by
  obtain ⟨hmem, hyi⟩ := List.mem_filter.mp hy
  have hyi : y.getLsbD i = v := by simpa using hyi
  have hopen : openBranch roms y i ↔ collision ∧ v = false := by
    rw [hcollision]
    constructor
    · rintro ⟨-, hy0, z, hz, -, hz1⟩
      have hv : v = false := hyi ▸ hy0
      exact ⟨⟨z, hz, by simp [hz1, hv]⟩, hv⟩
    · rintro ⟨⟨z, hz, hne⟩, rfl⟩
      exact ⟨hi, hyi, z, hz, hagree z hz, by simpa using hne⟩
  rcases h with ⟨k, hik, hk, hmax, hlast⟩ | ⟨hnone, hlast⟩
  · refine .inl ⟨k, by omega, (openBranch_filter hy hik).mp hk, fun j hj => ?_, hlast⟩
    rcases Nat.lt_or_ge i j with hlt | hge
    · exact hmax j ((openBranch_filter hy hlt).mpr hj)
    · omega
  · have hnone : ∀ j, i < j → ¬ openBranch roms y j := fun j hj hj' =>
      hnone j hj ((openBranch_filter hy hj).mpr hj')
    by_cases hc : collision ∧ v = false
    · rw [if_pos hc] at hlast
      refine .inl ⟨i, le_rfl, hopen.mpr hc, fun j hj => ?_, hlast⟩
      by_contra hlt
      exact hnone j (by omega) hj
    · rw [if_neg hc] at hlast
      refine .inr ⟨fun j hij hj => ?_, hlast⟩
      rcases Nat.lt_or_eq_of_le hij with hlt | rfl
      · exact hnone j hlt hj
      · exact hc (hopen.mp hj)

end

end Sys2Proof.Machine
end

section
/-! PROOF. Discovery under the reference environment (R84, R189): the devices in a search, the pass they answer, and the
passes that find them all. -/

namespace Sys2Proof.Machine

/-! ## The devices in a search -/

/-- Where a device that takes part in a search is before position `i`; after the last one it waits for a function
command (R84). -/
def searchState (i : Nat) : DeviceState := if i < 64 then .searching i .bit else .fnCmd []

theorem searchState_of_lt {i : Nat} (hi : i < 64) : searchState i = .searching i .bit := if_pos hi

theorem searchState_ne_idle (i : Nat) : searchState i ≠ .idle := by
  unfold searchState
  split <;> simp

/-- A device through one position of a pass: a pair of read slots, and the write slot of the bit `v` (R188). -/
def Device.throughPosition (v : Bool) (d : Device) : Device := d.afterRead.afterRead.afterWrite v

section
variable {d : Device} {i : Nat}

/-- A device in the search puts out its bit and then the complement (R84). -/
theorem Device.outputs_searching (hi : i < 64) (h : d.st = searchState i) :
    d.output = d.rom.getLsbD i ∧ d.afterRead.output = !d.rom.getLsbD i := by
  rw [searchState_of_lt hi] at h
  simp [Device.output, Device.afterRead, h]

/-- A device in the search stays if its bit is chosen (R84). -/
theorem Device.throughPosition_searching (hi : i < 64) (h : d.st = searchState i) (v : Bool) :
    d.throughPosition v = { d with st := if d.rom.getLsbD i == v then searchState (i + 1) else .idle } := by
  have hread : d.afterRead.afterRead = { d with st := .searching i .choice } := by
    rw [searchState_of_lt hi] at h
    simp [Device.afterRead, h]
  rw [Device.throughPosition, hread]
  by_cases hv : d.rom.getLsbD i = v
  · subst hv
    by_cases hlast : i + 1 = 64
    · have hnext : searchState 64 = .fnCmd [] := rfl
      simp [Device.afterWrite, hlast, hnext]
    · simp [Device.afterWrite, hlast, searchState_of_lt (i := i + 1) (by omega)]
  · have hv' : v ≠ d.rom.getLsbD i := fun h => hv h.symm
    simp [Device.afterWrite, hv, hv']

/-- A device out of the search leaves the line alone (R84). -/
theorem Device.outputs_idle (h : d.st = .idle) : d.output = true ∧ d.afterRead.output = true := by
  simp [Device.output, Device.afterRead, h]

theorem Device.throughPosition_idle (h : d.st = .idle) (v : Bool) : d.throughPosition v = d := by
  simp [Device.throughPosition, Device.afterRead, Device.afterWrite, h]

end

/-- Before position `i` of a pass the devices with the addresses `roms` are in the search, and all others out of it. -/
def Bus.Searches (b : Bus) (i : Nat) (roms : List RomCode) : Prop :=
  ∃ ds : List Device, b.Hears ds ∧ (∀ d ∈ ds, d.st = .idle ∨ d.st = searchState i) ∧
    (ds.filter fun d => d.st = searchState i).map (·.rom) = roms

/-- The line is the AND over the devices that are in the search. -/
theorem all_eq_all_searching {ds : List Device} {i : Nat} (hst : ∀ d ∈ ds, d.st = .idle ∨ d.st = searchState i)
    {f : Device → Bool} {g : RomCode → Bool} (hidle : ∀ d : Device, d.st = .idle → f d = true)
    (hsearch : ∀ d : Device, d.st = searchState i → f d = g d.rom) :
    ds.all f = ((ds.filter fun d => d.st = searchState i).map (·.rom)).all g := by
  rw [List.all_map, List.all_filter, Bool.eq_iff_iff, List.all_eq_true, List.all_eq_true]
  refine forall₂_congr fun d hd => ?_
  rcases hst d hd with h | h
  · simp [hidle d h, h, (searchState_ne_idle i).symm]
  · simp [hsearch d h, h]

/-- One position of a pass: the pair is the AND of the bits and of their complements, and the devices with the bit
chosen stay in the search (R84, R188). -/
theorem Bus.Searches.position {b : Bus} {i : Nat} {roms : List RomCode} (h : b.Searches i roms) (hi : i < 64) :
    b.readSlot.1 = (roms.all fun x => x.getLsbD i) ∧
    b.readSlot.2.readSlot.1 = (roms.all fun x => !x.getLsbD i) ∧
    ∀ v, (b.readSlot.2.readSlot.2.writeSlot v).Searches (i + 1) (roms.filter fun x => x.getLsbD i == v) := by
  obtain ⟨ds, hears, hst, rfl⟩ := h
  obtain ⟨hbit, hears₁⟩ := hears.readSlot
  obtain ⟨hcomplement, hears₂⟩ := hears₁.readSlot
  refine ⟨?_, ?_, fun v => ⟨ds.map (Device.throughPosition v), ?_, ?_, ?_⟩⟩
  · rw [hbit]
    exact all_eq_all_searching hst (fun d hd => (Device.outputs_idle hd).1)
      fun d hd => (Device.outputs_searching hi hd).1
  · rw [hcomplement, List.all_map]
    exact all_eq_all_searching hst (fun d hd => (Device.outputs_idle hd).2)
      fun d hd => (Device.outputs_searching hi hd).2
  · have hears₃ := hears₂.writeSlot v
    rwa [List.map_map, List.map_map] at hears₃
  · intro d' hd'
    obtain ⟨d, hd, rfl⟩ := List.mem_map.mp hd'
    rcases hst d hd with h | h
    · rw [Device.throughPosition_idle h v]
      exact .inl h
    · rw [Device.throughPosition_searching hi h v]
      by_cases hv : d.rom.getLsbD i == v
      · exact .inr (if_pos hv)
      · exact .inl (if_neg hv)
  · have hstays : ∀ d ∈ ds, decide ((d.throughPosition v).st = searchState (i + 1)) =
        (d.rom.getLsbD i == v && decide (d.st = searchState i)) := by
      intro d hd
      rcases hst d hd with h | h
      · rw [Device.throughPosition_idle h v, h]
        simp [(searchState_ne_idle _).symm]
      · rw [Device.throughPosition_searching hi h v, h]
        by_cases hv : d.rom.getLsbD i = v
        · simp [hv]
        · simp [hv, (searchState_ne_idle _).symm]
    have hrom : ∀ d ∈ ds, (d.throughPosition v).rom = d.rom := by
      intro d hd
      rcases hst d hd with h | h
      · rw [Device.throughPosition_idle h v]
      · rw [Device.throughPosition_searching hi h v]
    rw [List.filter_map, List.map_map, List.filter_map, List.filter_filter]
    refine (congrArg (List.map _) (List.filter_congr hstays)).trans ?_
    exact List.map_congr_left fun d hd => hrom d (List.mem_of_mem_filter hd)

/-- The loop of a pass finds one of the addresses in the search, by the choices of R188, three events a position. -/
theorem Bus.Searches.searchFrom {len : Int} {path : BitVec 64} {n i : Nat} (hn : i + n = 64) {x : RomCode}
    {lz : Option Nat} {b : Bus} {roms : List RomCode} (h : b.Searches i roms) (hne : roms ≠ [])
    (hx : ∀ z ∈ roms, ∀ j < i, z.getLsbD j = x.getLsbD j) (hx0 : ∀ j, i ≤ j → x.getLsbD j = false) :
    ∃ y lz' b', b.searchFrom len path n i x lz = (.found y lz', b') ∧
      ChosenFrom i roms (collisionChoice len path) y ∧ LastOpenFrom i roms y lz lz' ∧
      b'.history.length = b.history.length + 3 * n := by
  induction n generalizing i x lz b roms with
  | zero =>
    obtain ⟨y, hy⟩ := List.exists_mem_of_ne_nil roms hne
    have hyx : y = x := BitVec.eq_of_getLsbD_eq fun j hj => hx y hy j (by omega)
    refine ⟨x, lz, b, rfl, ⟨hyx ▸ hy, fun j hij hj => by omega⟩, .inr ⟨fun j hij hj => ?_, rfl⟩, rfl⟩
    have := hj.1
    omega
  | succ n ih =>
    have hi : i < 64 := by omega
    obtain ⟨hbit, hcomplement, hnext⟩ := h.position hi
    obtain ⟨hdevice, hsome, hcollision, hchoice⟩ := pairClass_of_reads hne i (collisionChoice len path i)
    rw [Bus.searchFrom_succ, hbit, hcomplement, if_neg hdevice]
    generalize pairClass (roms.all fun x => x.getLsbD i) (roms.all fun x => !x.getLsbD i) = c at *
    generalize c.choose (collisionChoice len path i) = v at *
    have hne' : (roms.filter fun z => z.getLsbD i == v) ≠ [] := by
      obtain ⟨z, hz, hzv⟩ := hsome
      exact List.ne_nil_of_mem (List.mem_filter.mpr ⟨hz, by simp [hzv]⟩)
    have hx' : ∀ z ∈ roms.filter (fun z => z.getLsbD i == v), ∀ j < i + 1, z.getLsbD j = (setBit x i v).getLsbD j := by
      intro z hz j hj
      obtain ⟨hz, hzi⟩ := List.mem_filter.mp hz
      rw [setBit_getLsbD _ _ _ _ (by omega)]
      rcases Nat.lt_or_eq_of_le (Nat.le_of_lt_succ hj) with hlt | rfl
      · simp [hx z hz j hlt, Nat.ne_of_lt hlt]
      · simpa [hx0 j le_rfl] using hzi
    have hx0' : ∀ j, i + 1 ≤ j → (setBit x i v).getLsbD j = false := by
      intro j hj
      by_cases hj64 : j < 64
      · rw [setBit_getLsbD _ _ _ _ hj64, hx0 j (by omega)]
        simp [show j ≠ i by omega]
      · exact BitVec.getLsbD_of_ge _ _ (by omega)
    obtain ⟨y, lz', b', hfound, hchosen, hlast, hlength⟩ := ih (by omega) (hnext v) hne' hx' hx0'
    refine ⟨y, lz', b', hfound, hchosen.of_filter fun hdiff => hchoice (hcollision.mpr hdiff),
      .of_filter hchosen.mem hi (fun z hz j hj => ?_) hcollision hlast, ?_⟩
    · rw [hx z hz j hj, hx y (List.mem_of_mem_filter hchosen.mem) j hj]
    · rw [hlength]
      simp
      omega

/-! ## What the devices keep -/

/-- The devices on the line have the addresses `roms` in a search of the given kind. -/
def Bus.Offers (b : Bus) (op : Instr) (roms : List RomCode) : Prop :=
  ∃ ds, b.Hears ds ∧ participants op ds = roms

/-- A slot changes neither the address of a device nor its alarm condition (R84). -/
theorem participants_map {f : Device → Device} (hrom : ∀ d, (f d).rom = d.rom) (halarm : ∀ d, (f d).alarm = d.alarm)
    (op : Instr) (ds : List Device) : participants op (ds.map f) = participants op ds := by
  simp only [participants, List.filter_map, List.map_map, Function.comp_def, hrom, halarm]

theorem Device.afterRead_frame (d : Device) : d.afterRead.rom = d.rom ∧ d.afterRead.alarm = d.alarm := by
  unfold Device.afterRead
  split <;> exact ⟨rfl, rfl⟩

theorem Device.functionCommand_frame (c : Byte) (d : Device) :
    (d.functionCommand c).rom = d.rom ∧ (d.functionCommand c).alarm = d.alarm := by
  unfold Device.functionCommand
  split_ifs <;> exact ⟨rfl, rfl⟩

theorem Device.afterWrite_frame (v : Bool) (d : Device) :
    (d.afterWrite v).rom = d.rom ∧ (d.afterWrite v).alarm = d.alarm := by
  cases h : d.st with
  | romCmd got | matching n | wsp k got =>
    simp only [Device.afterWrite, h]
    split_ifs <;> exact ⟨rfl, rfl⟩
  | fnCmd got =>
    simp only [Device.afterWrite, h]
    split_ifs
    · exact ⟨rfl, rfl⟩
    · exact Device.functionCommand_frame _ d
  | searching i phase =>
    cases phase with
    | choice =>
      simp only [Device.afterWrite, h]
      split_ifs <;> exact ⟨rfl, rfl⟩
    | bit | complement => simp only [Device.afterWrite, h, and_self]
  | tx bits next | busy n | idle => simp only [Device.afterWrite, h, and_self]

/-- Every event keeps what the devices offer (R84). -/
theorem Bus.Offers.redo {b : Bus} {op : Instr} {roms : List RomCode} (h : b.Offers op roms) (e : BusEvent) :
    (b.redo e).Offers op roms := by
  obtain ⟨ds, hears, rfl⟩ := h
  cases e with
  | rst p r => exact ⟨_, hears.reset.2, participants_map Device.afterReset_rom Device.afterReset_alarm op ds⟩
  | w v =>
    exact ⟨_, hears.writeSlot v,
      participants_map (fun d => (d.afterWrite_frame v).1) (fun d => (d.afterWrite_frame v).2) op ds⟩
  | r a =>
    exact ⟨_, hears.readSlot.2,
      participants_map (fun d => d.afterRead_frame.1) (fun d => d.afterRead_frame.2) op ds⟩
  | s a => exact ⟨_, hears.sample, rfl⟩

/-- Every op keeps what the devices offer (R84). -/
theorem exec_offers {i : Instr} {s t : State} {op : Instr} {roms : List RomCode} (h : s.bus.Offers op roms)
    (hexec : exec i s = .next t) : t.bus.Offers op roms := by
  obtain ⟨t', es, b', ht, ⟨hfold, -⟩, hbus⟩ := exec_replays i s
  obtain rfl := Host.Outcome.next.inj (ht.symm.trans hexec)
  have hes : ∀ (es : List BusEvent) (b : Bus), b.Offers op roms → (es.foldl Bus.redo b).Offers op roms := by
    intro es
    induction es with
    | nil => exact fun b hb => hb
    | cons e es ih => exact fun b hb => ih (b.redo e) (hb.redo e)
  rw [hbus, ← hfold]
  exact hes es s.bus h

/-! ## One pass -/

/-- The command byte of a search of the given kind (R188, R190). -/
def searchByte (op : Instr) : Byte :=
  if op = .search then Config.defaultCommands.searchRom else Config.defaultCommands.alarmSearch

/-- A search is a pass with its command byte, which the devices that take part understand (R84, R188, R190). -/
theorem exec_search {op : Instr} (hop : op = .search ∨ op = .searchAlarm) {s : State}
    (hcmds : s.params.cmds = Config.defaultCommands) : exec op s = .next (s.searchPass (searchByte op)) := by
  rcases hop with rfl | rfl
  · exact congrArg (fun c : Config.BusCommands => Host.Outcome.next (s.searchPass c.searchRom)) hcmds
  · exact congrArg (fun c : Config.BusCommands => Host.Outcome.next (s.searchPass c.alarmSearch)) hcmds

/-- A device that takes part in a search of the given kind is in it, and another one is out of it (R84). -/
def Device.enterSearch (op : Instr) (d : Device) : Device :=
  { d with st := if op == .search || d.alarm then searchState 0 else .idle }

theorem Device.enterSearch_st (op : Instr) (d : Device) :
    (d.enterSearch op).st = if op == .search || d.alarm then searchState 0 else .idle := rfl

theorem Device.afterWrites_searchByte {op : Instr} (hop : op = .search ∨ op = .searchAlarm) (d : Device) :
    d.afterReset.afterWrites (bitsOf (searchByte op)) = d.enterSearch op := by
  rcases hop with rfl | rfl
  · exact Device.afterWrites_searchRom d.afterReset_st
  · exact Device.afterWrites_alarmSearch d.afterReset_st

/-- After a RESET the command byte brings the devices that take part into the search (R84). -/
theorem Bus.Hears.searches {b : Bus} {ds : List Device} (h : b.Hears (ds.map Device.afterReset)) {op : Instr}
    (hop : op = .search ∨ op = .searchAlarm) : (b.writeByte (searchByte op)).Searches 0 (participants op ds) := by
  have hears : (b.writeByte (searchByte op)).Hears (ds.map (Device.enterSearch op)) := by
    have hmap : Device.afterWrites (bitsOf (searchByte op)) ∘ Device.afterReset = Device.enterSearch op := by
      funext d
      rw [Function.comp_apply, Device.afterWrites_searchByte hop]
    have hsent := h.writeByte (searchByte op)
    rwa [List.map_map, hmap] at hsent
  refine ⟨_, hears, fun d' hd' => ?_, ?_⟩
  · obtain ⟨d, -, rfl⟩ := List.mem_map.mp hd'
    by_cases hpart : (op == .search || d.alarm) = true
    · exact .inr (by rw [Device.enterSearch_st, if_pos hpart])
    · exact .inl (by rw [Device.enterSearch_st, if_neg hpart])
  · rw [List.filter_map, List.map_map, participants]
    refine congrArg (List.map _) (List.filter_congr fun d _ => ?_)
    by_cases hpart : (op == .search || d.alarm) = true
    · simp [Device.enterSearch_st, hpart]
    · simp [Device.enterSearch_st, hpart, (searchState_ne_idle 0).symm]

/-- A pass after a RESET and its command byte, from a state `s`, has found `y` among the addresses `roms` and left `t`
(R188). -/
structure PassFound (op : Instr) (roms : List RomCode) (s : State) (y : RomCode) (t : State) : Prop where
  chosen : ChosenFrom 0 roms (collisionChoice s.srchLen.toInt s.srchPath) y
  branch : isBranchPoint roms y t.srchLen
  offers : t.bus.Offers op roms
  params : t.params = s.params
  rom : t.rom = y
  path : t.srchPath = y
  err : t.status.err = s.status.err
  nomore : t.status.nomore = s.status.nomore
  events : t.bus.history.length = s.bus.history.length + 201

/-- RESET and a search under the reference environment find an address (R84, R188). -/
theorem runOps_reset_search {op : Instr} (hop : op = .search ∨ op = .searchAlarm) {s : State} {roms : List RomCode}
    (hcmds : s.params.cmds = Config.defaultCommands) (h : s.bus.Offers op roms) (hne : roms ≠ [])
    (hvalid : ∀ y ∈ roms, romValid y = true) (hlen : s.srchLen ≠ srchDone) :
    ∃ t y, runOps [.reset, op] s = .next t ∧ PassFound op roms s y t := by
  have hoffers := h
  obtain ⟨ds, hears, rfl⟩ := h
  have hds : ds ≠ [] := by
    rintro rfl
    exact hne rfl
  obtain ⟨b, hreset, hears', hlength⟩ := exec_reset_of_hears hears hds
  obtain ⟨y, lz, b', hfound, hchosen, hlast, hlength'⟩ := Bus.Searches.searchFrom (n := 64) (len := s.srchLen.toInt)
    (path := s.srchPath) (x := 0#64) (lz := none) (by omega)
    (Bus.Hears.searches (b := (s.presentOn b).bus) hears' hop) hne (fun _ _ _ hj => absurd hj (Nat.not_lt_zero _))
    fun j _ => BitVec.getLsbD_zero
  have hpass : exec op (s.presentOn b) = .next
      { s.presentOn b with bus := b', rom := y, srchPath := y, srchLen := nextBranch lz }.complete := by
    have hlen' : (s.presentOn b).srchLen ≠ srchDone := hlen
    have hfound' : ((s.presentOn b).bus.writeByte (searchByte op)).searchFrom (s.presentOn b).srchLen.toInt
      (s.presentOn b).srchPath 64 0 0#64 none = (.found y lz, b') := hfound
    rw [exec_search (s := s.presentOn b) hop hcmds, State.searchPass, if_neg hlen']
    simp only [hfound', hvalid y hchosen.mem, if_true]
  refine ⟨_, y, (runOps_cons hreset).trans (runOps_cons hpass), hchosen, ?_,
    exec_offers (exec_offers hoffers hreset) hpass, rfl, rfl, rfl, rfl, rfl, ?_⟩
  · rcases hlast with ⟨k, -, hopen, hmax, rfl⟩ | ⟨hnone, rfl⟩
    · exact .inl ⟨k, hopen, hmax, rfl⟩
    · exact .inr ⟨fun k => hnone k (Nat.zero_le k), rfl⟩
  · have hb' : b'.history.length = s.bus.history.length + 201 := by
      rw [hlength', Bus.writeByte_history]
      simp [hlength]
    exact hb'

/-- From the path and the branch point that finding `x` left, a pass finds the next address (R189). -/
theorem PassFound.next {op : Instr} {roms : List RomCode} {s t : State} {x y : RomCode} (h : PassFound op roms s y t)
    (hx : x ∈ roms) (hpath : s.srchPath = x) (hbranch : isBranchPoint roms x s.srchLen) (hlen : s.srchLen ≠ srchDone) :
    foundBefore x y ∧ ∀ z ∈ roms, foundBefore x z → z = y ∨ foundBefore y z := by
  rcases hbranch with ⟨k, hopen, hmax, hk⟩ | ⟨-, hdone⟩
  · have hlt : k < 64 := hopen.1
    have hint : s.srchLen.toInt = k := by
      rw [hk]
      interval_cases k <;> rfl
    have hchosen := h.chosen
    rw [hint, hpath] at hchosen
    exact hchosen.next hx hopen hmax
  · exact absurd hdone hlen

/-- Settles O59: it holds, since at every collision the pass follows the path below the branch point, takes 1 at it and
0 above it. -/
theorem searchPassFindsTheNextAddress : Obligations.SearchPassFindsTheNextAddress := by
  intro s op ds x hop hcmds hagent hvalid hx hpath hbranch hlen
  obtain ⟨t, y, hrun, hfound⟩ := runOps_reset_search hop hcmds ⟨ds, hagent, rfl⟩ (List.ne_nil_of_mem hx) hvalid hlen
  obtain ⟨hbefore, hnext⟩ := hfound.next hx hpath hbranch hlen
  exact ⟨t, y, hrun, hfound.chosen.mem, hfound.rom, hfound.path, hfound.err, hbefore, hnext, hfound.branch⟩

/-! ## All passes -/

/-- `x` is found no later than `y`. -/
def foundUpTo (x y : RomCode) : Prop := x = y ∨ foundBefore x y

theorem foundUpTo_total (x y : RomCode) : foundUpTo x y ∨ foundUpTo y x := by
  rcases foundBefore_trichotomy x y with h | h | h
  · exact .inl (.inl h)
  · exact .inl (.inr h)
  · exact .inr (.inr h)

theorem foundUpTo_trans {x y z : RomCode} (hxy : foundUpTo x y) (hyz : foundUpTo y z) : foundUpTo x z := by
  rcases hxy with rfl | hxy
  · exact hyz
  · rcases hyz with rfl | hyz
    · exact .inr hxy
    · exact .inr (foundBefore_trans hxy hyz)

/-- Addresses without a repetition can be listed in the order in which discovery finds them (R189). -/
theorem exists_perm_pairwise_foundBefore {roms : List RomCode} (hnodup : roms.Nodup) :
    ∃ found : List RomCode, found.Perm roms ∧ found.Pairwise foundBefore := by
  classical
  have htotal : Std.Total foundUpTo := ⟨foundUpTo_total⟩
  have htrans : IsTrans RomCode foundUpTo := ⟨fun _ _ _ => foundUpTo_trans⟩
  have hperm := List.perm_insertionSort foundUpTo roms
  have hne : (roms.insertionSort foundUpTo).Pairwise (· ≠ ·) := hperm.nodup_iff.mpr hnodup
  exact ⟨_, hperm, hne.imp₂ (fun _ _ hxy hle => hle.resolve_left hxy) (List.pairwise_insertionSort foundUpTo roms)⟩

/-- In a list in that order the places of two addresses tell which is found first. -/
theorem foundBefore_getElem_iff {found : List RomCode} (h : found.Pairwise foundBefore) {i j : Nat}
    (hi : i < found.length) (hj : j < found.length) : foundBefore found[i] found[j] ↔ i < j := by
  rw [List.pairwise_iff_getElem] at h
  refine ⟨fun hbefore => ?_, fun hlt => h i j hi hj hlt⟩
  by_contra hge
  rcases Nat.lt_or_eq_of_le (Nat.le_of_not_lt hge) with hlt | rfl
  · exact foundBefore_irrefl _ (foundBefore_trans hbefore (h j i hj hi hlt))
  · exact foundBefore_irrefl _ hbefore

/-- An address that is found no later than the one at a place, and after the ones before that place, is at it. -/
theorem eq_getElem_of_first {found : List RomCode} (h : found.Pairwise foundBefore) {y : RomCode} (hy : y ∈ found)
    {n : Nat} (hn : n < found.length) (hafter : ∀ m, (hm : m < n) → foundBefore found[m] y)
    (hfirst : found[n] = y ∨ foundBefore y found[n]) : y = found[n] := by
  obtain ⟨m, hm, rfl⟩ := List.getElem_of_mem hy
  rcases hfirst with heq | hbefore
  · exact heq.symm
  · have hmn := (foundBefore_getElem_iff h hm hn).mp hbefore
    exact absurd (hafter m hmn) (foundBefore_irrefl _)

/-- SEARCH_INIT and a number of passes, each after its RESET (R186, R188). -/
def discovery (op : Instr) (passes : Nat) : List Instr := .searchInit :: (List.replicate passes [.reset, op]).flatten

theorem runOps_discovery_succ {op : Instr} {n : Nat} {s t : State} (h : runOps (discovery op n) s = .next t) :
    runOps (discovery op (n + 1)) s = runOps [.reset, op] t := by
  have hsucc : discovery op (n + 1) = discovery op n ++ [.reset, op] := by
    simp [discovery, List.replicate_succ', List.flatten_append]
  rw [hsucc, runOps_append h]

/-- Some passes from SEARCH_INIT in the state `s` have left `t`, the last of them having found `y`. -/
structure WalkFound (op : Instr) (roms : List RomCode) (s : State) (passes : Nat) (y : RomCode) (t : State) : Prop where
  branch : isBranchPoint roms y t.srchLen
  offers : t.bus.Offers op roms
  params : t.params = s.params
  rom : t.rom = y
  path : t.srchPath = y
  err : t.status.err = s.status.err
  nomore : t.status.nomore = s.status.nomore
  events : t.bus.history.length = s.bus.history.length + passes * 201

section
variable {op : Instr} {roms found : List RomCode} {s : State} (hop : op = .search ∨ op = .searchAlarm)
  (hcmds : s.params.cmds = Config.defaultCommands) (hperm : found.Perm roms) (hsorted : found.Pairwise foundBefore)
include hop hcmds hperm hsorted

/-- The first pass finds the first address (R189). -/
theorem walk_first (hoffers : s.bus.Offers op roms) (hvalid : ∀ y ∈ roms, romValid y = true)
    (h0 : 0 < found.length) :
    ∃ t, runOps (discovery op 1) s = .next t ∧ WalkFound op roms s 1 found[0] t := by
  have hmem : found[0] ∈ roms := hperm.mem_iff.mp (List.getElem_mem h0)
  have hinit : exec .searchInit s = .next { s with srchPath := 0#64, srchLen := srchStart }.complete := rfl
  have hstart : srchStart ≠ srchDone := by decide
  obtain ⟨t, y, hrun, hpass⟩ := runOps_reset_search
    (s := { s with srchPath := 0#64, srchLen := srchStart }.complete) hop hcmds hoffers (List.ne_nil_of_mem hmem)
    hvalid hstart
  have hfirst := hpass.chosen.first (k := 0) (fun j _ => collisionChoice_start _ j) hmem
    fun j hj => absurd hj (Nat.not_lt_zero j)
  have hy : y = found[0] := eq_getElem_of_first hsorted (hperm.mem_iff.mpr hpass.chosen.mem) h0
    (fun m hm => absurd hm (Nat.not_lt_zero m)) hfirst
  subst hy
  exact ⟨t, (runOps_discovery_succ (n := 0) (runOps_cons hinit)).trans hrun, hpass.branch, hpass.offers, hpass.params,
    hpass.rom, hpass.path, hpass.err, hpass.nomore, hpass.events⟩

/-- A further pass finds the next address (R189). -/
theorem walk_next (hvalid : ∀ y ∈ roms, romValid y = true) {n : Nat} (hn : n + 1 < found.length) {t : State}
    (h : WalkFound op roms s (n + 1) found[n] t) :
    ∃ t', runOps [.reset, op] t = .next t' ∧ WalkFound op roms s (n + 2) found[n + 1] t' := by
  have hmem : ∀ m, (hm : m < found.length) → found[m] ∈ roms := fun m hm => hperm.mem_iff.mp (List.getElem_mem hm)
  have hbefore : foundBefore found[n] found[n + 1] := (foundBefore_getElem_iff hsorted _ _).mpr (Nat.lt_succ_self n)
  have hlen : t.srchLen ≠ srchDone := fun hdone =>
    (isBranchPoint_done_iff h.branch).mp hdone _ (hmem _ hn) hbefore
  obtain ⟨t', y, hrun, hpass⟩ := runOps_reset_search hop (h.params ▸ hcmds) h.offers (List.ne_nil_of_mem (hmem _ hn))
    hvalid hlen
  obtain ⟨hafter, hfirst⟩ := hpass.next (hmem n _) h.path h.branch hlen
  have hy : y = found[n + 1] := by
    refine eq_getElem_of_first hsorted (hperm.mem_iff.mpr hpass.chosen.mem) hn (fun m hm => ?_)
      (hfirst _ (hmem _ hn) hbefore)
    rcases Nat.lt_or_eq_of_le (Nat.le_of_lt_succ hm) with hlt | rfl
    · exact foundBefore_trans ((foundBefore_getElem_iff hsorted _ _).mpr hlt) hafter
    · exact hafter
  subst hy
  exact ⟨t', hrun, hpass.branch, hpass.offers, hpass.params.trans h.params, hpass.rom, hpass.path,
    hpass.err.trans h.err, hpass.nomore.trans h.nomore, by rw [hpass.events, h.events]; omega⟩

/-- Pass after pass finds the addresses in their order (R189). -/
theorem walk (hoffers : s.bus.Offers op roms) (hvalid : ∀ y ∈ roms, romValid y = true) (n : Nat)
    (hn : n < found.length) :
    ∃ t, runOps (discovery op (n + 1)) s = .next t ∧ WalkFound op roms s (n + 1) found[n] t := by
  induction n with
  | zero => exact walk_first hop hcmds hperm hsorted hoffers hvalid hn
  | succ n ih =>
    obtain ⟨t, hrun, hfound⟩ := ih (by omega)
    obtain ⟨t', hrun', hfound'⟩ := walk_next hop hcmds hperm hsorted hvalid hn hfound
    exact ⟨t', (runOps_discovery_succ hrun).trans hrun', hfound'⟩

/-- After the last address the branch point is DONE, and a pass reports NOMORE, with no event but its RESET's (R188). -/
theorem walk_last {n : Nat} (hn : n + 1 = found.length) {t : State} (h : WalkFound op roms s (n + 1) found[n] t) :
    ∃ t', runOps [.reset, op] t = .next t' ∧ t'.status.nomore = true ∧ t'.status.err = s.status.err ∧
      t'.bus.history.length = s.bus.history.length + found.length * 201 + 1 := by
  have hdone : t.srchLen = srchDone := by
    rw [isBranchPoint_done_iff h.branch]
    intro z hz hbefore
    obtain ⟨m, hm, rfl⟩ := List.getElem_of_mem (hperm.mem_iff.mpr hz)
    have := (foundBefore_getElem_iff hsorted _ _).mp hbefore
    omega
  obtain ⟨ds, hears, hds⟩ := h.offers
  have hne : ds ≠ [] := by
    rintro rfl
    have hroms : roms = [] := hds.symm
    have := hperm.length_eq
    rw [hroms, List.length_nil] at this
    omega
  obtain ⟨b, hreset, -, hlength⟩ := exec_reset_of_hears hears hne
  have hpass : exec op (t.presentOn b) = .next
      { t.presentOn b with status := { (t.presentOn b).status with nomore := true } }.complete := by
    have hcmds' : (t.presentOn b).params.cmds = Config.defaultCommands := h.params ▸ hcmds
    have hdone' : (t.presentOn b).srchLen = srchDone := hdone
    rw [exec_search hop hcmds', State.searchPass, if_pos hdone']
  refine ⟨_, (runOps_cons hreset).trans (runOps_cons hpass), rfl, h.err, ?_⟩
  have hb : b.history.length = s.bus.history.length + found.length * 201 + 1 := by
    rw [hlength, h.events, hn]
  exact hb

end

/-- Settles O60: it holds, by induction on the passes, each of which finds the next address and leaves its branch
point. -/
theorem discoveryFindsEveryAddressOnceInOrder : Obligations.DiscoveryFindsEveryAddressOnceInOrder := by
  intro s op ds hop hcmds hagent hnodup hne hvalid herr hnomore
  obtain ⟨found, hperm, hsorted⟩ := exists_perm_pairwise_foundBefore hnodup
  have hwalk := walk hop hcmds hperm hsorted ⟨ds, hagent, rfl⟩ hvalid
  refine ⟨found, hperm, hsorted, fun n hn => ?_, ?_⟩
  · obtain ⟨t, hrun, hfound⟩ := hwalk n hn
    exact ⟨t, hrun, hfound.rom, hfound.err.trans herr, hfound.nomore.trans hnomore, hfound.events⟩
  · obtain ⟨n, hn⟩ : ∃ n, n + 1 = found.length := by
      have hpos : 0 < (participants op ds).length := List.length_pos_of_ne_nil hne
      have := hperm.length_eq
      exact ⟨found.length - 1, by omega⟩
    obtain ⟨t, hrun, hfound⟩ := hwalk n (by omega)
    obtain ⟨t', hrun', hnomore', herr', hevents⟩ := walk_last hop hcmds hperm hsorted hn hfound
    rw [hn] at hrun
    exact ⟨t', (runOps_discovery_succ hrun).trans hrun', hnomore', herr'.trans herr, hevents⟩

end Sys2Proof.Machine
end

section
/-! PROOF. The opcode map (R103): which words a row selects, that a word that decodes is the word of its operation, and
that no word has two rows. -/

namespace Sys2Proof

/-! ## What a row selects -/

/-- A pattern has no reserved bit of its format, and the mask looks at all of them (R103). -/
theorem opcodeTable_reserved : ∀ r ∈ opcodeTable,
    r.mask &&& r.format.reservedBits = r.format.reservedBits ∧ r.pattern &&& r.format.reservedBits = 0#32 := by
  decide

/-- A row selects the words of its opcode with no reserved bit set, and no other (R103, R105). -/
theorem OpcodeRow.selects_iff {r : OpcodeRow} (hr : r ∈ opcodeTable) (w : Word) :
    r.selects w = true ↔ fieldOp w = fieldOp r.pattern ∧ w &&& r.format.reservedBits = 0#32 := by
  refine ⟨fun h => ⟨OpcodeRow.fieldOp_of_selects hr h, ?_⟩, fun ⟨hop, hres⟩ => OpcodeRow.selects_of_fields hr hop hres⟩
  obtain ⟨hmask, hpat⟩ := opcodeTable_reserved r hr
  have hw : w &&& r.mask = r.pattern := by simpa [OpcodeRow.selects] using h
  calc w &&& r.format.reservedBits = w &&& r.mask &&& r.format.reservedBits := by rw [BitVec.and_assoc, hmask]
    _ = 0#32 := by rw [hw, hpat]

/-! ## The word of the fields -/

/-- The word of a format with an opcode and the operands that stand in `w` (R101). -/
def Format.word (f : Format) (op : Byte) (w : Word) : Word :=
  match f with
  | .n => wordN op
  | .b => wordB op (fieldBit w)
  | .y => wordY op (fieldA w)
  | .w => wordW op (fieldBit w) (fieldT w)
  | .t => wordT op (fieldA w) (fieldB w) (fieldC w)

/-- The encoder puts the operands that a row reads back at their places (R101, R103). -/
theorem encode_build {r : OpcodeRow} (hr : r ∈ opcodeTable) (w : Word) :
    encode (r.build w) = r.format.word (fieldOp r.pattern) w := by
  fin_cases hr <;> rfl

/-- A byte of a word is 0 where all its bits are reserved bits that are 0. -/
theorem extractLsb'_eq_zero_of_reserved {w m : Word} {lo : Nat} (h : w &&& m = 0#32)
    (hm : m.extractLsb' lo 8 = 0xFF#8) : w.extractLsb' lo 8 = 0#8 := by
  have hand : (w &&& m).extractLsb' lo 8 = w.extractLsb' lo 8 &&& m.extractLsb' lo 8 := BitVec.extractLsb'_and
  rw [h, hm, BitVec.extractLsb'_zero] at hand
  exact (hand.trans BitVec.and_allOnes).symm

/-- `A` is its lowest bit where the seven others are reserved bits that are 0. -/
theorem fieldA_eq_of_reserved {w m : Word} (h : w &&& m = 0#32) (hm : fieldA m = 0xFE#8) :
    0#7 ++ BitVec.ofBool (fieldBit w) = fieldA w := by
  have hbit : fieldBit w = (fieldA w).getLsbD 0 := by simp [fieldBit, fieldA]
  have hand : fieldA (w &&& m) = fieldA w &&& fieldA m := BitVec.extractLsb'_and
  have hbyte : ∀ a : Byte, 0#8 = a &&& 0xFE#8 → 0#7 ++ BitVec.ofBool (a.getLsbD 0) = a := by decide
  rw [h, hm] at hand
  rw [hbit]
  exact hbyte _ hand

/-- A word with no reserved bit set is the word of its own fields (R101, R105). -/
theorem Format.word_of_reserved (f : Format) {w : Word} (h : w &&& f.reservedBits = 0#32) :
    f.word (fieldOp w) w = w := by
  have hT : wordT (fieldOp w) (fieldA w) (fieldB w) (fieldC w) = w := wordT_fields w
  cases f with
  | n =>
    have hA : fieldA w = 0#8 := extractLsb'_eq_zero_of_reserved h rfl
    have hB : fieldB w = 0#8 := extractLsb'_eq_zero_of_reserved h rfl
    have hC : fieldC w = 0#8 := extractLsb'_eq_zero_of_reserved h rfl
    rwa [hA, hB, hC] at hT
  | b =>
    have hA : _ = fieldA w := fieldA_eq_of_reserved h rfl
    have hB : fieldB w = 0#8 := extractLsb'_eq_zero_of_reserved h rfl
    have hC : fieldC w = 0#8 := extractLsb'_eq_zero_of_reserved h rfl
    rw [← hA, hB, hC] at hT
    exact (wordB_eq _ _).trans hT
  | y =>
    have hB : fieldB w = 0#8 := extractLsb'_eq_zero_of_reserved h rfl
    have hC : fieldC w = 0#8 := extractLsb'_eq_zero_of_reserved h rfl
    rwa [hB, hC] at hT
  | w =>
    have hA : _ = fieldA w := fieldA_eq_of_reserved h rfl
    have hB : (fieldT w).extractLsb' 0 8 = fieldB w := Machine.extractLsb'_extractLsb'_of_le w (by decide)
    have hC : (fieldT w).extractLsb' 8 8 = fieldC w := Machine.extractLsb'_extractLsb'_of_le w (by decide)
    rw [← hA, ← hB, ← hC] at hT
    exact (wordW_eq _ _ _).trans hT
  | t => exact hT

/-- Settles O1: it holds, since the word of an operation has the opcode of its row, no reserved bit, and the operands at
the places where that row reads them. -/
theorem decodeOfEncodeIsTheOperation : Obligations.DecodeOfEncodeIsTheOperation :=
  decode_encode

/-- Settles O2: it holds, since the row that selects a word reads all of it but reserved bits, which are 0. -/
theorem encodeOfDecodeIsTheWord : Obligations.EncodeOfDecodeIsTheWord := by
  intro w i h
  obtain ⟨r, hr, hsel, rfl⟩ := decode_some w i h
  obtain ⟨hop, hres⟩ := (OpcodeRow.selects_iff hr w).mp hsel
  rw [encode_build hr, ← hop]
  exact r.format.word_of_reserved hres

/-- Settles O3: it holds, since two rows that select a word have its opcode, and no opcode has two rows. -/
theorem atMostOneRowMatchesAWord : Obligations.AtMostOneRowMatchesAWord := by
  intro w j k hj hk hselj hselk
  have hop : ∀ (i : Nat) (hi : i < opcodeTable.length), w &&& opcodeTable[i].mask = opcodeTable[i].pattern →
      fieldOp w = fieldOp opcodeTable[i].pattern := fun i hi h =>
    OpcodeRow.fieldOp_of_selects (List.getElem_mem hi) (by simpa [OpcodeRow.selects] using h)
  have heq := (hop j hj hselj).symm.trans (hop k hk hselk)
  refine (opcodeTable_opcodes_nodup.getElem_inj_iff (hi := by simpa using hj) (hj := by simpa using hk)).mp ?_
  simpa using heq

/-- Settles O5: it holds, the nine words being the ones that the encoder makes. -/
theorem specWordsDecode : Obligations.SpecWordsDecode :=
  ⟨decode_encode .reset, decode_encode (.writeBit true), decode_encode (.waitLevel true 240#16),
    decode_encode (.writeByte 0xCC#8), decode_encode (.crcByte 0x5E#8), decode_encode .romCheck,
    decode_encode .selectOne, decode_encode (.writeSp 75#8 70#8 0x7F#8), decode_encode .searchAlarm⟩

end Sys2Proof
end

section
/-! PROOF. Which words are illegal, by number, and what the issue of one does (R105, R199). -/

namespace Sys2Proof

/-! ## Opcodes -/

/-- The format of an opcode is the one of its row (R103). -/
theorem formatOfOpcode_eq_find? (op : Byte) :
    formatOfOpcode op.toNat = (opcodeTable.find? fun r => fieldOp r.pattern == op).map (·.format) := by
  revert op
  decide

/-- An opcode with a format has a row of that format (R103). -/
theorem exists_row_of_formatOfOpcode {op : Byte} {f : Format} (h : formatOfOpcode op.toNat = some f) :
    ∃ r ∈ opcodeTable, op = fieldOp r.pattern ∧ r.format = f := by
  rw [formatOfOpcode_eq_find?, Option.map_eq_some_iff] at h
  obtain ⟨r, hfind, hf⟩ := h
  have hop : fieldOp r.pattern = op := by simpa using List.find?_some hfind
  exact ⟨r, List.mem_of_find?_eq_some hfind, hop.symm, hf⟩

/-- A row's opcode has the row's format (R103). -/
theorem formatOfOpcode_row : ∀ r ∈ opcodeTable, formatOfOpcode (fieldOp r.pattern).toNat = some r.format := by
  decide

/-- A word is illegal when its opcode has no format, or a reserved bit of its format is 1 (R105). -/
theorem decode_eq_none_iff (w : Word) :
    decode w = none ↔ ∀ f, formatOfOpcode (fieldOp w).toNat = some f → w &&& f.reservedBits ≠ 0#32 := by
  constructor
  · intro h f hf hres
    obtain ⟨r, hr, hop, rfl⟩ := exists_row_of_formatOfOpcode hf
    have hsel := (OpcodeRow.selects_iff hr w).mpr ⟨hop, hres⟩
    simp [decode_none w h r hr] at hsel
  · intro h
    cases hd : decode w with
    | none => rfl
    | some i =>
      obtain ⟨r, hr, hsel, -⟩ := decode_some w i hd
      obtain ⟨hop, hres⟩ := (OpcodeRow.selects_iff hr w).mp hsel
      exact absurd hres (h r.format (hop ▸ formatOfOpcode_row r hr))

/-- The unassigned opcodes (R103, R105). -/
theorem formatOfOpcode_eq_none_iff (op : Byte) : formatOfOpcode op.toNat = none ↔
    op.toNat = 0x00 ∨ (0x08 ≤ op.toNat ∧ op.toNat ≤ 0x0F) ∨ (0x12 ≤ op.toNat ∧ op.toNat ≤ 0x1F) ∨
      (0x22 ≤ op.toNat ∧ op.toNat ≤ 0x2F) ∨ (0x33 ≤ op.toNat ∧ op.toNat ≤ 0x3F) ∨
      (0x45 ≤ op.toNat ∧ op.toNat ≤ 0x4F) ∨ 0x53 ≤ op.toNat := by
  revert op
  decide

/-- The opcodes of the formats that have reserved bits (R101, R103). -/
theorem formatOfOpcode_eq_some_iff (op : Byte) :
    (formatOfOpcode op.toNat = some .n ↔ op.toNat ∈
      [0x01, 0x03, 0x05, 0x10, 0x20, 0x21, 0x30, 0x31, 0x32, 0x40, 0x41, 0x43, 0x44, 0x50, 0x51, 0x52]) ∧
    (formatOfOpcode op.toNat = some .b ↔ op.toNat ∈ [0x02, 0x07]) ∧
    (formatOfOpcode op.toNat = some .y ↔ op.toNat ∈ [0x04, 0x11]) ∧
    (formatOfOpcode op.toNat = some .w ↔ op.toNat = 0x06) := by
  revert op
  decide

/-! ## Reserved bits -/

/-- A field of a word is 0 as a number when the word has none of its bits under the field's mask. -/
theorem and_mask_eq_zero_iff (w : Word) {lo n : Nat} (h : lo + n ≤ 32) :
    w &&& ((BitVec.allOnes n).setWidth 32 <<< lo) = 0#32 ↔ w.toNat / 2 ^ lo % 2 ^ n = 0 := by
  have hfield : w.extractLsb' lo n = 0#n ↔ w.toNat / 2 ^ lo % 2 ^ n = 0 := by
    rw [BitVec.toNat_eq, BitVec.extractLsb'_toNat, Nat.shiftRight_eq_div_pow, BitVec.toNat_zero]
  have hbit : ∀ i < n, (w &&& ((BitVec.allOnes n).setWidth 32 <<< lo)).getLsbD (lo + i) =
      (w.extractLsb' lo n).getLsbD i := by
    intro i hi
    have h32 : lo + i < 32 := by omega
    simp [hi, h32]
  have hother : ∀ i, ¬ (lo ≤ i ∧ i < lo + n) → (w &&& ((BitVec.allOnes n).setWidth 32 <<< lo)).getLsbD i = false := by
    intro i hi
    by_cases hlo : i < lo
    · simp [hlo]
    · simp [show ¬ i - lo < n by omega]
  rw [← hfield]
  constructor
  · intro hz
    apply BitVec.eq_of_getLsbD_eq
    intro i hi
    rw [← hbit i hi, hz]
    simp
  · intro hz
    apply BitVec.eq_of_getLsbD_eq
    intro i _
    rw [BitVec.getLsbD_zero]
    by_cases hin : lo ≤ i ∧ i < lo + n
    · have := hbit (i - lo) (by omega)
      rwa [hz, Nat.add_sub_of_le hin.1, BitVec.getLsbD_zero] at this
    · exact hother i hin

/-- The reserved bits of the formats, as numbers (R101). -/
theorem reservedBits_eq_zero_iff (w : Word) :
    (w &&& Format.n.reservedBits = 0#32 ↔ w.toNat / 256 = 0) ∧
    (w &&& Format.b.reservedBits = 0#32 ↔ w.toNat / 512 = 0) ∧
    (w &&& Format.y.reservedBits = 0#32 ↔ w.toNat / 65536 = 0) ∧
    (w &&& Format.w.reservedBits = 0#32 ↔ w.toNat / 512 % 128 = 0) := by
  have hn := and_mask_eq_zero_iff w (lo := 8) (n := 24) (by decide)
  have hb := and_mask_eq_zero_iff w (lo := 9) (n := 23) (by decide)
  have hy := and_mask_eq_zero_iff w (lo := 16) (n := 16) (by decide)
  have hlt := w.isLt
  refine ⟨hn.trans ?_, hb.trans ?_, hy.trans ?_, and_mask_eq_zero_iff w (lo := 9) (n := 7) (by decide)⟩ <;> omega

/-! ## Illegal words and their issue -/

/-- A condition on the format of an opcode, if it has one, format by format; format T has no reserved bit (R101). -/
theorem forall_format_iff (o : Option Format) (w : Word) :
    (∀ f, o = some f → w &&& f.reservedBits ≠ 0#32) ↔
      o = none ∨ (o = some .n ∧ w &&& Format.n.reservedBits ≠ 0#32) ∨
        (o = some .b ∧ w &&& Format.b.reservedBits ≠ 0#32) ∨
        (o = some .y ∧ w &&& Format.y.reservedBits ≠ 0#32) ∨ (o = some .w ∧ w &&& Format.w.reservedBits ≠ 0#32) := by
  have hT : w &&& Format.t.reservedBits = 0#32 := BitVec.and_zero
  cases o with
  | none => simp
  | some f => cases f <;> simp [hT]

end Sys2Proof

namespace Sys2Proof.Machine

/-- Settles O4: it holds, since a word is illegal when its opcode has no format or a reserved bit of the format is 1,
and the issue of an illegal word sets CMD and STATUS only. -/
theorem illegalWordsAndTheirIssue : Obligations.IllegalWordsAndTheirIssue := by
  intro w
  constructor
  · obtain ⟨hn, hb, hy, hw⟩ := formatOfOpcode_eq_some_iff (fieldOp w)
    obtain ⟨hrn, hrb, hry, hrw⟩ := reservedBits_eq_zero_iff w
    rw [decode_eq_none_iff, forall_format_iff, formatOfOpcode_eq_none_iff, hn, hb, hy, hw, toNat_mod_256, ne_eq, ne_eq,
      ne_eq, ne_eq, hrn, hrb, hry, hrw]
  · intro h s rest hidle hnext
    have hissue : { s with turns := rest }.writeReg .cmd w = State.issue w { s with turns := rest } :=
      State.whenIdle_of_idle hidle
    rw [step_write hnext, hissue, State.issue_of_illegal w _ h]
    rfl

end Sys2Proof.Machine
end

section
/-! PROOF. The assembler makes the words of the encoder (R102, R108). -/

namespace Sys2Proof

/-! ## The row of a mnemonic -/

/-- No mnemonic has two rows (R103). -/
theorem opcodeTable_mnemonics_nodup : (opcodeTable.map fun r => r.mnemonic).Nodup := by decide +kernel

/-- A line with a row's mnemonic and operands of its format has the row's opcode and its operand bits (R108). -/
theorem assemble_row {r : OpcodeRow} (hr : r ∈ opcodeTable) {operands : List Int}
    (h : operandsWellFormed r.format operands = true) :
    assemble ⟨r.mnemonic, operands⟩ = some (r.pattern ||| operandBits r.format operands) := by
  unfold assemble
  split
  next r' hfind =>
    have hname : r'.mnemonic = r.mnemonic := by simpa using List.find?_some hfind
    obtain rfl := List.inj_on_of_nodup_map opcodeTable_mnemonics_nodup (List.mem_of_find?_eq_some hfind) hr hname
    rw [if_pos h]
  next hnone => exact absurd (List.find?_eq_none.mp hnone r hr) (by simp)

/-- The row of an operation, found by its place in the table. -/
theorem assemble_eq_encode {mnemonic : String} {operands : List Int} {i : Instr} (k : Nat) (hk : k < opcodeTable.length)
    (hname : mnemonic = opcodeTable[k].mnemonic) (h : operandsWellFormed opcodeTable[k].format operands = true)
    (hword : opcodeTable[k].pattern ||| operandBits opcodeTable[k].format operands = encode i) :
    assemble ⟨mnemonic, operands⟩ = some (encode i) := by
  rw [hname, assemble_row (List.getElem_mem hk) h, hword]

/-! ## The word of an opcode and operands -/

/-- R108's `word = OP | (A << 8) | (B << 16) | (C << 24)`. -/
theorem or_shifts_eq_wordT (op a b c : Byte) :
    op.setWidth 32 ||| (a.setWidth 32 <<< 8 ||| b.setWidth 32 <<< 16 ||| c.setWidth 32 <<< 24) = wordT op a b c := by
  apply BitVec.eq_of_getLsbD_eq
  intro k hk
  rw [wordT_getLsbD]
  simp only [BitVec.getLsbD_or, BitVec.getLsbD_shiftLeft, BitVec.getLsbD_setWidth]
  interval_cases k <;> simp

/-- The word of a line of format Y (R101, R108). -/
theorem or_operandBits_y (op v : Byte) : op.setWidth 32 ||| operandBits .y [(v.toNat : Int)] = wordY op v := by
  have h := or_shifts_eq_wordT op v 0#8 0#8
  rw [operandBits, BitVec.ofInt_natCast, BitVec.ofNat_toNat, BitVec.setWidth_eq, wordY_eq, ← h]
  simp

/-- The word of a line of format W (R101, R108): `T` fills `B` and `C`. -/
theorem or_operandBits_w (op : Byte) (level : Bool) (t : BitVec 16) :
    op.setWidth 32 ||| operandBits .w [level.toInt, (t.toNat : Int)] = wordW op level t := by
  have hlevel : BitVec.ofInt 32 level.toInt = (0#7 ++ BitVec.ofBool level : Byte).setWidth 32 := by cases level <;> rfl
  have ht : t.setWidth 32 <<< 16 =
      (t.extractLsb' 0 8).setWidth 32 <<< 16 ||| (t.extractLsb' 8 8).setWidth 32 <<< 24 := by
    apply BitVec.eq_of_getLsbD_eq
    intro k hk
    simp only [BitVec.getLsbD_or, BitVec.getLsbD_shiftLeft, BitVec.getLsbD_setWidth, BitVec.getLsbD_extractLsb']
    interval_cases k <;> simp
  rw [operandBits, BitVec.ofInt_natCast, BitVec.ofNat_toNat, BitVec.setWidth_eq, hlevel, ht, wordW_eq,
    ← or_shifts_eq_wordT]
  simp only [BitVec.or_assoc]

/-! ## Operands in range (R102) -/

theorem byteOperand_toNat (v : Byte) : byteOperand v.toNat = true := by
  have hlt := v.isLt
  simp [byteOperand]
  omega

theorem timeoutOperand_toNat (t : BitVec 16) : timeoutOperand t.toNat = true := by
  have hlt := t.isLt
  simp [timeoutOperand]
  omega

theorem bitOperand_toInt (b : Bool) : bitOperand b.toInt = true := by cases b <;> rfl

theorem operandsWellFormed_t {high low config : Int} (hhigh : -128 ≤ high ∧ high ≤ 255) (hlow : -128 ≤ low ∧ low ≤ 255)
    (hconfig : 0 ≤ config ∧ config ≤ 255) : operandsWellFormed .t [high, low, config] = true := by
  simp [operandsWellFormed, alarmOperand, byteOperand, hhigh, hlow, hconfig]

/-- Settles O6: it holds, since a mnemonic names one row, whose opcode and operand bits together are the word of its
format. -/
theorem assemblerMakesTheEncodedWord : Obligations.AssemblerMakesTheEncodedWord := by
  refine ⟨by decide +kernel, fun b => ?_, fun v => ?_, fun level t => ?_, fun high low config h1 h2 l1 l2 c1 c2 => ?_⟩
  · cases b <;> exact ⟨assemble_eq_encode 1 (by decide) rfl rfl rfl, assemble_eq_encode 6 (by decide) rfl rfl rfl⟩
  · exact ⟨assemble_eq_encode 3 (by decide) rfl (byteOperand_toNat v) (or_operandBits_y 0x04#8 v),
      assemble_eq_encode 8 (by decide) rfl (byteOperand_toNat v) (or_operandBits_y 0x11#8 v)⟩
  · exact assemble_eq_encode 5 (by decide) rfl
      (Bool.and_eq_true_iff.mpr ⟨bitOperand_toInt level, timeoutOperand_toNat t⟩) (or_operandBits_w 0x06#8 level t)
  · exact assemble_eq_encode 16 (by decide) rfl (operandsWellFormed_t ⟨h1, h2⟩ ⟨l1, l2⟩ ⟨c1, c2⟩)
      (or_shifts_eq_wordT 0x42#8 _ _ _)

end Sys2Proof
end

section
/-! PROOF. A host's op line (R110): its write, its reads and its branch, move by move, between which the sequencer runs
the op (R199, R200). -/

namespace Sys2Proof.Machine

/-! ## Moves -/

theorem HostSystem.run_cons {who : Agent} {rest : List Agent} {sys sys' : HostSystem} (h : sys.move who = .next sys') :
    HostSystem.run (who :: rest) sys = HostSystem.run rest sys' := by
  rw [HostSystem.run, h]

/-- The lines that a host at the start of `mid` has before it. -/
theorem HostState.getElem?_program {h : HostState} {pre mid post : List HostPrim}
    (hprog : h.program = pre ++ mid ++ post) (hpc : h.pc = pre.length) {k : Nat} {p : HostPrim} (hk : mid[k]? = some p) :
    h.program[h.pc + k]? = some p := by
  obtain ⟨hlt, -⟩ := List.getElem?_eq_some_iff.mp hk
  rw [hprog, hpc, List.append_assoc, List.getElem?_append_right (Nat.le_add_right _ _), Nat.add_sub_cancel_left,
    List.getElem?_append_left hlt, hk]

/-- A host write of a register (R65, R110). -/
theorem hostMove_sw {h : HostState} {s : State} {r : Reg} {e : HostExpr} {v : Nat} (hbase : s.params.base % 4 = 0)
    (hrun : h.status = .running) (hline : h.program[h.pc]? = some (.sw r e)) (hv : h.eval e = some v) :
    HostSystem.move .host ⟨h, s⟩ = .next ⟨h.advance, s.writeReg r (BitVec.ofNat 32 v)⟩ := by
  have hwrite : takeTurn (.write (s.params.base + regOffset r) .word (BitVec.ofNat 32 v)) s =
      .next (s.writeReg r (BitVec.ofNat 32 v)) := hostAccess_reg s r _ hbase
  simp only [HostSystem.move, hostMove, hrun, hline, hv, if_true, hwrite, afterAccess]

/-- The machine after a host read of a register (R64). -/
def State.afterRead (r : Reg) (s : State) : State :=
  { (s.readReg r).2 with
    observed := s.observed ++ [{ addr := s.params.base + regOffset r, value := (s.readReg r).1 }] }

/-- A host read of a register into a variable (R64, R110). -/
theorem hostMove_lw {h : HostState} {s : State} {r : Reg} {name : String} (hbase : s.params.base % 4 = 0)
    (hrun : h.status = .running) (hline : h.program[h.pc]? = some (.lw r name)) :
    HostSystem.move .host ⟨h, s⟩ = .next ⟨(h.assign name (s.readReg r).1.toNat).advance, s.afterRead r⟩ := by
  have hlast : (s.afterRead r).lastRead = (s.readReg r).1.toNat := by
    simp [State.afterRead, State.lastRead]
  have hread : takeTurn (.read (s.params.base + regOffset r) .word) s = .next (s.afterRead r) :=
    hostAccess_reg s r _ hbase
  simp only [HostSystem.move, hostMove, hrun, hline, if_true, hread, afterAccess, hlast]

/-- A host branch, which is no access (R110). -/
theorem hostMove_branch {h : HostState} {s : State} {equal : Bool} {x : HostExpr} {imm v : Nat} {target : HostTarget}
    (hrun : h.status = .running) (hline : h.program[h.pc]? = some (.branch equal x imm target))
    (hv : h.eval x = some v) :
    HostSystem.move .host ⟨h, s⟩ = .next ⟨if (v == imm) == equal then h.goto target else h.advance, s⟩ := by
  simp only [HostSystem.move, hostMove, hrun, hline, hv, if_true]

/-- The sequencer's move runs the operation whose word is in flight (R200). -/
theorem move_sequencer {h : HostState} {s t : State} {i : Instr} (hseq : s.seq = .busy (encode i))
    (hexec : exec i s = .next t) : HostSystem.move .sequencer ⟨h, s⟩ = .next ⟨h, t⟩ := by
  simp only [HostSystem.move, takeTurn, sequencerTurn, runWord, hseq, decode_encode, hexec, afterAccess]

/-! ## The wait loop -/

/-- BUSY in a STATUS word that the host holds (R23). -/
theorem statusFieldOf_busy (busy line : Bool) (st : Status) :
    statusFieldOf .busy (statusWord busy line st).toNat = busy.toNat := by
  obtain ⟨hbit, -⟩ := statusWord_bits busy line st
  have hmod : (statusWord busy line st).toNat % 2 = ((statusWord busy line st).getLsbD 0).toNat := by
    rw [BitVec.getLsbD, Nat.toNat_testBit, Nat.pow_zero, Nat.div_one]
  exact hmod.trans (congrArg Bool.toNat hbit)

/-- The variable just assigned, as the host reads a field of it. -/
theorem HostState.eval_field_assign (h : HostState) (name : String) (v : Nat) (f : StatusField) :
    (h.assign name v).advance.eval (.field name f) = some (statusFieldOf f v) := by
  simp [HostState.eval, HostState.assign, HostState.advance]

/-- The host at the line `pc` with the variable `s` holding `v`. -/
def HostState.waited (v pc : Nat) (h : HostState) : HostState := { h.assign "s" v with pc := pc }

/-- One round of `wait`: the host reads STATUS once, and leaves the loop if BUSY is 0 (R110). -/
theorem run_wait {h : HostState} {s : State} (hbase : s.params.base % 4 = 0) (hrun : h.status = .running)
    (hlw : h.program[h.pc]? = some (.lw .status "s"))
    (hbranch : h.program[h.pc + 1]? = some (.branch true (.field "s" .busy) 1 .previous)) :
    HostSystem.run [.host, .host] ⟨h, s⟩ = .next
      ⟨h.waited (s.readReg .status).1.toNat (if s.busy then h.pc else h.pc + 2), s.afterRead .status⟩ := by
  have heval := h.eval_field_assign "s" (s.readReg .status).1.toNat .busy
  have hbusy : statusFieldOf .busy (s.readReg .status).1.toNat = s.busy.toNat := statusFieldOf_busy _ _ _
  rw [hbusy] at heval
  have hmove := hostMove_branch (h := (h.assign "s" _).advance) (s := s.afterRead .status) hrun hbranch heval
  rw [HostSystem.run_cons (hostMove_lw hbase hrun hlw), HostSystem.run_cons hmove]
  cases s.busy <;> rfl

/-- What a host read of STATUS leaves: the line sample it drew and the observation (R23, R64). -/
theorem State.afterRead_status (s : State) : ∃ (line : Bool) (e : Environment), s.afterRead .status = { s with
    bus := { s.bus with env := e },
    observed := s.observed ++ [{ addr := s.params.base + 8, value := s.regView line .status }] } :=
  ⟨_, _, rfl⟩

/-- The write of an operation's word to CMD of an idle OWC (R199). -/
theorem State.writeReg_cmd_of_idle {s : State} (hidle : s.seq = .idle) (i : Instr) :
    s.writeReg .cmd (encode i) = { s with
      cmd := encode i, seq := .busy (encode i),
      status := { s.status with err := .none, nomore := false, done := false } } :=
  (State.whenIdle_of_idle hidle).trans (s.issue_of_decode _ i (decode_encode i))

/-- An op that a register write started leaves the parameters (R7). -/
theorem exec_writeReg_params {i : Instr} {r : Reg} {v : Word} {s t : State} (h : exec i (s.writeReg r v) = .next t) :
    t.params = s.params := by
  obtain ⟨hexec, -⟩ := exec_sameHost i _ t h
  obtain ⟨⟨hwrite, -⟩, -⟩ := s.writeReg_sameHost_bus r v
  rw [hexec, hwrite]

/-- The moves of an op line: the issue, the sequencer's move, and one round of the wait (R110, R199, R200). -/
theorem run_opPrims {h : HostState} {s t : State} {i : Instr} {pre post : List HostPrim} (hbase : s.params.base % 4 = 0)
    (hrun : h.status = .running) (hidle : s.seq = .idle) (hprog : h.program = pre ++ opPrims i ++ post)
    (hpc : h.pc = pre.length) (hexec : exec i (s.writeReg .cmd (encode i)) = .next t) :
    HostSystem.run [.host, .sequencer, .host, .host] ⟨h, s⟩ = .next
      ⟨h.waited (t.readReg .status).1.toNat (h.pc + 3), t.afterRead .status⟩ := by
  have hissue := hostMove_sw hbase hrun (HostState.getElem?_program hprog hpc (k := 0) rfl) rfl
  rw [BitVec.ofNat_toNat, BitVec.setWidth_eq] at hissue
  have hseq : (s.writeReg .cmd (encode i)).seq = .busy (encode i) := by rw [State.writeReg_cmd_of_idle hidle]
  have hbase' : t.params.base % 4 = 0 := by rwa [exec_writeReg_params hexec]
  have hwait := run_wait (h := h.advance) hbase' hrun (HostState.getElem?_program hprog hpc (k := 1) rfl)
    (HostState.getElem?_program hprog hpc (k := 2) rfl)
  have hbusy : t.busy = false := t.busy_eq_false_iff.mpr (exec_seq i _ t hexec)
  rw [hbusy] at hwait
  rw [HostSystem.run_cons hissue, HostSystem.run_cons (move_sequencer hseq hexec)]
  exact hwait

/-- Settles O55: it holds, since the op line's write issues the word, the sequencer's move is exec of the operation, and
a round of the wait reads STATUS once. -/
theorem opLineRunsTheOperationAndWaits : Obligations.OpLineRunsTheOperationAndWaits := by
  intro s h pre post hbase hrun
  refine ⟨fun i hidle hprog hpc => ?_, fun w hseq hprog hpc => ?_⟩
  · obtain ⟨t, -, -, hexec, -, -⟩ := exec_replays i (s.writeReg .cmd (encode i))
    obtain ⟨line, e, hread⟩ := t.afterRead_status
    have hparams : t.params.base = s.params.base := congrArg (·.base) (exec_writeReg_params hexec)
    rw [hparams] at hread
    have hmoves := run_opPrims hbase hrun hidle hprog hpc hexec
    rw [State.writeReg_cmd_of_idle hidle] at hexec
    exact ⟨t, _, line, e, hexec, hmoves, congrArg (· + 3) hpc, hrun, rfl, hread⟩
  · obtain ⟨line, e, hread⟩ := s.afterRead_status
    have hwait := run_wait hbase hrun (HostState.getElem?_program hprog hpc (k := 0) rfl)
      (HostState.getElem?_program hprog hpc (k := 1) rfl)
    have hbusy : s.busy = true := s.busy_eq_true_iff.mpr ⟨w, hseq⟩
    rw [hbusy] at hwait
    exact ⟨_, line, e, hwait, hpc, hrun, hread⟩

end Sys2Proof.Machine
end

section
/-! PROOF. The transport operations (R112 to R126): the words that the rules write out, the events and the registers of
each op, and the phases that an event stands for. -/

namespace Sys2Proof

/-- The number of a concatenation: the upper part, shifted, and the lower part. -/
theorem toNat_append_eq_add {m n : Nat} (x : BitVec m) (y : BitVec n) :
    (x ++ y).toNat = x.toNat * 2 ^ n + y.toNat := by
  rw [BitVec.toNat_append, ← Nat.shiftLeft_add_eq_or_of_lt y.isLt, Nat.shiftLeft_eq]

/-- The number of a word of format W (R101). -/
theorem toNat_wordW (op : Byte) (level : Bool) (t : BitVec 16) :
    (wordW op level t).toNat = t.toNat * 2 ^ 16 + level.toNat * 2 ^ 8 + op.toNat := by
  have hword : (wordW op level t).toNat = (t ++ 0#7 ++ BitVec.ofBool level ++ op).toNat := rfl
  rw [hword]
  simp only [toNat_append_eq_add, BitVec.toNat_ofBool, BitVec.toNat_zero]
  omega

end Sys2Proof

namespace Sys2Proof.Machine

/-! ## How an op ends -/

/-- A byte as eight events, with its bits as a list (R71). -/
theorem map_bitsOf (event : Bool → BusEvent) (v : Byte) : (bitsOf v).map event = byteSlots event v := rfl

/-- The completion of an op that made `events` and staged a value of DATA (R200). -/
theorem State.complete_of_history {s : State} {b : Bus} {events : List BusEvent}
    (h : b.history = s.bus.history ++ events) (data : Byte) :
    { s with bus := b, data := data }.complete = { afterOp s b.env events with data := data } := by
  rw [afterOp, ← h]
  rfl

/-- The error of an op that made `events` and kept a value of DATA (R201). -/
theorem State.raiseError_of_history {s : State} {b : Bus} {events : List BusEvent}
    (h : b.history = s.bus.history ++ events) (code : ErrorCode) (data : Byte) :
    { s with bus := b, data := data }.raiseError code = { afterError s b.env code events with data := data } := by
  rw [afterError, ← h]
  rfl

/-! ## Writing and reading (R116 to R123) -/

/-- Settles O11: it holds, since the two ops are write slots and the completion. -/
theorem writeOperationsSendTheirBits : Obligations.WriteOperationsSendTheirBits := by
  refine ⟨fun b s => ⟨(s.bus.writeSlot b).env, ?_⟩, fun v s => ⟨(s.bus.writeByte v).env, ?_⟩⟩
  · exact congrArg Host.Outcome.next (State.complete_of_history (s.bus.writeSlot_history b) s.data)
  · have hslots := s.bus.writeByte_history v
    rw [map_bitsOf] at hslots
    exact congrArg Host.Outcome.next (State.complete_of_history hslots s.data)

/-- Settles O12: it holds, since the ops stage the answers that their read slots record. -/
theorem readOperationsReturnTheAnswers : Obligations.ReadOperationsReturnTheAnswers := by
  refine ⟨fun s => ⟨s.bus.readSlot.1, s.bus.readSlot.2.env, ?_⟩,
    fun s => ⟨s.bus.readByte.1, s.bus.readByte.2.env, ?_⟩⟩
  · have hdata : (BitVec.ofBool s.bus.readSlot.1).setWidth 8 = if s.bus.readSlot.1 then 1#8 else 0#8 := by
      cases s.bus.readSlot.1 <;> rfl
    rw [← hdata]
    exact congrArg Host.Outcome.next (State.complete_of_history s.bus.readSlot_history _)
  · have hslots := s.bus.readByte_history
    rw [map_bitsOf] at hslots
    exact congrArg Host.Outcome.next (State.complete_of_history hslots _)

/-! ## WAIT_LEVEL (R124) -/

/-- WAIT_LEVEL, by what its samples see and the events they make. -/
theorem exec_waitLevel {level seen : Bool} {t : BitVec 16} {s : State} {events : List BusEvent}
    (hseen : (s.bus.waitLevel level (waitSamples t)).1 = seen)
    (hevents : (s.bus.waitLevel level (waitSamples t)).2.history = s.bus.history ++ events) :
    exec (.waitLevel level t) s = .next
      { afterOp s (s.bus.waitLevel level (waitSamples t)).2.env events with
        data := (BitVec.ofBool seen).setWidth 8 } := by
  subst hseen
  exact congrArg Host.Outcome.next (State.complete_of_history hevents _)

/-- Settles O13: it holds, since the samples end at the first one of the level, or after T + 1 of the other. -/
theorem waitLevelStopsAtTheLevel : Obligations.WaitLevelStopsAtTheLevel := by
  refine ⟨fun level t => ?_, fun level t s => ⟨(s.bus.waitLevel level (waitSamples t)).2.env, ?_⟩⟩
  · have hword : BitVec.ofNat 32 (t.toNat * 2 ^ 16 + level.toNat * 2 ^ 8 + 0x06) = encode (.waitLevel level t) := calc
      _ = BitVec.ofNat 32 (encode (.waitLevel level t)).toNat :=
        congrArg (BitVec.ofNat 32) (toNat_wordW 0x06#8 level t).symm
      _ = encode (.waitLevel level t) := by rw [BitVec.ofNat_toNat, BitVec.setWidth_eq]
    rw [hword, decode_encode]
  · rcases s.bus.waitLevel_cases level (waitSamples t) with ⟨k, hk, hseen, hevents⟩ | ⟨hseen, hevents⟩
    · rw [List.append_assoc] at hevents
      exact .inl ⟨k, Nat.lt_succ_iff.mp hk, exec_waitLevel hseen hevents⟩
    · exact .inr (exec_waitLevel hseen hevents)

/-! ## TRIPLET (R126) -/

section
variable {s : State} {b0 b1 : Bool}

/-- TRIPLET, where the pair it reads is not (1,1) and the chosen bit is `d`: it writes that bit and completes. -/
theorem exec_triplet_of_pair (h0 : s.bus.readSlot.1 = b0) (h1 : s.bus.readSlot.2.readSlot.1 = b1)
    (hpair : pairClass b0 b1 ≠ .noDevice) {dir d : Bool} (hd : (pairClass b0 b1).choose dir = d) :
    exec (.triplet dir) s = .next
      { afterOp s (s.bus.readSlot.2.readSlot.2.writeSlot d).env [.r b0, .r b1, .w d] with
        data := (BitVec.ofBool (decide (pairClass b0 b1 = .collision)) ++ BitVec.ofBool d ++ BitVec.ofBool b1 ++
          BitVec.ofBool b0).setWidth 8 } := by
  subst h0 h1 hd
  rw [← State.complete_of_history (by simp), exec, execTriplet]
  exact congrArg Host.Outcome.next (if_neg hpair)

/-- TRIPLET, where the pair it reads is (1,1): it writes nothing and raises PROTOCOL. -/
theorem exec_triplet_of_noDevice (h0 : s.bus.readSlot.1 = true) (h1 : s.bus.readSlot.2.readSlot.1 = true)
    (dir : Bool) :
    exec (.triplet dir) s = .next
      { afterError s s.bus.readSlot.2.readSlot.2.env .protocol [.r true, .r true] with data := 0x03#8 } := by
  have hhist : s.bus.readSlot.2.readSlot.2.history = s.bus.history ++ [.r true, .r true] := by simp [h0, h1]
  rw [← State.raiseError_of_history hhist]
  simp only [exec, execTriplet, h0, h1]
  rfl

end

/-- Settles O14: it holds, by the four pairs it can read. -/
theorem tripletResolvesAPosition : Obligations.TripletResolvesAPosition := by
  refine ⟨⟨decode_encode (.triplet false), decode_encode (.triplet true)⟩, fun dir s => ?_⟩
  cases h0 : s.bus.readSlot.1 <;> cases h1 : s.bus.readSlot.2.readSlot.1
  case false.true => exact ⟨_, .inl (exec_triplet_of_pair h0 h1 nofun rfl)⟩
  case true.false => exact ⟨_, .inr (.inl (exec_triplet_of_pair h0 h1 nofun rfl))⟩
  case false.false =>
    refine ⟨(s.bus.readSlot.2.readSlot.2.writeSlot dir).env, .inr (.inr (.inl ?_))⟩
    cases dir <;> exact exec_triplet_of_pair h0 h1 nofun rfl
  case true.true => exact ⟨_, .inr (.inr (.inr (exec_triplet_of_noDevice h0 h1 dir)))⟩

/-! ## RESET (R112) -/

section
variable {s : State} {released : Bool} {b : Bus}

/-- RESET with a presence pulse: SHORT is the line not released, and there is no error. -/
theorem exec_reset_of_presence (h : s.bus.reset = ((true, released), b)) :
    exec .reset s = .next { afterOp s b.env [.rst true released] with
      status := { s.status with done := true, presence := true, short := !released } } := by
  have hhist := s.bus.reset_history
  rw [h] at hhist
  simp only [exec, execReset, h, afterOp, ← hhist]
  rfl

/-- RESET without a presence pulse: BUS, with PRESENCE and SHORT kept at 0. -/
theorem exec_reset_of_noPresence (h : s.bus.reset = ((false, released), b)) :
    exec .reset s = .next { afterError s b.env .bus [.rst false released] with
      status := { s.status with done := true, err := .bus, presence := false, short := false } } := by
  have hhist := s.bus.reset_history
  rw [h] at hhist
  simp only [exec, execReset, h, afterError, ← hhist]
  rfl

end

/-- Only the ends of RESET write PRESENCE and SHORT. -/
theorem StatusEnd.presence_short {i : Instr} {f : Status → Status} (hf : StatusEnd i f) (hi : i ≠ .reset)
    (st : Status) : (f st).presence = st.presence ∧ (f st).short = st.short := by
  cases hf with
  | completed | raised | noMore => exact ⟨rfl, rfl⟩
  | presence | noPresence => exact absurd rfl hi

/-- Settles O10: it holds, by the two answers of the handshake; and among the ends of the ops only those of RESET write
the two bits. -/
theorem resetHandshakeResult : Obligations.ResetHandshakeResult := by
  refine ⟨decode_encode .reset, fun s => ?_, fun i s t hi h => ?_⟩
  · match hreset : s.bus.reset with
    | ((true, rel), b) => exact ⟨true, rel, b.env, fun _ => exec_reset_of_presence hreset, nofun⟩
    | ((false, rel), b) => exact ⟨false, rel, b.env, nofun, fun _ => exec_reset_of_noPresence hreset⟩
  · obtain ⟨-, f, hf, hstatus⟩ := exec_flags i s t h
    rw [hstatus]
    exact hf.presence_short hi s.status

/-! ## The phases of an event (R113, R117, R119, R124) -/

/-- OWC drives the line low in the first phase of an event at most, and a later phase releases it. -/
theorem BusEvent.phases_shape (t : Config.Timing) (e : BusEvent) : ∃ first rest, e.phases t = first :: rest ∧
    (∀ p ∈ rest, p.drive = .float) ∧ (rest = [] → first.drive = .float) := by
  cases e with
  | rst presence released => cases presence <;> exact ⟨_, _, rfl, by simp, by simp⟩
  | w bit => cases bit <;> exact ⟨_, _, rfl, by simp, by simp⟩
  | r answer => exact ⟨_, _, rfl, by simp, by simp⟩
  | s answer => exact ⟨_, _, rfl, by simp, by simp⟩

/-- A write slot fills the slot, for its two low pulses are no longer (R117). -/
theorem BusEvent.micros_w (b : Bool) : (BusEvent.w b).micros Config.timing = 70 := by cases b <;> rfl

/-- Settles O54: it holds, event by event, with the values of R228. -/
theorem eventPhasesFillTheirSlots : Obligations.EventPhasesFillTheirSlots :=
  ⟨BusEvent.phases_shape _, fun b => ⟨BusEvent.micros_w b, rfl⟩, fun _ _ => rfl, rfl, rfl, fun _ => rfl, fun _ => rfl,
    fun _ => rfl, fun _ => ⟨rfl, rfl⟩⟩

end Sys2Proof.Machine
end

section
/-! PROOF. The checksum (R131 to R136): `Crc8Update` and `Crc8` are linear, and a shift loses nothing, so that a frame with
one bit set has a nonzero checksum and a valid frame has the checksum 0. -/

namespace Sys2Proof.Machine

/-! ## The shift and the update (R131) -/

/-- The number of times a shift is made is an iteration. -/
theorem crc8Shifts_eq_iterate (n : Nat) (c : Byte) : crc8Shifts n c = crc8Shift^[n] c := by
  induction n generalizing c with
  | zero => rfl
  | succ n ih => exact ih (crc8Shift c)

/-- A shift gives zero from zero only: the bit that leaves at the bottom comes back at the top, by 0x8C. -/
theorem crc8Shift_eq_zero_iff (c : Byte) : crc8Shift c = 0#8 ↔ c = 0#8 := by
  refine ⟨fun h => ?_, by rintro rfl; rfl⟩
  have htop : (crc8Shift c).getLsbD 7 = c.getLsbD 0 := by
    unfold crc8Shift
    split
    next hbit => simpa using hbit.symm
    next hbit => simpa using hbit
  have hlow : c.getLsbD 0 = false := by simpa [h] using htop.symm
  have hshift : c >>> 1 = 0#8 := by rwa [crc8Shift, hlow, if_neg Bool.false_ne_true] at h
  apply BitVec.eq_of_getLsbD_eq
  intro i _
  cases i with
  | zero => simpa using hlow
  | succ i => simpa [Nat.add_comm] using congrArg (fun v => v.getLsbD i) hshift

theorem crc8Shifts_eq_zero_iff (n : Nat) (c : Byte) : crc8Shifts n c = 0#8 ↔ c = 0#8 := by
  induction n generalizing c with
  | zero => rfl
  | succ n ih => exact (ih (crc8Shift c)).trans (crc8Shift_eq_zero_iff c)

/-- The update is linear over GF(2) in the accumulator and the byte together (R136). -/
theorem crc8Update_xor (a b x y : Byte) : crc8Update (a ^^^ b) (x ^^^ y) = crc8Update a x ^^^ crc8Update b y := by
  have hargs : a ^^^ b ^^^ (x ^^^ y) = a ^^^ x ^^^ (b ^^^ y) := by ac_rfl
  rw [crc8Update, hargs, crc8Shifts_xor, crc8Update, crc8Update]

/-- Only its own value takes an accumulator to zero (R136). -/
theorem crc8Update_eq_zero_iff (c v : Byte) : crc8Update c v = 0#8 ↔ c = v :=
  (crc8Shifts_eq_zero_iff 8 (c ^^^ v)).trans BitVec.xor_eq_zero_iff

@[simp] theorem crc8Update_self (c : Byte) : crc8Update c c = 0#8 := (crc8Update_eq_zero_iff c c).mpr rfl

/-! ## The fold (R132) -/

/-- The checksum is linear, from any two accumulators. -/
theorem foldl_crc8Update_xor {xs ys : List Byte} (hlen : xs.length = ys.length) (a b : Byte) :
    (List.zipWith (· ^^^ ·) xs ys).foldl crc8Update (a ^^^ b) =
      xs.foldl crc8Update a ^^^ ys.foldl crc8Update b := by
  induction xs generalizing ys a b with
  | nil =>
    obtain rfl := List.length_eq_zero_iff.mp hlen.symm
    rfl
  | cons x xs ih =>
    obtain _ | ⟨y, ys⟩ := ys
    · simp at hlen
    · rw [List.zipWith_cons_cons, List.foldl_cons, crc8Update_xor]
      exact ih (by simpa using hlen) _ _

/-- The checksum of two lists of the same length, byte by byte (R136). -/
theorem crc8_zipWith_xor {xs ys : List Byte} (hlen : xs.length = ys.length) :
    crc8 (List.zipWith (· ^^^ ·) xs ys) = crc8 xs ^^^ crc8 ys :=
  foldl_crc8Update_xor hlen 0#8 0#8

/-- The checksum of zero bytes (R136). -/
theorem crc8_replicate_zero (n : Nat) : crc8 (List.replicate n 0x00#8) = 0x00#8 := by
  induction n with
  | zero => rfl
  | succ n ih => rw [List.replicate_succ', crc8_append_singleton, ih, crc8Update_self]

/-! ## Frames -/

theorem bytesOf_succ {n : Nat} (x : BitVec n) (count : Nat) :
    bytesOf x (count + 1) = bytesOf x count ++ [byteAt x count] := by
  simp [bytesOf, List.range_succ]

/-- A frame's checksum is 0 exactly when its last byte is the checksum of those before it (R136). -/
theorem crc8_bytesOf_succ_eq_zero_iff {n : Nat} (x : BitVec n) (count : Nat) :
    crc8 (bytesOf x (count + 1)) = 0#8 ↔ crc8 ((bytesOf x (count + 1)).take count) = byteAt x count := by
  rw [bytesOf_succ, crc8_append_singleton, crc8Update_eq_zero_iff, List.take_left' (bytesOf_length x count)]

/-- An address is valid when it is not 0 and its checksum over all eight bytes is 0 (R145). -/
theorem romValid_iff (x : RomCode) : romValid x = true ↔ x ≠ 0#64 ∧ crc8 (romBytes x) = 0#8 := by
  rw [romBytes, crc8_bytesOf_succ_eq_zero_iff]
  simp [romValid, romBytes]

/-- An image is valid when its checksum over all nine bytes is 0 (R146). -/
theorem spValid_iff (m : Image) : spValid m = true ↔ crc8 (spBytes m) = 0#8 := by
  rw [spBytes, crc8_bytesOf_succ_eq_zero_iff]
  simp [spValid, spBytes]

theorem bytesOf_xor {n : Nat} (x y : BitVec n) (count : Nat) :
    bytesOf (x ^^^ y) count = List.zipWith (· ^^^ ·) (bytesOf x count) (bytesOf y count) := by
  simp [bytesOf, byteAt, List.zipWith_map, BitVec.extractLsb'_xor]

/-- A single bit stands in one byte of a frame. -/
theorem byteAt_twoPow_eq_zero_iff {n j : Nat} (hj : j < n) (k : Nat) :
    byteAt (BitVec.twoPow n j) k = 0#8 ↔ ¬ (8 * k ≤ j ∧ j < 8 * k + 8) := by
  constructor
  · rintro h ⟨hlo, hhi⟩
    have hbit := congrArg (fun v => v.getLsbD (j - 8 * k)) h
    have hlt : j - 8 * k < 8 := by omega
    have hpos : 8 * k + (j - 8 * k) = j := by omega
    simp [byteAt, hlt, hpos, hj] at hbit
  · intro h
    apply BitVec.eq_of_getLsbD_eq
    intro i hi
    have hne : j ≠ 8 * k + i := by omega
    simp [byteAt, hne]

/-- The first bytes of a frame with one bit set have the checksum 0 exactly while that bit is not among theirs (R136). -/
theorem crc8_bytesOf_twoPow_eq_zero_iff {n j : Nat} (hj : j < n) (count : Nat) :
    crc8 (bytesOf (BitVec.twoPow n j) count) = 0#8 ↔ 8 * count ≤ j := by
  induction count with
  | zero => simp [bytesOf]
  | succ count ih =>
    rw [bytesOf_succ, crc8_append_singleton, crc8Update_eq_zero_iff]
    have hbyte := byteAt_twoPow_eq_zero_iff hj count
    by_cases hlo : 8 * count ≤ j
    · rw [ih.mpr hlo, eq_comm, hbyte]
      omega
    · rw [hbyte.mpr fun h => hlo h.1, ih]
      omega

/-- Every single-bit error is seen: a frame of checksum 0 has another one with any bit of it flipped (R136). -/
theorem crc8_bytesOf_flip_ne_zero {n count j : Nat} (hj : j < n) (hcount : j < 8 * count) {x : BitVec n}
    (hx : crc8 (bytesOf x count) = 0#8) : crc8 (bytesOf (x ^^^ BitVec.twoPow n j) count) ≠ 0#8 := by
  rw [bytesOf_xor, crc8_zipWith_xor (by simp), hx, BitVec.zero_xor, Ne, crc8_bytesOf_twoPow_eq_zero_iff hj]
  omega

theorem romValid_flip {x : RomCode} (hx : romValid x = true) {j : Nat} (hj : j < 64) :
    romValid (x ^^^ BitVec.twoPow 64 j) = false := by
  rw [Bool.eq_false_iff, Ne, romValid_iff]
  exact fun h => crc8_bytesOf_flip_ne_zero hj hj ((romValid_iff x).mp hx).2 h.2

theorem spValid_flip {m : Image} (hm : spValid m = true) {j : Nat} (hj : j < 72) :
    spValid (m ^^^ BitVec.twoPow 72 j) = false := by
  rw [Bool.eq_false_iff, Ne, spValid_iff]
  exact crc8_bytesOf_flip_ne_zero hj hj ((spValid_iff m).mp hm)

/-- Settles O16: it holds, since the update is linear and gives 0 from its own value only. -/
theorem crcLaws : Obligations.CrcLaws := by
  refine ⟨⟨fun c b => crc8Shifts_eq_iterate 8 (c ^^^ b), rfl, fun _ => rfl, by decide⟩,
    ⟨fun c b => ?_, fun x y => crc8Update_xor x y 0x00#8 0x00#8, crc8Update_self 0x00#8,
      fun _ _ => crc8_zipWith_xor⟩,
    ⟨crc8Update_self, fun m => ?_⟩, crc8_replicate_zero, ⟨fun j hj h => ?_, fun j hj h => ?_⟩,
    fun _ _ hj hx => romValid_flip hx hj, fun _ _ hj hm => spValid_flip hm hj⟩
  · rw [crc8Update, crc8Update, BitVec.xor_zero]
  · rw [crc8_append_singleton, crc8Update_self]
  · exact absurd ((crc8_bytesOf_twoPow_eq_zero_iff hj 8).mp h) (by omega)
  · exact absurd ((crc8_bytesOf_twoPow_eq_zero_iff hj 9).mp h) (by omega)

end Sys2Proof.Machine
end

section
/-! PROOF. The host-visible accumulator: what the two ops on it do to it (R134, R135), and that the frame operations do
not touch it (R25, R133). -/

namespace Sys2Proof

/-- The number of a word of format Y (R101). -/
theorem toNat_wordY (op a : Byte) : (wordY op a).toNat = a.toNat * 2 ^ 8 + op.toNat := by
  have hword : (wordY op a).toNat = (0#16 ++ a ++ op).toNat := rfl
  rw [hword]
  simp only [toNat_append_eq_add, BitVec.toNat_zero]
  omega

/-- The word of an op, given by its number (R103). -/
theorem decode_ofNat {i : Instr} {n : Nat} (h : (encode i).toNat = n) : decode (BitVec.ofNat 32 n) = some i := by
  rw [← h, BitVec.ofNat_toNat, BitVec.setWidth_eq, decode_encode]

end Sys2Proof

namespace Sys2Proof.Machine

/-! ## CRC_CLEAR and CRC_BYTE -/

/-- An op that writes CRC and nothing else completes without an event (R200). -/
theorem State.complete_of_crc (s : State) (c : Byte) :
    { s with crc := c }.complete = { afterOp s s.bus.env [] with crc := c } :=
  State.complete_of_history (s := { s with crc := c }) (List.append_nil _).symm s.data

/-- Settles O15: it holds, since the byte is operand A of the word, and each op is one write of CRC and the
completion. -/
theorem crcOperationsUpdateTheAccumulator : Obligations.CrcOperationsUpdateTheAccumulator := by
  refine ⟨⟨decode_encode .crcClear, fun v => decode_ofNat (toNat_wordY 0x11#8 v)⟩, fun s => ?_, fun v s => ?_⟩
  · exact congrArg Host.Outcome.next (s.complete_of_crc 0x00#8)
  · exact congrArg Host.Outcome.next (s.complete_of_crc (crc8Update s.crc v))

/-! ## The frame operations -/

/-- A discovery pass from another value of CRC (R133). -/
theorem State.searchPass_withCrc (c v : Byte) (s : State) :
    { s with crc := v }.searchPass c = { s.searchPass c with crc := v } := by
  unfold State.searchPass
  dsimp only
  split
  · rfl
  split
  · rfl
  · split <;> rfl

/-- A frame operation from another value of CRC does the same with that value (R133). -/
theorem exec_withCrc {i : Instr} (hi : i ∈ [.readRom, .search, .searchAlarm, .readSp, .romCheck, .spCheck])
    {s t : State} (h : exec i s = .next t) (v : Byte) : exec i { s with crc := v } = .next { t with crc := v } := by
  cases i with
  | readRom | readSp | romCheck | spCheck =>
    obtain rfl := Host.Outcome.next.inj h
    refine congrArg Host.Outcome.next ?_
    dsimp only
    split <;> rfl
  | search | searchAlarm =>
    obtain rfl := Host.Outcome.next.inj h
    exact congrArg Host.Outcome.next (s.searchPass_withCrc _ v)
  | _ => simp at hi

/-- Settles O49: it holds, since the ops end the same from every value of CRC, in particular from the one it has. -/
theorem frameOperationsDoNotTouchCrc : Obligations.FrameOperationsDoNotTouchCrc := by
  intro i s v hi
  obtain ⟨t, -, -, ht, -, -⟩ := exec_replays i s
  have hself : t = { t with crc := s.crc } := Host.Outcome.next.inj (ht.symm.trans (exec_withCrc hi ht s.crc))
  exact ⟨t, ht, congrArg (·.crc) hself, exec_withCrc hi ht v⟩

end Sys2Proof.Machine
end

section
/-! PROOF. The two frame formats and what is read from them (42_frames.md): the records and their flat values (R141,
R143), validity (R145, R146), the temperature (R150) and the check operations (R152, R153). -/

namespace Sys2Proof.Machine

/-! ## The bytes of a concatenation (R63) -/

@[simp] theorem byteAt_append_zero {n : Nat} (x : BitVec n) (v : Byte) : byteAt (x ++ v) 0 = v :=
  BitVec.extractLsb'_append_eq_right

@[simp] theorem byteAt_append_succ {n : Nat} (x : BitVec n) (v : Byte) (k : Nat) :
    byteAt (x ++ v) (k + 1) = byteAt x k :=
  BitVec.extractLsb'_append_eq_of_le (Nat.le_mul_of_pos_right 8 k.succ_pos)

@[simp] theorem byteAt_byte_zero (v : Byte) : byteAt v 0 = v := BitVec.extractLsb'_eq_self

/-! ## DeviceAddress (R141, R142) -/

/-- A flat address is fixed by its bytes (R72). -/
theorem romBytes_injective : Function.Injective romBytes :=
  Function.LeftInverse.injective romOfBytes_romBytes

/-- The bytes of a flat address are the fields of its record, in order (R141). -/
theorem romBytes_encodeRom (a : DeviceAddress) :
    romBytes (encodeRom a) = [a.familyCode, a.serial[0], a.serial[1], a.serial[2], a.serial[3], a.serial[4],
      a.serial[5], a.checksum] := by
  simp [romBytes, bytesOf, encodeRom, List.range, List.range.loop]

theorem encodeRom_decodeRom (x : RomCode) : encodeRom (decodeRom x) = x :=
  romBytes_injective (romBytes_encodeRom (decodeRom x))

theorem decodeRom_encodeRom (a : DeviceAddress) : decodeRom (encodeRom a) = a := by
  obtain ⟨family, serial, checksum⟩ := a
  have hserial : #v[serial[0], serial[1], serial[2], serial[3], serial[4], serial[5]] = serial := by
    refine Vector.ext fun k hk => ?_
    interval_cases k <;> rfl
  simp [decodeRom, encodeRom, hserial]

/-- Settles O17: it holds, since the bytes of a concatenation are its parts, and an address is fixed by its bytes. -/
theorem addressRecordIsTheFlatValue : Obligations.AddressRecordIsTheFlatValue := by
  refine ⟨fun x => ⟨rfl, fun k hk => ?_, rfl, rfl⟩, fun _ => rfl, encodeRom_decodeRom, decodeRom_encodeRom⟩
  interval_cases k <;> rfl

/-! ## MemoryImage (R143) and its registers (R27) -/

/-- An image is fixed by its bytes (R73). -/
theorem spBytes_injective : Function.Injective spBytes :=
  Function.LeftInverse.injective spOfBytes_spBytes

/-- The bytes of an image are the fields of its record, in order (R143). -/
theorem spBytes_encodeSp (r : MemoryImage) :
    spBytes (encodeSp r) = [r.temperatureRaw0, r.temperatureRaw1, r.alarmHigh, r.alarmLow, r.configuration,
      r.reserved5, r.reserved6, r.reserved7, r.checksum] := by
  simp [spBytes, bytesOf, encodeSp, List.range, List.range.loop]

theorem encodeSp_decodeSp (m : Image) : encodeSp (decodeSp m) = m :=
  spBytes_injective (spBytes_encodeSp (decodeSp m))

theorem decodeSp_encodeSp (r : MemoryImage) : decodeSp (encodeSp r) = r := by
  simp [decodeSp, encodeSp]

/-- The three registers, side by side, are the image (R27). -/
theorem spWord2_append_spWord1_append_spWord0 (m : Image) :
    (spWord2 m).extractLsb' 0 8 ++ spWord1 m ++ spWord0 m = m := by
  have hlow : (spWord2 m).extractLsb' 0 8 = m.extractLsb' 64 8 :=
    (BitVec.extractLsb'_setWidth_of_le (by decide)).trans BitVec.extractLsb'_eq_self
  have hhigh : m.extractLsb' 64 8 ++ m.extractLsb' 32 32 = m.extractLsb' 32 40 :=
    BitVec.extractLsb'_append_extractLsb'_eq_extractLsb' rfl
  rw [hlow, spWord1_eq, spWord0_eq, hhigh]
  exact (BitVec.extractLsb'_append_extractLsb'_eq_extractLsb' rfl).trans BitVec.extractLsb'_eq_self

/-- Settles O18: it holds, since the bytes of a concatenation are its parts, and an image is fixed by its bytes. -/
theorem imageRecordIsTheFlatValue : Obligations.ImageRecordIsTheFlatValue :=
  ⟨fun _ => ⟨rfl, rfl, rfl, rfl, rfl, rfl, rfl, rfl, rfl, rfl⟩, encodeSp_decodeSp, decodeSp_encodeSp,
    fun m => (spWord2_append_spWord1_append_spWord0 m).symm⟩

/-! ## Validity (R145, R146) -/

/-- Settles O19: it holds, the first form being the model's own and the second the self-check of R136. -/
theorem addressValidity : Obligations.AddressValidity := by
  refine fun x => ⟨?_, romValid_iff x⟩
  simp [romValid, byteAt]

/-- Settles O20: it holds, the first form being the model's own and the second the self-check of R136, which nine zero
bytes pass. -/
theorem imageValidity : Obligations.ImageValidity := by
  refine ⟨fun m => ⟨?_, spValid_iff m⟩, (spValid_iff 0#72).mpr (crc8_replicate_zero 9)⟩
  simp [spValid, byteAt]

/-! ## The temperature (R150) -/

/-- A shift to the left multiplies the signed value, modulo the width. -/
theorem toInt_shiftLeft_eq_bmod {w : Nat} (x : BitVec w) (k : Nat) :
    (x <<< k).toInt = (x.toInt * 2 ^ k).bmod (2 ^ w) := by
  rw [BitVec.toInt_shiftLeft, BitVec.toInt_eq_toNat_bmod, Int.bmod_mul_bmod, Nat.shiftLeft_eq, Nat.cast_mul,
    Nat.cast_pow, Nat.cast_ofNat]

/-- The low bits of a word, as a signed value. -/
theorem toInt_extractLsb'_zero {w n : Nat} (h : n ≤ w) (x : BitVec w) :
    (x.extractLsb' 0 n).toInt = x.toInt.bmod (2 ^ n) := by
  rw [← BitVec.setWidth_eq_extractLsb' h, ← BitVec.signExtend_eq_setWidth_of_le x h,
    BitVec.toInt_signExtend_eq_toInt_bmod_of_le x h]

/-- Clearing up to three low bits of a signed 16-bit value, as R150 does, rounds it toward minus infinity and stays
within 16 bits. -/
theorem toInt_clearLowBits (raw : BitVec 16) {k : Nat} (hk : k ≤ 3) :
    (((raw.signExtend 32).sshiftRight k <<< k).extractLsb' 0 16).toInt = raw.toInt / 2 ^ k * 2 ^ k := by
  have hlow := raw.le_two_mul_toInt
  have hhigh := raw.two_mul_toInt_lt
  rw [toInt_extractLsb'_zero (by decide), toInt_shiftLeft_eq_bmod, BitVec.toInt_sshiftRight,
    BitVec.toInt_signExtend_of_le (by decide), Int.shiftRight_eq_div_pow,
    Int.bmod_bmod_of_dvd (Nat.pow_dvd_pow 2 (by decide))]
  refine Int.bmod_eq_of_le_mul_two ?_ ?_ <;> interval_cases k <;> omega

theorem tempRes_eq (m : Image) : tempRes m = m.extractLsb' 37 2 := extractLsb'_extractLsb'_of_le m (by decide)

/-- T16 is the raw temperature, rounded down to a multiple of the step of its resolution (R150). -/
theorem toInt_tempT16 (m : Image) :
    (tempT16 m).toInt =
      (m.extractLsb' 0 16).toInt / 2 ^ (3 - (tempRes m).toNat) * 2 ^ (3 - (tempRes m).toNat) := by
  have hraw : byteAt m 1 ++ byteAt m 0 = m.extractLsb' 0 16 := byteAt_append_two m 0
  rw [tempT16, tempRaw, hraw, toInt_clearLowBits _ (Nat.sub_le _ _)]

/-- The resolution and T16 fill the low 18 bits of TEMP (R28, R150). -/
theorem tempWord_eq_append (m : Image) : tempWord m = 0#14 ++ tempRes m ++ tempT16 m :=
  (BitVec.setWidth_eq_append (by decide)).trans BitVec.append_assoc.symm

/-- Settles O21: it holds, since T16 is the quotient by the step times the step, which is a sixteenth of a degree times
2^(3 - RES). -/
theorem temperatureDecodeIsExact : Obligations.TemperatureDecodeIsExact := by
  refine ⟨by decide, by decide, fun m => ?_⟩
  dsimp only
  rw [← tempRes_eq, toInt_tempT16]
  have hres := (tempRes m).isLt
  have hstep : (2 : Int) ^ (3 - (tempRes m).toNat) * 2 ^ ((tempRes m).toNat + 1) = 16 := by
    rw [← pow_add, show 3 - (tempRes m).toNat + ((tempRes m).toNat + 1) = 4 by omega]
    rfl
  refine ⟨?_, ?_, tempWord_eq_append m⟩
  · have := Int.ediv_mul_add_emod (m.extractLsb' 0 16).toInt (2 ^ (3 - (tempRes m).toNat))
    omega
  · rw [mul_assoc, hstep, mul_comm]

/-! ## ROM_CHECK and SP_CHECK (R152, R153) -/

/-- The completion of an op that made no event and staged no write (R200). -/
theorem State.complete_eq_afterOp (s : State) : s.complete = afterOp s s.bus.env [] :=
  State.complete_of_history (List.append_nil _).symm s.data

/-- The error of an op that made no event (R201). -/
theorem State.raiseError_eq_afterError (s : State) (code : ErrorCode) :
    s.raiseError code = afterError s s.bus.env code [] :=
  State.raiseError_of_history (List.append_nil _).symm code s.data

/-- Settles O22: it holds, since each op completes on a valid frame, raises CHECKSUM on another, and does no more. -/
theorem checkOperationsReportValidity : Obligations.CheckOperationsReportValidity := by
  refine ⟨⟨decode_encode .romCheck, decode_encode .spCheck⟩, fun s => ?_⟩
  rw [← s.complete_eq_afterOp, ← s.raiseError_eq_afterError]
  exact ⟨rfl, rfl⟩

end Sys2Proof.Machine
end

section
/-! PROOF. The ops that send a frame and the read of ROM (R160 to R165, R174): their slots on the bus, and how they end. -/

namespace Sys2Proof.Machine

/-! ## The slots of bytes (R71) -/

/-- Bytes written are their write slots, the first byte first (R71). -/
theorem Bus.writeBytes_history_writeSlots (vs : List Byte) (b : Bus) :
    (b.writeBytes vs).history = b.history ++ writeSlots vs :=
  Bus.writeBytes_history vs b

/-- Bytes read are the read slots of their bits, the first byte first (R71). -/
theorem Bus.readBytes_history_readSlots (n : Nat) (b : Bus) :
    (b.readBytes n).2.history = b.history ++ readSlots (b.readBytes n).1 :=
  Bus.readBytes_history n b

/-- A command byte and a read of `n` bytes give `n` bytes, and make the slots of the one and of the others (R71). -/
theorem Bus.writeByte_readBytes_cases (c : Byte) (n : Nat) (b : Bus) :
    ∃ vs b', (b.writeByte c).readBytes n = (vs, b') ∧ vs.length = n ∧
      b'.history = b.history ++ (writeSlots [c] ++ readSlots vs) := by
  refine ⟨_, _, rfl, Bus.readBytes_length n _, ?_⟩
  rw [Bus.readBytes_history_readSlots, ← List.append_assoc]
  exact congrArg (· ++ _) (Bus.writeBytes_history_writeSlots [c] b)

/-! ## SELECT_ALL, SELECT_ONE, WRITE_SP (R160, R164, R174) -/

/-- An op that sends bytes and completes makes their write slots and writes no register (R200). -/
theorem exec_of_writeBytes {i : Instr} {s : State} (vs : List Byte)
    (h : exec i s = .next { s with bus := s.bus.writeBytes vs }.complete) :
    exec i s = .next (afterOp s (s.bus.writeBytes vs).env (writeSlots vs)) :=
  h.trans (congrArg Host.Outcome.next (State.complete_of_history (Bus.writeBytes_history_writeSlots vs s.bus) s.data))

/-- Settles O23: it holds, since each of the three ops sends one list of bytes and completes, and `romBytes` lists the
bytes of ROM. -/
theorem sendingCommandsSendTheirFrames : Obligations.SendingCommandsSendTheirFrames := by
  intro s
  have hselectOne := exec_of_writeBytes (i := .selectOne) (s := s) (s.params.cmds.matchRom :: romBytes s.rom)
    (by rw [Bus.writeBytes_cons]; rfl)
  exact ⟨⟨_, exec_of_writeBytes [s.params.cmds.skipRom] rfl⟩, ⟨_, hselectOne⟩,
    fun high low config => ⟨_, exec_of_writeBytes [s.params.cmds.writeSp, high, low, config] rfl⟩⟩

/-! ## READ_ROM (R162) -/

/-- READ_ROM, by the address its eight read bytes make and the slots on the bus: the check of that address decides the
end. -/
theorem exec_readRom_of_history {s : State} {x : RomCode} {b : Bus} {events : List BusEvent}
    (hread : (s.bus.writeByte s.params.cmds.readRom).readBytes 8 = (romBytes x, b))
    (hevents : b.history = s.bus.history ++ events) :
    exec .readRom s = .next (if romValid x then { afterOp s b.env events with rom := x }
      else afterError s b.env .checksum events) := by
  have hcomplete : { s with bus := b, rom := x }.complete = { afterOp s b.env events with rom := x } :=
    State.complete_of_history (s := { s with rom := x }) hevents s.data
  have herror : { s with bus := b }.raiseError .checksum = afterError s b.env .checksum events :=
    State.raiseError_of_history hevents .checksum s.data
  rw [← hcomplete, ← herror]
  simp only [exec, execReadRom, hread, romOfBytes_romBytes]

/-- Settles O24: it holds with the address that the eight read bytes make, whose bytes they are. -/
theorem readRomGivesAValidAddressOrNone : Obligations.ReadRomGivesAValidAddressOrNone := by
  intro s
  obtain ⟨vs, b, hread, hlength, hevents⟩ := s.bus.writeByte_readBytes_cases s.params.cmds.readRom 8
  obtain ⟨x, rfl⟩ : ∃ x, romBytes x = vs := ⟨_, romBytes_romOfBytes vs hlength⟩
  have hexec := exec_readRom_of_history hread hevents
  exact ⟨x, b.env, fun hvalid => by rw [hexec, if_pos hvalid],
    fun hinvalid => by rw [hexec, if_neg (Bool.eq_false_iff.mp hinvalid)]⟩

end Sys2Proof.Machine
end

section
/-! PROOF. The function commands that read the bus (R169 to R178): the image READ_SP reads, the busy poll of CONVERT and
COPY_SP, and the slot of READ_POWER. -/

namespace Sys2Proof.Machine

/-- A command byte is its eight write slots (R120). -/
theorem Bus.writeByte_history_writeSlots (c : Byte) (b : Bus) :
    (b.writeByte c).history = b.history ++ writeSlots [c] :=
  Bus.writeBytes_history_writeSlots [c] b

/-! ## READ_SP (R172) -/

/-- READ_SP, where the nine bytes that follow its command byte are those of `m`: the check of `m` decides the end. -/
theorem exec_readSp_of_readBytes {s : State} {m : Image} {b : Bus}
    (hread : (s.bus.writeByte s.params.cmds.readSp).readBytes 9 = (spBytes m, b)) :
    exec .readSp s = .next (if spValid m then { s with bus := b, sp := m }.complete
      else { s with bus := b }.raiseError .checksum) := by
  simp only [exec, execReadSp, hread, spOfBytes_spBytes]

/-- Settles O25: it holds with the image that the nine read bytes make, whose bytes they are. -/
theorem readSpGivesAValidImageOrNone : Obligations.ReadSpGivesAValidImageOrNone := by
  intro s
  obtain ⟨vs, b, hread, hlength, hevents⟩ := s.bus.writeByte_readBytes_cases s.params.cmds.readSp 9
  obtain ⟨m, rfl⟩ : ∃ m, spBytes m = vs := ⟨_, spBytes_spOfBytes vs hlength⟩
  refine ⟨m, b.env, fun hvalid => ?_, fun hinvalid => ?_⟩
  · rw [exec_readSp_of_readBytes hread, if_pos hvalid]
    exact congrArg Host.Outcome.next (State.complete_of_history (s := { s with sp := m }) hevents s.data)
  · rw [exec_readSp_of_readBytes hread, if_neg (Bool.eq_false_iff.mp hinvalid)]
    exact congrArg Host.Outcome.next (State.raiseError_of_history hevents .checksum s.data)

/-! ## The busy poll (R169, R170, R176) -/

/-- A command byte and the busy poll, by the events they make: POLLS counts the zeros before the first 1 and the op
completes, or all `POLL_MAX` answers are 0 and it times out (R169). -/
theorem State.commandAndPoll_events_cases (c : Byte) (s : State) : ∃ e : Environment,
    (∃ k < s.params.pollMax, s.commandAndPoll c =
      { afterOp s e (writeSlots [c] ++ List.replicate k (.r false) ++ [.r true]) with
        polls := BitVec.ofNat 32 k }) ∨
    s.commandAndPoll c =
      { afterError s e .timeout (writeSlots [c] ++ List.replicate s.params.pollMax (.r false)) with
        polls := BitVec.ofNat 32 s.params.pollMax } := by
  obtain ⟨answer, b, hpoll⟩ : ∃ answer b, (s.bus.writeByte c).poll s.params.pollMax 0 = (answer, b) := ⟨_, _, rfl⟩
  have hcases := Bus.poll_cases s.params.pollMax 0 (s.bus.writeByte c)
  rw [hpoll, Bus.writeByte_history_writeSlots] at hcases
  simp only [List.append_assoc, Nat.zero_add] at hcases
  simp only [State.commandAndPoll, hpoll, List.append_assoc]
  refine ⟨b.env, ?_⟩
  rcases hcases with ⟨k, hk, rfl, hevents⟩ | ⟨rfl, hevents⟩
  · exact .inl ⟨k, hk, State.complete_of_history (s := { s with polls := BitVec.ofNat 32 k }) hevents s.data⟩
  · exact .inr (State.raiseError_of_history (s := { s with polls := BitVec.ofNat 32 s.params.pollMax })
      hevents .timeout s.data)

/-- CONVERT and COPY_SP are the busy poll after the command byte that each has (R170, R176). -/
theorem exec_eq_commandAndPoll {i : Instr} {c : Byte} {s : State}
    (hi : i = .convert ∧ c = s.params.cmds.convertT ∨ i = .copySp ∧ c = s.params.cmds.copySp) :
    exec i s = .next (s.commandAndPoll c) := by
  rcases hi with ⟨rfl, rfl⟩ | ⟨rfl, rfl⟩ <;> rfl

/-- Settles O26: it holds, since both ops are the busy poll, which ends at the first 1 or after `POLL_MAX` zeros. -/
theorem busyPollCountsTheZeros : Obligations.BusyPollCountsTheZeros := by
  refine ⟨rfl, fun s i c _ hi => ?_⟩
  obtain ⟨e, hends⟩ := s.commandAndPoll_events_cases c
  rw [exec_eq_commandAndPoll hi]
  refine ⟨e, hends.imp (fun hcompletes => ?_) (congrArg Host.Outcome.next)⟩
  obtain ⟨k, hk, hstate⟩ := hcompletes
  exact ⟨k, hk, congrArg Host.Outcome.next hstate⟩

/-! ## READ_POWER (R178) -/

/-- A one-bit answer as a value of DATA (R118, R178). -/
theorem setWidth_ofBool (a : Bool) : (BitVec.ofBool a).setWidth 8 = if a then 1#8 else 0#8 := by
  cases a <;> rfl

/-- Settles O27: it holds, since the op stages the answer that its one read slot records. -/
theorem readPowerReturnsTheMode : Obligations.ReadPowerReturnsTheMode := by
  intro s
  have hevents := (s.bus.writeByte s.params.cmds.readPower).readSlot_history
  rw [Bus.writeByte_history_writeSlots, List.append_assoc] at hevents
  simp only [← setWidth_ofBool]
  exact ⟨_, _, congrArg Host.Outcome.next (State.complete_of_history hevents _)⟩

end Sys2Proof.Machine
end

section
/-! PROOF. The discovery operations (R186 to R190): what SEARCH_INIT writes, what a search in the DONE state reports,
and a pass: the slots it makes, the bits it chooses, how it ends and the branch point it leaves. -/

namespace Sys2Proof.Machine

/-! ## SEARCH_INIT (R186) -/

/-- Settles O28: it holds, since SEARCH_INIT is the two writes and the completion. -/
theorem searchInitSetsTheFirstCall : Obligations.SearchInitSetsTheFirstCall := by
  intro s
  exact congrArg Host.Outcome.next
    (State.complete_eq_afterOp { s with srchPath := 0#64, srchLen := 0xFFFFFFFF#32 })

/-! ## A search and its pass (R188, R190) -/

/-- SEARCH and SEARCH_ALARM are the discovery pass after the command byte that each has (R188, R190). -/
theorem exec_eq_searchPass {op : Instr} {c : Byte} {s : State}
    (hop : op = .search ∧ c = s.params.cmds.searchRom ∨ op = .searchAlarm ∧ c = s.params.cmds.alarmSearch) :
    exec op s = .next (s.searchPass c) := by
  rcases hop with ⟨rfl, rfl⟩ | ⟨rfl, rfl⟩ <;> rfl

/-- In the DONE state a pass reports NOMORE, whatever its command byte (R188). -/
theorem State.searchPass_of_done {s : State} (hdone : s.srchLen = srchDone) (c : Byte) :
    s.searchPass c = { afterOp s s.bus.env [] with status := { s.status with done := true, nomore := true } } := by
  rw [State.searchPass, if_pos hdone, State.complete_eq_afterOp]
  rfl

/-- Settles O29: it holds, since a pass asks for the DONE state before it sends its command byte. -/
theorem searchWhenDoneReportsNoMore : Obligations.SearchWhenDoneReportsNoMore := by
  intro s op hop hdone
  obtain ⟨c, hpass⟩ : ∃ c, exec op s = .next (s.searchPass c) := by
    rcases hop with rfl | rfl
    · exact ⟨_, exec_eq_searchPass (.inl ⟨rfl, rfl⟩)⟩
    · exact ⟨_, exec_eq_searchPass (.inr ⟨rfl, rfl⟩)⟩
  rw [hpass, State.searchPass_of_done hdone]

/-! ## The bits a pass chooses (R128, R188) -/

theorem pairClass_eq_noDevice_iff (a0 a1 : Bool) : pairClass a0 a1 = .noDevice ↔ (a0 && a1) = true := by
  cases a0 <;> cases a1 <;> decide

theorem pairClass_eq_collision_iff (a0 a1 : Bool) : pairClass a0 a1 = .collision ↔ (!a0 && !a1) = true := by
  cases a0 <;> cases a1 <;> decide

/-- Unless no device answers, the bit chosen is the caller's at a collision, and the one all devices agree on elsewhere
(R128). -/
theorem choose_pairClass {a0 a1 : Bool} (h : (a0 && a1) = false) (dir : Bool) :
    (pairClass a0 a1).choose dir = if !a0 && !a1 then dir else a0 := by
  cases a0 <;> cases a1
  · rfl
  · rfl
  · rfl
  · cases h

theorem collisionChoice_eq (len : Int) (path : BitVec 64) (k : Nat) :
    collisionChoice len path k = if (k : Int) < len then path.getLsbD k else decide ((k : Int) = len) := by
  simp [collisionChoice]

section
variable (len : Int) (path : BitVec 64) (b0 b1 : Nat → Bool)

/-- The bit a pass writes at position `k` where it has read the pairs `b0`, `b1` (R188). -/
def chosenBit (k : Nat) : Bool :=
  if !b0 k && !b1 k then if (k : Int) < len then path.getLsbD k else decide ((k : Int) = len) else b0 k

/-- The slots of a pass at its first `n` positions: the pair and the chosen bit (R188). -/
def positionSlots (n : Nat) : List BusEvent :=
  (List.range n).flatMap fun k => [.r (b0 k), .r (b1 k), .w (chosenBit len path b0 b1 k)]

/-- `next` is the branch point that a full pass leaves: the last collision where 0 was chosen, or DONE (R188). -/
def isNextBranch (next : Word) : Prop :=
  (∃ k < 64, (!b0 k && !b1 k) = true ∧ chosenBit len path b0 b1 k = false ∧ next = BitVec.ofNat 32 k ∧
    ∀ j < 64, k < j → (!b0 j && !b1 j) = true → chosenBit len path b0 b1 j = true) ∨
  ((∀ j < 64, (!b0 j && !b1 j) = true → chosenBit len path b0 b1 j = true) ∧ next = 0xFFFFFFFE#32)

end

section
variable {len : Int} {path : BitVec 64} {b0 b1 : Nat → Bool}

/-- Where a device answers, the model's loop writes the chosen bit (R188). -/
theorem choose_collisionChoice {k : Nat} (h : (b0 k && b1 k) = false) :
    (pairClass (b0 k) (b1 k)).choose (collisionChoice len path k) = chosenBit len path b0 b1 k := by
  rw [choose_pairClass h, collisionChoice_eq, chosenBit]

/-- The slots of the model's loop, as long as some device answers (R188). -/
theorem flatMap_range_eq_positionSlots {n : Nat} (h : ∀ k < n, (b0 k && b1 k) = false) :
    (List.range n).flatMap (fun k => [BusEvent.r (b0 k), .r (b1 k),
      .w ((pairClass (b0 k) (b1 k)).choose (collisionChoice len path k))]) = positionSlots len path b0 b1 n :=
  List.flatMap_congr fun k hk => by rw [choose_collisionChoice (h k (List.mem_range.mp hk))]

/-- The last collision where the model's loop chose 0 is the branch point that the pass leaves (R188). -/
theorem isNextBranch_nextBranch (h : ∀ k < 64, (b0 k && b1 k) = false) :
    isNextBranch len path b0 b1 (nextBranch ((List.range 64).foldl (fun last k =>
      if pairClass (b0 k) (b1 k) = .collision ∧
          (pairClass (b0 k) (b1 k)).choose (collisionChoice len path k) = false
        then some k else last) none)) := by
  have hcases := lastZero_cases (fun k => pairClass (b0 k) (b1 k))
    (fun k => (pairClass (b0 k) (b1 k)).choose (collisionChoice len path k)) 64
  simp only [Nat.zero_add, pairClass_eq_collision_iff] at hcases ⊢
  rcases hcases with ⟨k, hk, hcollision, hzero, hlast, hones⟩ | ⟨hnone, hones⟩
  · rw [hlast]
    rw [choose_collisionChoice (h k hk)] at hzero
    exact .inl ⟨k, hk, hcollision, hzero, rfl, fun j hj hkj hc =>
      choose_collisionChoice (h j hj) ▸ hones j hj hkj hc⟩
  · rw [hnone]
    exact .inr ⟨fun j hj hc => choose_collisionChoice (h j hj) ▸ hones j hj hc, rfl⟩

end

/-! ## The ends of a pass (R188) -/

/-- The loop of a pass, by the pairs it reads: it ends at the first (1,1), or chooses the 64 bits of an address and the
next branch point. -/
theorem Bus.searchFrom_slots (len : Int) (path : BitVec 64) (b : Bus) : ∃ (b0 b1 : Nat → Bool) (b' : Bus),
    (∃ n < 64, (∀ k < n, (b0 k && b1 k) = false) ∧ b0 n = true ∧ b1 n = true ∧
      b.searchFrom len path 64 0 0#64 none = (.noDevice n, b') ∧
      b'.history = b.history ++ (positionSlots len path b0 b1 n ++ [.r true, .r true])) ∨
    ((∀ k < 64, (b0 k && b1 k) = false) ∧ ∃ x lastZero,
      b.searchFrom len path 64 0 0#64 none = (.found x lastZero, b') ∧
      b'.history = b.history ++ positionSlots len path b0 b1 64 ∧
      (∀ k < 64, x.getLsbD k = chosenBit len path b0 b1 k) ∧
      isNextBranch len path b0 b1 (nextBranch lastZero)) := by
  obtain ⟨b0, b1, hcases⟩ := b.searchFrom_cases len path 64 0 0#64 none
  simp only [Nat.zero_add, ne_eq, pairClass_eq_noDevice_iff, Bool.not_eq_true] at hcases
  refine ⟨b0, b1, (b.searchFrom len path 64 0 0#64 none).2, ?_⟩
  rcases hcases with ⟨n, hn, hanswered, h0, h1, hend, hevents⟩ | ⟨hanswered, hevents, hend⟩
  · rw [flatMap_range_eq_positionSlots hanswered, List.append_assoc] at hevents
    exact .inl ⟨n, hn, hanswered, h0, h1, Prod.ext hend rfl, hevents⟩
  · rw [flatMap_range_eq_positionSlots hanswered] at hevents
    refine .inr ⟨hanswered, _, _, Prod.ext hend rfl, hevents, fun k hk => ?_, isNextBranch_nextBranch hanswered⟩
    have hbit := chosenBits_getLsbD (fun k => (pairClass (b0 k) (b1 k)).choose (collisionChoice len path k)) 64 le_rfl
      k hk
    simpa [hk, choose_collisionChoice (hanswered k hk)] using hbit

section
variable {s : State} {c : Byte} {b : Bus} {events : List BusEvent}

/-- A pass whose loop ends at a (1,1) (R188). -/
theorem State.searchPass_of_noDevice {n : Nat} (hlen : s.srchLen ≠ srchDone)
    (hloop : (s.bus.writeByte c).searchFrom s.srchLen.toInt s.srchPath 64 0 0#64 none = (.noDevice n, b))
    (hevents : b.history = s.bus.history ++ events) :
    s.searchPass c = { afterError s b.env .protocol events with data := BitVec.ofNat 8 n } := by
  rw [← State.raiseError_of_history hevents]
  simp only [State.searchPass, if_neg hlen, hloop]

/-- A pass whose loop decides all positions: the check of the address decides the end (R188). -/
theorem State.searchPass_of_found {x : RomCode} {lastZero : Option Nat} (hlen : s.srchLen ≠ srchDone)
    (hloop : (s.bus.writeByte c).searchFrom s.srchLen.toInt s.srchPath 64 0 0#64 none = (.found x lastZero, b))
    (hevents : b.history = s.bus.history ++ events) :
    s.searchPass c = if romValid x then
        { afterOp s b.env events with rom := x, srchPath := x, srchLen := nextBranch lastZero }
      else afterError s b.env .checksum events := by
  have hcomplete : { s with bus := b, rom := x, srchPath := x, srchLen := nextBranch lastZero }.complete =
      { afterOp s b.env events with rom := x, srchPath := x, srchLen := nextBranch lastZero } :=
    State.complete_of_history (s := { s with rom := x, srchPath := x, srchLen := nextBranch lastZero })
      hevents s.data
  have herror : { s with bus := b }.raiseError .checksum = afterError s b.env .checksum events :=
    State.raiseError_of_history hevents .checksum s.data
  rw [← hcomplete, ← herror]
  simp only [State.searchPass, if_neg hlen, hloop]

end

/-- Settles O30: it holds with the pairs that the loop of the pass reads after the command byte. -/
theorem searchPassFollowsTheBranchPoint : Obligations.SearchPassFollowsTheBranchPoint := by
  intro s op c hop hlen
  obtain ⟨b0, b1, b, hcases⟩ := (s.bus.writeByte c).searchFrom_slots s.srchLen.toInt s.srchPath
  simp only [Bus.writeByte_history_writeSlots, List.append_assoc] at hcases
  rw [exec_eq_searchPass hop]
  refine ⟨b0, b1, b.env, ?_⟩
  rcases hcases with ⟨n, hn, hanswered, h0, h1, hloop, hevents⟩ |
    ⟨hanswered, x, lastZero, hloop, hevents, hbits, hbranch⟩
  · rw [State.searchPass_of_noDevice hlen hloop hevents, ← List.append_assoc]
    exact .inl ⟨n, hn, hanswered, h0, h1, rfl⟩
  · rw [State.searchPass_of_found hlen hloop hevents]
    refine .inr ⟨hanswered, x, hbits, fun hinvalid => ?_, fun hvalid => ⟨nextBranch lastZero, ?_, hbranch⟩⟩
    · rw [if_neg (Bool.eq_false_iff.mp hinvalid)]
      rfl
    · rw [if_pos hvalid]
      rfl

end Sys2Proof.Machine
end

section
/-! PROOF. Issue, completion and error (R195, R199 to R201): what the issue of a command word does, and how an op ends:
it completes, or it raises a code of its row and keeps the frames and the search state. -/

namespace Sys2Proof.Machine

/-! ## How an op ends (R195, R200, R201) -/

/-- `u` has the CMD, OVR and ERR of `s`: no op stages a write of these. -/
structure State.SameIssue (s u : State) : Prop where
  cmd : u.cmd = s.cmd
  ovr : u.status.ovr = s.status.ovr
  err : u.status.err = s.status.err

/-- `u` has the frames and the search state of `s`, which an error keeps (R201). -/
structure State.SameFrames (s u : State) : Prop where
  rom      : u.rom = s.rom
  sp       : u.sp = s.sp
  srchPath : u.srchPath = s.srchPath
  srchLen  : u.srchLen = s.srchLen

/-- The rows of R195: which op raises which code, and the values that it has recorded in `u`. -/
inductive ErrorRow (pollMax : Nat) (u : State) : ErrorCode → Instr → Prop where
  | noPresence (hpresence : u.status.presence = false) (hshort : u.status.short = false) :
      ErrorRow pollMax u .bus .reset
  | pair (dir : Bool) (hdata : u.data = 3#8) : ErrorRow pollMax u .protocol (.triplet dir)
  | position {i : Instr} (hi : i = .search ∨ i = .searchAlarm) (hdata : u.data.toNat < 64) :
      ErrorRow pollMax u .protocol i
  | invalid {i : Instr}
      (hi : i = .readRom ∨ i = .search ∨ i = .searchAlarm ∨ i = .romCheck ∨ i = .readSp ∨ i = .spCheck) :
      ErrorRow pollMax u .checksum i
  | timeout {i : Instr} (hi : i = .convert ∨ i = .copySp) (hpolls : u.polls = BitVec.ofNat 32 pollMax) :
      ErrorRow pollMax u .timeout i

/-- The end of an op from `s`, `u` being `s` with its staged writes: it completes, a ROM or SP that it staged being
valid (R200, R206), or it raises a code of its row with the frames kept (R195, R201). -/
inductive OpEnd (i : Instr) (s : State) : State → Prop where
  | completes {u : State} (hissue : s.SameIssue u) (hrom : u.rom = s.rom ∨ romValid u.rom = true)
      (hsp : u.sp = s.sp ∨ spValid u.sp = true) : OpEnd i s u.complete
  | raises {u : State} {code : ErrorCode} (hissue : s.SameIssue u) (hframes : s.SameFrames u)
      (hrow : ErrorRow s.params.pollMax u code i) : OpEnd i s (u.raiseError code)

/-- The busy poll completes, or times out with POLLS at `POLL_MAX` (R169). -/
theorem State.commandAndPoll_opEnd {i : Instr} (hi : i = .convert ∨ i = .copySp) (c : Byte) (s : State) :
    OpEnd i s (s.commandAndPoll c) := by
  unfold State.commandAndPoll
  dsimp only
  split
  · exact .completes ⟨rfl, rfl, rfl⟩ (.inl rfl) (.inl rfl)
  · exact .raises ⟨rfl, rfl, rfl⟩ ⟨rfl, rfl, rfl, rfl⟩ (.timeout hi rfl)

/-- A discovery pass reports NOMORE or finds a valid address, or ends in PROTOCOL at one of the 64 positions, or in
CHECKSUM (R188). -/
theorem State.searchPass_opEnd {i : Instr} (hi : i = .search ∨ i = .searchAlarm) (c : Byte) (s : State) :
    OpEnd i s (s.searchPass c) := by
  by_cases hdone : s.srchLen = srchDone
  · rw [State.searchPass, if_pos hdone]
    exact .completes ⟨rfl, rfl, rfl⟩ (.inl rfl) (.inl rfl)
  obtain ⟨b0, b1, b, ⟨n, hn, -, -, -, hloop, -⟩ | ⟨-, x, lastZero, hloop, -⟩⟩ :=
    (s.bus.writeByte c).searchFrom_slots s.srchLen.toInt s.srchPath
  all_goals simp only [State.searchPass, if_neg hdone, hloop]
  · exact .raises ⟨rfl, rfl, rfl⟩ ⟨rfl, rfl, rfl, rfl⟩ (.position hi ((Nat.mod_le n (2 ^ 8)).trans_lt hn))
  · split
    next hvalid => exact .completes ⟨rfl, rfl, rfl⟩ (.inr hvalid) (.inl rfl)
    next => exact .raises ⟨rfl, rfl, rfl⟩ ⟨rfl, rfl, rfl, rfl⟩ (.invalid (.inr (or_assoc.mp (.inl hi))))

/-- Every op ends in one of the two ways (R200, R201). -/
theorem exec_opEnd {i : Instr} {s t : State} (h : exec i s = .next t) : OpEnd i s t := by
  cases i with
  | writeBit | readBit | writeByte | readByte | waitLevel | crcClear | crcByte | selectAll | selectOne | writeSp
  | readPower | searchInit =>
    obtain rfl := Host.Outcome.next.inj h
    exact .completes ⟨rfl, rfl, rfl⟩ (.inl rfl) (.inl rfl)
  | reset =>
    obtain rfl := Host.Outcome.next.inj h
    dsimp only
    split
    next => exact .completes ⟨rfl, rfl, rfl⟩ (.inl rfl) (.inl rfl)
    next hpresence =>
      have hp := Bool.eq_false_iff.mpr hpresence
      exact .raises ⟨rfl, rfl, rfl⟩ ⟨rfl, rfl, rfl, rfl⟩ (.noPresence hp (by simp [hp]))
  | triplet dir =>
    obtain rfl := Host.Outcome.next.inj h
    dsimp only
    split
    · exact .raises ⟨rfl, rfl, rfl⟩ ⟨rfl, rfl, rfl, rfl⟩ (.pair dir rfl)
    · exact .completes ⟨rfl, rfl, rfl⟩ (.inl rfl) (.inl rfl)
  | romCheck | spCheck =>
    obtain rfl := Host.Outcome.next.inj h
    split
    · exact .completes ⟨rfl, rfl, rfl⟩ (.inl rfl) (.inl rfl)
    · exact .raises ⟨rfl, rfl, rfl⟩ ⟨rfl, rfl, rfl, rfl⟩ (.invalid (by simp))
  | readRom =>
    obtain rfl := Host.Outcome.next.inj h
    dsimp only
    split
    next hvalid => exact .completes ⟨rfl, rfl, rfl⟩ (.inr hvalid) (.inl rfl)
    next => exact .raises ⟨rfl, rfl, rfl⟩ ⟨rfl, rfl, rfl, rfl⟩ (.invalid (by simp))
  | readSp =>
    obtain rfl := Host.Outcome.next.inj h
    dsimp only
    split
    next hvalid => exact .completes ⟨rfl, rfl, rfl⟩ (.inl rfl) (.inr hvalid)
    next => exact .raises ⟨rfl, rfl, rfl⟩ ⟨rfl, rfl, rfl, rfl⟩ (.invalid (by simp))
  | convert | copySp =>
    obtain ⟨c, rfl⟩ := exec_poll (by simp) h
    exact s.commandAndPoll_opEnd (by simp) c
  | search | searchAlarm =>
    obtain ⟨c, rfl⟩ := exec_pass (by simp) h
    exact s.searchPass_opEnd (by simp) c

/-! ## Completion (R200, R201) -/

/-- Both ends of an op make SEQ idle, set DONE and release the line, and leave CMD and OVR (R200, R201). -/
theorem OpEnd.completion {i : Instr} {s t : State} (h : OpEnd i s t) :
    t.seq = .idle ∧ t.status.done = true ∧ t.bus.drive = .float ∧ t.cmd = s.cmd ∧ t.status.ovr = s.status.ovr := by
  cases h with
  | completes hissue | raises hissue => exact ⟨rfl, rfl, rfl, hissue.cmd, hissue.ovr⟩

/-- Settles O9: it holds, by the end of the op, its events, and what no op touches of the host's side. -/
theorem everyOperationCompletes : Obligations.EveryOperationCompletes := by
  intro i s
  obtain ⟨t, -, -, h, -, -⟩ := exec_replays i s
  obtain ⟨hseq, hdone, hdrive, hcmd, hovr⟩ := (exec_opEnd h).completion
  obtain ⟨events, hevents⟩ := exec_history i s t h
  obtain ⟨hparams, hturns, hobserved⟩ := exec_sameHost i s t h
  obtain ⟨hie, -⟩ := exec_flags i s t h
  exact ⟨t, h, hseq, hdone, hdrive, ⟨events, hevents.symm⟩, hparams, hie, hcmd, hovr, hturns, hobserved⟩

/-! ## What errors keep, and who raises them (R195, R201, R206) -/

/-- Settles O31: it holds, since an op that changes ERR has raised it with the frames kept, and one that completes has
staged valid frames only. -/
theorem noOperationCommitsAnInvalidFrame : Obligations.NoOperationCommitsAnInvalidFrame := by
  intro i s t h
  cases exec_opEnd h with
  | completes hissue hrom hsp =>
    exact ⟨fun hnone hraised => absurd (hissue.err.trans hnone) hraised, hrom.resolve_left, hsp.resolve_left⟩
  | raises hissue hframes hrow =>
    obtain ⟨hrom, hsp, hpath, hlen⟩ := hframes
    exact ⟨fun _ _ => ⟨hrom, hsp, hpath, hlen⟩, absurd hrom, absurd hsp⟩

/-- Settles O33: it holds, row by row, since an op that changes ERR has raised a code of its row. -/
theorem errorCodesHaveOnlyTheirRaisers : Obligations.ErrorCodesHaveOnlyTheirRaisers := by
  intro i s t h hchanged
  cases exec_opEnd h with
  | completes hissue => exact absurd hissue.err hchanged
  | raises hissue hframes hrow =>
    cases hrow with
    | noPresence hpresence hshort => exact .inl ⟨rfl, rfl, hpresence, hshort⟩
    | pair dir hdata => exact .inr (.inl ⟨rfl, .inl ⟨⟨dir, rfl⟩, hdata⟩⟩)
    | position hi hdata => exact .inr (.inl ⟨rfl, .inr ⟨hi, hdata⟩⟩)
    | invalid hi => exact .inr (.inr (.inl ⟨rfl, hi, hframes.rom, hframes.sp⟩))
    | timeout hi hpolls => exact .inr (.inr (.inr ⟨rfl, hi, hpolls⟩))

/-! ## The issue of a command word (R199) -/

/-- A write to CMD of an idle OWC issues the word (R199). -/
theorem step_write_cmd_of_idle {s : State} {w : Word} {rest : List Turn} (hnext : writesNext s .cmd w rest)
    (hidle : s.seq = .idle) : step s = .next (State.issue w { s with turns := rest }) := by
  rw [step_write hnext]
  exact congrArg Host.Outcome.next (State.whenIdle_of_idle hidle)

/-- A write to CMD while an op runs sets OVR (R66, R199). -/
theorem step_write_cmd_of_busy {s : State} {w v : Word} {rest : List Turn} (hnext : writesNext s .cmd w rest)
    (hbusy : s.seq = .busy v) : step s = .next { s with turns := rest }.overrun := by
  rw [step_write hnext]
  exact congrArg Host.Outcome.next (State.whenIdle_of_busy hbusy)

/-- Settles O7: it holds, since a write to CMD issues its word to an idle OWC and sets OVR of a busy one. -/
theorem issueOfACommandWord : Obligations.IssueOfACommandWord := by
  intro s w rest hnext
  refine ⟨fun hidle hillegal => ?_, fun i hidle hlegal => ?_, fun v hbusy => step_write_cmd_of_busy hnext hbusy⟩
  · rw [step_write_cmd_of_idle hnext hidle, State.issue_of_illegal w _ hillegal]
    rfl
  · rw [step_write_cmd_of_idle hnext hidle, State.issue_of_decode w i _ hlegal]
    rfl

end Sys2Proof.Machine
end

section
/-! PROOF. The read of a MemoryImage in single steps (R227): SELECT_ALL and READ_SP make the slots of two WRITE_BYTEs
and nine READ_BYTEs. -/

namespace Sys2Proof.Machine

/-! ## Bytes and the line driver (R41) -/

/-- A byte leaves the line released. -/
theorem Bus.writeByte_release (v : Byte) (b : Bus) : (b.writeByte v).release = b.writeByte v := rfl

/-- A byte read leaves the line released. -/
theorem Bus.readByte_release (b : Bus) : b.readByte.2.release = b.readByte.2 := rfl

/-- Bytes read leave a released line released. -/
theorem Bus.readBytes_release {b : Bus} (n : Nat) (h : b.release = b) :
    (b.readBytes n).2.release = (b.readBytes n).2 := by
  induction n generalizing b with
  | zero => exact h
  | succ n ih => exact ih b.readByte_release

/-! ## The two ways to read a MemoryImage -/

/-- READ_BYTEs one after another leave the bus that a read of as many bytes leaves, and do not write SP (R122). -/
theorem runOps_replicate_readByte (n : Nat) (s : State) : ∃ t : State,
    runOps (List.replicate n .readByte) s = .next t ∧ t.bus = (s.bus.readBytes n).2 ∧ t.sp = s.sp := by
  induction n generalizing s with
  | zero => exact ⟨s, rfl, rfl, rfl⟩
  | succ n ih => exact ih { s with bus := s.bus.readByte.2, data := s.bus.readByte.1 }.complete

/-- READ_SP leaves the bus that its command byte and nine bytes read leave, whether they are a valid image or not
(R172). -/
theorem exec_readSp_bus (s : State) : ∃ t : State, exec .readSp s = .next t ∧
    t.bus = ((s.bus.writeByte s.params.cmds.readSp).readBytes 9).2 := by
  have hrelease := Bus.readBytes_release 9 (s.bus.writeByte_release s.params.cmds.readSp)
  refine ⟨_, rfl, ?_⟩
  dsimp only
  split
  · rw [State.complete_bus, hrelease]
  · rw [State.raiseError_bus, hrelease]

/-- READ_SP leaves the bus that its command byte, sent with WRITE_BYTE, and nine READ_BYTEs leave; these do not write SP
(R227). -/
theorem exec_readSp_bus_eq_runOps_bus (s : State) : ∃ t t' : State,
    runOps (.writeByte s.params.cmds.readSp :: List.replicate 9 .readByte) s = .next t ∧
    exec .readSp s = .next t' ∧ t'.bus = t.bus ∧ t.sp = s.sp := by
  obtain ⟨t', hreadSp, hbus'⟩ := exec_readSp_bus s
  obtain ⟨t, hreads, hbus, hsp⟩ := runOps_replicate_readByte 9 (s.doneOn (s.bus.writeByte s.params.cmds.readSp))
  exact ⟨t, t', (runOps_cons rfl).trans hreads, hreadSp, hbus'.trans hbus.symm, hsp⟩

/-- Settles O52: it holds, since SELECT_ALL and WRITE_BYTE of its command byte leave one and the same state, from which
READ_SP and the transport ops in its place leave the same bus. -/
theorem transportOperationsBuildReadSp : Obligations.TransportOperationsBuildReadSp := by
  intro s
  obtain ⟨u, hselect, hwrite, hparams, husp⟩ : ∃ u, exec .selectAll s = .next u ∧
      exec (.writeByte s.params.cmds.skipRom) s = .next u ∧ u.params = s.params ∧ u.sp = s.sp :=
    ⟨s.doneOn (s.bus.writeByte s.params.cmds.skipRom), rfl, rfl, rfl, rfl⟩
  obtain ⟨t, t', hops, hreadSp, hbus, hsp⟩ := exec_readSp_bus_eq_runOps_bus u
  rw [hparams] at hops
  exact ⟨t, t', (runOps_cons hwrite).trans hops, (runOps_cons hselect).trans (runOps_cons hreadSp), hbus,
    hsp.trans husp⟩

end Sys2Proof.Machine
end

section
/-! PROOF. How long the bus events of an op take, with the values of R228 (R229). -/

namespace Sys2Proof.Machine

/-! ## Durations of lists of events -/

@[simp] theorem BusEvent.micros_r (b : Bool) : (BusEvent.r b).micros Config.timing = 70 := rfl
@[simp] theorem BusEvent.micros_s (b : Bool) : (BusEvent.s b).micros Config.timing = 1 := rfl

@[simp] theorem busMicros_nil (t : Config.Timing) : busMicros t [] = 0 := rfl

@[simp] theorem busMicros_cons (t : Config.Timing) (e : BusEvent) (events : List BusEvent) :
    busMicros t (e :: events) = e.micros t + busMicros t events := by
  simp [busMicros]

@[simp] theorem busMicros_append (t : Config.Timing) (events more : List BusEvent) :
    busMicros t (events ++ more) = busMicros t events + busMicros t more := by
  simp [busMicros]

@[simp] theorem busMicros_replicate (t : Config.Timing) (n : Nat) (e : BusEvent) :
    busMicros t (List.replicate n e) = n * e.micros t := by
  simp [busMicros]

/-- A byte is eight slots, written or read (R120, R122). -/
theorem busMicros_byteSlots {event : Bool → BusEvent} (hslot : ∀ b, (event b).micros Config.timing = 70) (v : Byte) :
    busMicros Config.timing (byteSlots event v) = 560 := by
  simp [byteSlots, hslot]

theorem busMicros_flatMap_byteSlots {event : Bool → BusEvent} (hslot : ∀ b, (event b).micros Config.timing = 70)
    (vs : List Byte) : busMicros Config.timing (vs.flatMap (byteSlots event)) = 560 * vs.length := by
  induction vs with
  | nil => rfl
  | cons v vs ih =>
    rw [List.flatMap_cons, busMicros_append, ih, busMicros_byteSlots hslot, List.length_cons]
    omega

@[simp] theorem busMicros_writeSlots (vs : List Byte) : busMicros Config.timing (writeSlots vs) = 560 * vs.length :=
  busMicros_flatMap_byteSlots BusEvent.micros_w vs

@[simp] theorem busMicros_readSlots (vs : List Byte) : busMicros Config.timing (readSlots vs) = 560 * vs.length :=
  busMicros_flatMap_byteSlots BusEvent.micros_r vs

/-- A position of a discovery pass is three slots (R188). -/
@[simp] theorem busMicros_positionSlots (len : Int) (path : BitVec 64) (b0 b1 : Nat → Bool) (n : Nat) :
    busMicros Config.timing (positionSlots len path b0 b1 n) = 210 * n := by
  induction n with
  | zero => rfl
  | succ n ih =>
    have hsucc : positionSlots len path b0 b1 (n + 1) = positionSlots len path b0 b1 n ++
        [.r (b0 n), .r (b1 n), .w (chosenBit len path b0 b1 n)] := by
      simp [positionSlots, List.range_succ]
    rw [hsucc, busMicros_append, ih]
    simp only [busMicros_cons, busMicros_nil, BusEvent.micros_r, BusEvent.micros_w]
    omega

/-! ## Durations of ops -/

/-- The duration of a step is that of the events it appended to the history. -/
theorem addedMicros_of_history {s t : State} {events : List BusEvent} (h : t.bus.history = s.bus.history ++ events) :
    addedMicros s t = busMicros Config.timing events := by
  rw [addedMicros, newEvents, h, List.drop_left]

section
variable {i : Instr} {s t : State}

/-- The state after an op is the one that a rule gives for it. -/
theorem eq_of_exec {u : State} (h : exec i s = .next t) (hrule : exec i s = .next u) : t = u :=
  Host.Outcome.next.inj (h.symm.trans hrule)

/-- The duration of an op is that of the events which its rule gives. -/
theorem addedMicros_of_exec {u : State} {events : List BusEvent} (h : exec i s = .next t)
    (hrule : exec i s = .next u) (hevents : u.bus.history = s.bus.history ++ events) :
    addedMicros s t = busMicros Config.timing events := by
  rw [eq_of_exec h hrule, addedMicros_of_history hevents]

theorem addedMicros_reset (h : exec .reset s = .next t) :
    addedMicros s t = if t.status.presence then 1040 else 800 := by
  obtain ⟨-, hends, -⟩ := resetHandshakeResult
  obtain ⟨p, rel, e, hpresence, hnone⟩ := hends s
  cases p with
  | true =>
    obtain rfl := eq_of_exec h (hpresence rfl)
    exact (addedMicros_of_history rfl).trans rfl
  | false =>
    obtain rfl := eq_of_exec h (hnone rfl)
    exact (addedMicros_of_history rfl).trans rfl

theorem addedMicros_writeByte {v : Byte} (h : exec (.writeByte v) s = .next t) : addedMicros s t = 560 := by
  obtain ⟨e, hrule⟩ := writeOperationsSendTheirBits.2 v s
  exact (addedMicros_of_exec h hrule rfl).trans (busMicros_byteSlots BusEvent.micros_w v)

theorem addedMicros_readByte (h : exec .readByte s = .next t) : addedMicros s t = 560 := by
  obtain ⟨v, e, hrule⟩ := readOperationsReturnTheAnswers.2 s
  exact (addedMicros_of_exec h hrule rfl).trans (busMicros_byteSlots BusEvent.micros_r v)

/-- WAIT_LEVEL takes one poll period a sample: one sample at least, `T + 1` at most (R124). -/
theorem addedMicros_waitLevel {level : Bool} {timeout : BitVec 16}
    (h : exec (.waitLevel level timeout) s = .next t) :
    1 ≤ addedMicros s t ∧ addedMicros s t ≤ timeout.toNat + 1 := by
  obtain ⟨e, ⟨k, hk, hrule⟩ | hrule⟩ := waitLevelStopsAtTheLevel.2 level timeout s
  · have hmicros : addedMicros s t = k + 1 := (addedMicros_of_exec h hrule rfl).trans (by simp)
    omega
  · have hmicros : addedMicros s t = timeout.toNat + 1 := (addedMicros_of_exec h hrule rfl).trans (by simp)
    omega

/-- TRIPLET takes two slots, and a third for the bit it writes unless it ends on the pair (1,1) (R126). -/
theorem addedMicros_triplet {dir : Bool} (h : exec (.triplet dir) s = .next t) :
    addedMicros s t = if t.data = 0x03#8 then 140 else 210 := by
  obtain ⟨e, hrule | hrule | hrule | hrule⟩ := tripletResolvesAPosition.2 dir s
  all_goals
    obtain rfl := eq_of_exec h hrule
    rw [addedMicros_of_history rfl]
  · rfl
  · rfl
  · cases dir <;> rfl
  · rfl

theorem addedMicros_readRom (h : exec .readRom s = .next t) : addedMicros s t = 5040 := by
  obtain ⟨x, e, hvalid, hinvalid⟩ := readRomGivesAValidAddressOrNone s
  have hmicros : busMicros Config.timing (writeSlots [s.params.cmds.readRom] ++ readSlots (romBytes x)) = 5040 := by
    simp [romBytes, bytesOf]
  cases hx : romValid x with
  | true => exact (addedMicros_of_exec h (hvalid hx) rfl).trans hmicros
  | false => exact (addedMicros_of_exec h (hinvalid hx) rfl).trans hmicros

theorem addedMicros_readSp (h : exec .readSp s = .next t) : addedMicros s t = 5600 := by
  obtain ⟨m, e, hvalid, hinvalid⟩ := readSpGivesAValidImageOrNone s
  have hmicros : busMicros Config.timing (writeSlots [s.params.cmds.readSp] ++ readSlots (spBytes m)) = 5600 := by
    simp [spBytes, bytesOf]
  cases hm : spValid m with
  | true => exact (addedMicros_of_exec h (hvalid hm) rfl).trans hmicros
  | false => exact (addedMicros_of_exec h (hinvalid hm) rfl).trans hmicros

/-- CONVERT and COPY_SP take their command byte and a slot a poll, the last answering 1 or all answering 0 (R169). -/
theorem addedMicros_poll (hi : i = .convert ∨ i = .copySp) (h : exec i s = .next t) :
    (∃ k < s.params.pollMax, t.polls = BitVec.ofNat 32 k ∧ addedMicros s t = 630 + 70 * k) ∨
    (t.status.err = .timeout ∧ addedMicros s t = 560 + 70 * s.params.pollMax) := by
  obtain ⟨c, rfl⟩ := exec_poll hi h
  obtain ⟨e, ⟨k, hk, hstate⟩ | hstate⟩ := s.commandAndPoll_events_cases c
  · refine .inl ⟨k, hk, by rw [hstate], ?_⟩
    rw [hstate, addedMicros_of_history rfl]
    simp only [busMicros_append, busMicros_writeSlots, busMicros_replicate, busMicros_cons, busMicros_nil,
      BusEvent.micros_r, List.length_singleton]
    omega
  · refine .inr ⟨by rw [hstate]; rfl, ?_⟩
    rw [hstate, addedMicros_of_history rfl]
    simp only [busMicros_append, busMicros_writeSlots, busMicros_replicate, BusEvent.micros_r, List.length_singleton]
    omega

/-- A search takes no time in the DONE state; else its command byte and three slots a position, or three slots for each
position before the one where it reads the pair (1,1) and two there (R188). -/
theorem addedMicros_search (hi : i = .search ∨ i = .searchAlarm) (h : exec i s = .next t) :
    if s.srchLen = 0xFFFFFFFE#32 then addedMicros s t = 0
    else addedMicros s t = 14000 ∨
      (t.status.err = .protocol ∧ ∃ n < 64, t.data = BitVec.ofNat 8 n ∧ addedMicros s t = 700 + 210 * n) := by
  split
  next hdone => exact addedMicros_of_exec h (searchWhenDoneReportsNoMore s i hi hdone) rfl
  next hlen =>
    obtain ⟨c, rfl⟩ := exec_pass hi h
    obtain ⟨b0, b1, b, ⟨n, hn, -, -, -, hloop, hevents⟩ | ⟨-, x, lastZero, hloop, hevents, -⟩⟩ :=
      (s.bus.writeByte c).searchFrom_slots s.srchLen.toInt s.srchPath
    all_goals rw [Bus.writeByte_history_writeSlots, List.append_assoc] at hevents
    · rw [State.searchPass_of_noDevice hlen hloop hevents]
      refine .inr ⟨rfl, n, hn, rfl, ?_⟩
      rw [addedMicros_of_history rfl]
      simp only [busMicros_append, busMicros_writeSlots, busMicros_positionSlots, busMicros_cons, busMicros_nil,
        BusEvent.micros_r, List.length_singleton]
      omega
    · rw [State.searchPass_of_found hlen hloop hevents]
      left
      split <;> exact (addedMicros_of_history rfl).trans (by simp)

end

/-- Settles O53: it holds, op by op, since the rules of the ops fix the slots and the samples that each makes. -/
theorem operationDurations : Obligations.OperationDurations := by
  intro i s t h
  cases i with
  | reset => exact addedMicros_reset h
  | writeBit b =>
    obtain ⟨e, hrule⟩ := writeOperationsSendTheirBits.1 b s
    exact (addedMicros_of_exec h hrule rfl).trans (BusEvent.micros_w b)
  | readBit =>
    obtain ⟨a, e, hrule⟩ := readOperationsReturnTheAnswers.1 s
    exact (addedMicros_of_exec h hrule rfl).trans (BusEvent.micros_r a)
  | writeByte => exact addedMicros_writeByte h
  | readByte => exact addedMicros_readByte h
  | waitLevel => exact addedMicros_waitLevel h
  | triplet => exact addedMicros_triplet h
  | crcClear | crcByte | searchInit =>
    obtain rfl := Host.Outcome.next.inj h
    exact addedMicros_of_history (List.append_nil _).symm
  | romCheck | spCheck =>
    obtain rfl := Host.Outcome.next.inj h
    dsimp only
    split <;> exact addedMicros_of_history (List.append_nil _).symm
  | selectAll =>
    obtain ⟨⟨e, hrule⟩, -, -⟩ := sendingCommandsSendTheirFrames s
    exact (addedMicros_of_exec h hrule rfl).trans (busMicros_writeSlots _)
  | readRom => exact addedMicros_readRom h
  | selectOne =>
    obtain ⟨-, ⟨e, hrule⟩, -⟩ := sendingCommandsSendTheirFrames s
    exact (addedMicros_of_exec h hrule rfl).trans (busMicros_writeSlots _)
  | convert | copySp => exact addedMicros_poll (by simp) h
  | readSp => exact addedMicros_readSp h
  | writeSp high low config =>
    obtain ⟨-, -, hwrite⟩ := sendingCommandsSendTheirFrames s
    obtain ⟨e, hrule⟩ := hwrite high low config
    exact (addedMicros_of_exec h hrule rfl).trans (busMicros_writeSlots _)
  | readPower =>
    obtain ⟨a, e, hrule⟩ := readPowerReturnsTheMode s
    exact (addedMicros_of_exec h hrule rfl).trans (by simp)
  | search | searchAlarm => exact addedMicros_search (by simp) h

end Sys2Proof.Machine
end
